-- ==== Sys2Proof/Word.lean ====
section
/-! DEFINITION. The word types of the machine (00_scope.md R9, R12): 36-bit words, 18-bit addresses,
72-bit double words, 7-bit register addresses. -/

namespace Sys2Proof

/-- A machine word, `WORD = 36` bits, bit 35 the sign (R9, R12). -/
abbrev Word := BitVec 36

/-- A main-storage or operand address and the program address, `ADDR = 18` bits (R9, R27). -/
abbrev Addr := BitVec 18

/-- Two words side by side, the more significant on the left (R15, R239). -/
abbrev DWord := BitVec 72

/-- The address of a general register: 128 of them (R22). -/
abbrev RegAddr := BitVec 7

end Sys2Proof
end

