-- ==== Sys2Proof/Machine/Arith.lean ====
section
/-! DEFINITION. Ones' complement arithmetic on n bits (00_scope.md R13), sign-and-magnitude multiplication and division
(43_multiply_divide.md R150), and the parts of a word (20_memory.md R51). -/

namespace Sys2Proof.Machine

/-- `neg_n(v) = v XOR ONES_n` (R13). -/
def onesNeg {n : Nat} (v : BitVec n) : BitVec n := v ^^^ BitVec.allOnes n

/-- `mag_n(v)` (R13). -/
def onesMag {n : Nat} (v : BitVec n) : BitVec n := if v.msb then onesNeg v else v

/-- `iszero_n(v)`: +0 or -0 (R13). -/
def onesIsZero {n : Nat} (v : BitVec n) : Bool := v == 0#n || v == BitVec.allOnes n

/-- `sval_n(v)`, the integer value; both zeros give 0 (R13). -/
def onesVal {n : Nat} (v : BitVec n) : Int := if v.msb then -((onesNeg v).toNat : Int) else (v.toNat : Int)

/-- `ord_n(v)`, the ordering key: -0 gives -1 and +0 gives 0 (R13). -/
def ordKey {n : Nat} (v : BitVec n) : Int := if v.msb then (v.toNat : Int) - 2 ^ n else (v.toNat : Int)

/-- `add_n(a, b)`: the carry out comes round, and a sum of all ones becomes +0 unless both addends are -0 (R13). -/
def onesAdd {n : Nat} (a b : BitVec n) : BitVec n :=
  let t := a.toNat + b.toNat
  let s := BitVec.ofNat n (t + t / 2 ^ n)
  if s = BitVec.allOnes n ∧ ¬(a = BitVec.allOnes n ∧ b = BitVec.allOnes n) then 0#n else s

/-- `sub_n(a, b)` (R13). -/
def onesSub {n : Nat} (a b : BitVec n) : BitVec n := onesAdd a (onesNeg b)

/-- `signed_n(s, m)`: the magnitude m with the sign s (R150); -0 when m = 0 and s. -/
def withSign {n : Nat} (s : Bool) (m : BitVec n) : BitVec n := if s then onesNeg m else m

/-- `popcount_36` (R195): the number of 1 bits. -/
def popcount (w : Word) : Nat := ((List.range 36).filter fun k => w.getLsbD k).length

/-! ### Parts of a word (R51) -/

/-- H1, bits 35:18: the increment of an index register (R24). -/
def highHalf (w : Word) : BitVec 18 := w.extractLsb' 18 18

/-- H2, bits 17:0: the modifier of an index register (R24). -/
def lowHalf (w : Word) : BitVec 18 := w.extractLsb' 0 18

/-- H1 and H2 side by side. -/
def ofHalves (h1 h2 : BitVec 18) : Word := h1 ++ h2

/-- T1, T2 and T3 side by side. -/
def ofThirds (t1 t2 t3 : BitVec 12) : Word := t1 ++ t2 ++ t3

/-- T1, bits 35:24. -/
def third1 (w : Word) : BitVec 12 := w.extractLsb' 24 12

/-- T2, bits 23:12. -/
def third2 (w : Word) : BitVec 12 := w.extractLsb' 12 12

/-- T3, bits 11:0. -/
def third3 (w : Word) : BitVec 12 := w.extractLsb' 0 12

/-- The more significant word of a double word. -/
def upperWord (d : DWord) : Word := d.extractLsb' 36 36

/-- The less significant word of a double word. -/
def lowerWord (d : DWord) : Word := d.extractLsb' 0 36

/-- Two words side by side, the first the more significant (R15, R51). -/
def ofWords (hi lo : Word) : DWord := hi ++ lo

/-! ### Halves and thirds one by one (R243 to R246) -/

/-- Two independent 18-bit additions. -/
def addHalves (w v : Word) : Word :=
  ofHalves (onesAdd (highHalf w) (highHalf v)) (onesAdd (lowHalf w) (lowHalf v))

/-- Two independent 18-bit subtractions. -/
def subHalves (w v : Word) : Word :=
  ofHalves (onesSub (highHalf w) (highHalf v)) (onesSub (lowHalf w) (lowHalf v))

/-- Three independent 12-bit additions. -/
def addThirds (w v : Word) : Word :=
  ofThirds (onesAdd (third1 w) (third1 v)) (onesAdd (third2 w) (third2 v)) (onesAdd (third3 w) (third3 v))

/-- Three independent 12-bit subtractions. -/
def subThirds (w v : Word) : Word :=
  ofThirds (onesSub (third1 w) (third1 v)) (onesSub (third2 w) (third2 v)) (onesSub (third3 w) (third3 v))

/-! ### Multiplication and division (R150 to R156) -/

/-- The 72-bit product in sign and magnitude (R151). -/
def product (w v : Word) : DWord :=
  withSign (w.msb ^^ v.msb) (BitVec.ofNat 72 ((onesMag w).toNat * (onesMag v).toNat))

/-- Quotient and remainder of the magnitude `n` with dividend sign `s` by the divisor `v`; none is the divide fault: a
zero divisor or a quotient of more than 35 bits (R154, R155, R156). -/
def quotRem (s : Bool) (n : Nat) (v : Word) : Option (Word × Word) :=
  let d := (onesMag v).toNat
  if onesIsZero v ∨ 2 ^ 35 ≤ n / d then none
  else some (withSign (s ^^ v.msb) (BitVec.ofNat 36 (n / d)), withSign s (BitVec.ofNat 36 (n % d)))

end Sys2Proof.Machine
end

