-- ==== Sys2Proof/Config.lean ====
section
/-! DEFINITION. The implementation parameters of 00_scope.md R9: those a launch chooses, as plain data held
in the state (log 23), and the open function `F05_SKIP`, an opaque constant (log 9). -/

namespace Sys2Proof

/-- `MODEL` (R9): the member of the series. `m1110` stands for the 1110 and the 1100/40. -/
inductive Model where
  | m1100_20
  | m1110
deriving DecidableEq, Repr

/-- The parameters a launch fixes for the whole run (R9, R37, R291). -/
structure Config where
  /-- `MODEL`. -/
  model : Model
  /-- `QWMODE`, the quarter-word designator (R30). -/
  qwMode : Bool
  /-- `MEM_WORDS`: the addresses `0 .. memWords - 1` exist; at most `2^18`. -/
  memWords : Nat
  /-- `START`, the value of P at launch. -/
  start : Addr
  /-- `END`, the address at which a run is over (R292). -/
  endAddr : Addr
deriving DecidableEq, Repr

/-- `F05_SKIP(a, old, new)` (R9, R119): whether INC, DEC, INC2, DEC2, ENZ skip the next instruction. The spec
leaves it open, so it has no body: a free value (DESIGN CHOICE, log 9; safe). -/
opaque Config.f05Skip (a : BitVec 4) (old new : Word) : Bool

/-- `INT_INVALID`, the location of the invalid-code interrupt (R9, R260): octal 241. -/
def Config.intInvalid : Addr := 0o241#18

/-- The parameters `State.reset` is launched with. `MODEL = 1100/20` is the spec's setting (D1); the others are
OPEN and hold the values the spec's vectors and programs use (DESIGN CHOICE, logs 4, 5, 6, 8; unsafe). -/
def Config.launch : Config where
  model := .m1100_20
  qwMode := false
  memWords := 2 ^ 18
  start := 0o1000#18
  endAddr := 0o1007#18

/-- What a word of main storage that nothing has written reads as. R38 leaves it unspecified
(DESIGN CHOICE, log 2; unsafe). -/
def Config.unwrittenWord : Word := 0#36

/-- An indirect chain or a chain of EX that has not ended after this many links never ends (DEDUCED, logs 12 and
13; safe): between two links only x, h, i, u (22 bits) and the 16 modifiers (18 bits each) can differ, so a longer
chain has come back to a state it was in. -/
def Config.chainBound : Nat := 2 ^ 22 * (2 ^ 18) ^ 16

end Sys2Proof
end

