-- ==== Sys2Proof/Machine/State.lean ====
section
/-! DEFINITION. The state of the machine as plain data (10_state.md R37), the events it can end a step with, and the
state after a launch (R38, R290). -/

namespace Sys2Proof.Machine

/-- Main storage (R35): the words that differ from an unwritten one, as (address, word) pairs with addresses strictly
rising (log 1). -/
structure Memory where
  cells : List (Nat × Word)
deriving DecidableEq, Repr

/-- The state: `(GRS, Mem, P)` of R37 and the parameters the launch fixed (log 23). -/
structure State where
  /-- `GRS[0 .. 0o177]` (R22). -/
  grs : Vector Word 128
  /-- `Mem`, main storage (R35). -/
  mem : Memory
  /-- `P`, the address of the instruction being executed (R27). -/
  p : Addr
  /-- `MODEL`, `QWMODE`, `MEM_WORDS`, `START`, `END` (R9, R37): no step changes them. -/
  cfg : Config
deriving DecidableEq, Repr

/-- The kind of access a storage fault records (R265). -/
inductive AccessKind where
  | fetch
  | indirectWord
  | operandRead
  | operandWrite
  | sljWord
  | exWord
deriving DecidableEq, Repr

/-- The four interrupts of 60_exceptions.md section 2, each with its recorded values. P is recorded in the state that
goes with it (`Fault.interrupt`). -/
inductive Event where
  /-- `InvalidCode(f, j, a)` with the whole instruction word (R260): raised by decoding any word whose code is not
  listed, and by the `1110` lines on the 1100/20 (R261). -/
  | invalidCode (f : BitVec 6) (j a : BitVec 4) (word : Word)
  /-- `ExecutiveRequest(U)` (R262): raised by ER. -/
  | executiveRequest (u : Addr)
  /-- `DivideFault` with the instruction word (R264): raised by DI, DSF, DF. -/
  | divideFault (word : Word)
  /-- `StorageFault(addr)` with the kind of access (R265): raised by any access to main storage at or beyond
  `MEM_WORDS`. -/
  | storageFault (addr : Addr) (kind : AccessKind)
deriving DecidableEq, Repr

/-- What stops the machine (R10 `raise`, and `stuck` of 93_implementation_defined.md V11). -/
inductive Fault where
  /-- An interrupt was taken: the run ends, and the host receives the event and the state as it was when the event was
  raised, P included (R266, R269; log 10). Raised by whatever raises the event. Safe: a `raise` is terminal in the
  spec. -/
  | interrupt (event : Event) (state : State)
  /-- An indirect chain that never ends: the step has no result (R92, V11; log 12). Raised by the formation of an
  effective address. Safe: the spec gives no next state. -/
  | endlessIndirection
  /-- A chain of EX that never ends: the step has no result (R247, V11; log 13). Raised by EX. Safe: the spec gives no
  next state. -/
  | endlessExecution
deriving DecidableEq, Repr

/-- The spec's `refuse(reason)` (R10, R277): the spec gives no meaning, and the run is unmodelled from here. Each of the
spec's reasons carries the state the host is left with (R279; log 11). All are safe: a refusal answers no next state. -/
inductive Refusal where
  /-- An instruction with no meaning yet, by its mnemonic; raised by an arm of `exec` alone. Safe. -/
  | notModelled (mnemonic : String)
  /-- "no semantics in the source": LDJ, LIJ, LPD (R121 to R123), SRS, LRS (R249, R250). Safe. -/
  | noSemanticsInSource (mnemonic : String) (state : State)
  /-- "f=07 j=17 is both SPD and LBJ in the source": SPD, LBJ (R85, R124, R125). Safe. -/
  | spdOrLbj (state : State)
  /-- "1110 byte instruction: no semantics in the source": the 23 instructions of f = 33, 37 with `MODEL = 1110`
  (R160). Safe. -/
  | byteInstructionOf1110 (state : State)
  /-- "partial word of a GRS register" (R56, R94, R95, R119, R141): any operand access with j = 01 to 15. Safe. -/
  | partialWordOfRegister (state : State)
  /-- "double word across the GRS boundary" (R56, R66): a double-word operand at 0o177. Safe. -/
  | doubleWordAcrossGrs (state : State)
  /-- "indirect word at a GRS address" (R92): the formation of an effective address. Safe. -/
  | indirectWordAtGrs (state : State)
  /-- "indirect addressing on a repeated instruction" (R93, R141, R212): BT and the searches with i = 1. Safe. -/
  | indirectOnRepeated (state : State)
  /-- "immediate operand with x != 0 and i = 1" (R91): an operand with j = 16, 17. Safe. -/
  | immediateIndexedIndirect (state : State)
  /-- "store with an immediate designator" (R95, R118, R119): the f = 05 instructions with j = 16, 17. Safe. -/
  | storeToImmediate (state : State)
  /-- "index incrementation of the instruction's own register" (R97). Safe. -/
  | ownIndexIncrement (state : State)
deriving DecidableEq, Repr

/-- What an operation answers (R10): a value and the state after it, an interrupt or a stuck chain, or a refusal. -/
inductive Res (α : Type) where
  | ok (v : α) (s : State)
  | raised (f : Fault)
  | refused (r : Refusal)
deriving Repr

/-- The machine at a launch that loads nothing (R38, R290): `P = START`, the registers and the storage unspecified by
the spec and zero here (DESIGN CHOICE, logs 2 and 3; unsafe). -/
def State.reset : State where
  grs := Vector.replicate 128 0#36
  mem := ⟨[]⟩
  p := Config.launch.start
  cfg := Config.launch

end Sys2Proof.Machine
end

