-- ==== Sys2Proof/Machine/Ops.lean ====
section
/-! DEFINITION. The named operations over registers, main storage and P, the taking of an interrupt, and the way the
parts of a step are put together. -/

namespace Sys2Proof.Machine

/-- The outcome of a step (R10): next, a fault (`raise`, or stuck), a refusal. -/
abbrev Answer := Host.Outcome State Fault Refusal

/-! ### Putting operations together -/

/-- The second operation on the value and the state of the first; an interrupt or a refusal ends the step (R16). -/
def Res.bind {α β : Type} (r : Res α) (k : α → State → Res β) : Res β :=
  match r with
  | .ok v s => k v s
  | .raised f => .raised f
  | .refused f => .refused f

/-- The outcome of a step that goes on as `k` says. -/
def Res.andThen {α : Type} (r : Res α) (k : α → State → Answer) : Answer :=
  match r with
  | .ok v s => k v s
  | .raised f => .fault f
  | .refused f => .refused f

/-- The outcome of a step whose last part only makes the next state. -/
def Res.toNext {α : Type} (r : Res α) (k : α → State → State) : Answer :=
  r.andThen fun v s => .next (k v s)

/-! ### Interrupts (60_exceptions.md R266) -/

/-- Taking an interrupt: the run ends and the host receives the event, its recorded values and the state as it is now,
P being the address of the instruction (of the EX, for an instruction run by EX). Nothing is saved elsewhere, and
nothing returns (R266, R268, R269; log 10). -/
def takeInterrupt (e : Event) (s : State) : Fault := .interrupt e s

/-- The location an event interrupts through: the source gives one, of the invalid code (R260, R276). -/
def Event.location (e : Event) : Option Addr :=
  match e with
  | .invalidCode _ _ _ _ => some Config.intInvalid
  | .executiveRequest _ => none
  | .divideFault _ => none
  | .storageFault _ _ => none

/-- What a host that goes on after an executive request does by its own convention: a new run from the state it
received, P one further (R268). No rule of the spec, and no step of the machine. -/
def hostContinue (s : State) : State := { s with p := s.p + 1 }

/-! ### General registers (10_state.md R22 to R25) -/

/-- `GRS[r]`. Every register is readable (R22). -/
def State.reg (s : State) (r : RegAddr) : Word := s.grs[r.toNat]'r.isLt

/-- `GRS[r] <- v`. Every register is writable, and none is hardwired (R22). -/
def State.setReg (s : State) (r : RegAddr) (v : Word) : State := { s with grs := s.grs.set r.toNat v r.isLt }

/-- `X[k] = GRS[k]` (R24). -/
def xReg (k : BitVec 4) : RegAddr := k.setWidth 7

/-- `A[a] = GRS[0o14 + a]` (R23). -/
def aReg (a : BitVec 4) : RegAddr := 0o14#7 + a.setWidth 7

/-- `A[a+1] = GRS[0o15 + a]`: there is no wrap from A15 to A0 (R23). -/
def aReg1 (a : BitVec 4) : RegAddr := 0o15#7 + a.setWidth 7

/-- `R[k] = GRS[0o100 + k]` (R25). -/
def rReg (k : BitVec 4) : RegAddr := 0o100#7 + k.setWidth 7

/-- `Xm(k)`, the modifier (R24). -/
def State.modifier (s : State) (k : BitVec 4) : BitVec 18 := lowHalf (s.reg (xReg k))

/-- `Xi(k)`, the increment (R24). -/
def State.increment (s : State) (k : BitVec 4) : BitVec 18 := highHalf (s.reg (xReg k))

/-- `X[k][17:0] <- add_18(Xm(k), Xi(k))`, the increment half unchanged (R92). -/
def State.bumpIndex (s : State) (k : BitVec 4) : State :=
  s.setReg (xReg k) (ofHalves (s.increment k) (onesAdd (s.modifier k) (s.increment k)))

/-- `R[1][17:0]`, the repeat count (R25). -/
def State.repeatCount (s : State) : BitVec 18 := lowHalf (s.reg (rReg 1))

/-- `R[1][17:0] <- k`, the upper half unchanged (R212). -/
def State.setRepeatCount (s : State) (k : BitVec 18) : State :=
  s.setReg (rReg 1) (ofHalves (highHalf (s.reg (rReg 1))) k)

/-- `R[2]`, the mask (R25). -/
def State.mask (s : State) : Word := s.reg (rReg 2)

/-- `A[a] ++ A[a+1]` (R150, R239). -/
def State.pair (s : State) (a : BitVec 4) : DWord := ofWords (s.reg (aReg a)) (s.reg (aReg1 a))

/-- `A[a] <- d[71:36]; A[a+1] <- d[35:0]`. -/
def State.setPair (s : State) (a : BitVec 4) (d : DWord) : State :=
  (s.setReg (aReg a) (upperWord d)).setReg (aReg1 a) (lowerWord d)

/-! ### The program address (R27) -/

/-- `P <- (P + 1) mod 2^18`. -/
def State.advance (s : State) : State := { s with p := s.p + 1 }

/-- `P <- (P + 2) mod 2^18`. -/
def State.skip (s : State) : State := { s with p := s.p + 2 }

/-- `P <- U`. -/
def State.jump (s : State) (u : Addr) : State := { s with p := u }

/-- `Skip(c)` (45_logical.md R190). -/
def State.skipIf (s : State) (c : Bool) : State := if c then s.skip else s.advance

/-- A conditional jump: `P <- U` or the next instruction. -/
def State.jumpIf (s : State) (c : Bool) (u : Addr) : State := if c then s.jump u else s.advance

/-! ### Main storage (20_memory.md R50, R58) -/

/-- The word at an address of a list of cells; an unlisted address reads as an unwritten word (log 2). -/
def readCells : List (Nat × Word) → Nat → Word
  | [], _ => Config.unwrittenWord
  | (b, w) :: rest, a => if a = b then w else readCells rest a

/-- The cell of a word in front of the later cells: no cell for an unwritten word. -/
def consCell (a : Nat) (v : Word) (rest : List (Nat × Word)) : List (Nat × Word) :=
  if v = Config.unwrittenWord then rest else (a, v) :: rest

/-- The cells after a word is written, in the canonical form. -/
def writeCells : List (Nat × Word) → Nat → Word → List (Nat × Word)
  | [], a, v => consCell a v []
  | (b, w) :: rest, a, v =>
    if a < b then consCell a v ((b, w) :: rest)
    else if a = b then consCell a v rest
    else (b, w) :: writeCells rest a v

/-- `Mem[a]`. -/
def Memory.read (m : Memory) (a : Nat) : Word := readCells m.cells a

/-- `Mem[a] <- v`. -/
def Memory.write (m : Memory) (a : Nat) (v : Word) : Memory := ⟨writeCells m.cells a v⟩

/-- The canonical form: addresses strictly rising and no cell that holds an unwritten word, so that equal storages are
equal data (log 1). -/
abbrev Memory.wf (m : Memory) : Prop :=
  m.cells.Pairwise (fun c d => c.1 < d.1) ∧ ∀ c ∈ m.cells, c.2 ≠ Config.unwrittenWord

/-- The address exists (R58). -/
def State.hasWord (s : State) (u : Addr) : Bool := u.toNat < s.cfg.memWords

/-- `raise StorageFault(addr)` with the kind of access (R265). -/
def storageFault (kind : AccessKind) (u : Addr) (s : State) : Fault :=
  takeInterrupt (.storageFault u kind) s

/-- `MemRead(U, 1)` (R58). -/
def memRead (kind : AccessKind) (u : Addr) (s : State) : Res Word :=
  if s.hasWord u then .ok (s.mem.read u.toNat) s else .raised (storageFault kind u s)

/-- `Mem[U] <- v` at an address that exists. -/
def State.setWord (s : State) (u : Addr) (v : Word) : State := { s with mem := s.mem.write u.toNat v }

/-- `MemWrite(U, 1, v)` (R58). -/
def memWrite (kind : AccessKind) (u : Addr) (v : Word) (s : State) : Res Unit :=
  if s.hasWord u then .ok () (s.setWord u v) else .raised (storageFault kind u s)

/-- `MemRead(U, 2)`: the words at U and (U + 1) mod 2^18 (R52, R58; log 18). -/
def memRead2 (kind : AccessKind) (u : Addr) (s : State) : Res DWord :=
  (memRead kind u s).bind fun hi s1 => (memRead kind (u + 1) s1).bind fun lo s2 => .ok (ofWords hi lo) s2

/-- `MemWrite(U, 2, v)`: both addresses are checked before either word is written (R58). -/
def memWrite2 (kind : AccessKind) (u : Addr) (v : DWord) (s : State) : Res Unit :=
  if s.hasWord u then
    if s.hasWord (u + 1) then .ok () ((s.setWord u (upperWord v)).setWord (u + 1) (lowerWord v))
    else .raised (storageFault kind (u + 1) s)
  else .raised (storageFault kind u s)

/-! ### Operand accesses: registers below 0o200 (R56, R66) -/

/-- `U < 0o200`: the address names `GRS[U]` as an operand. -/
def isRegAddr (u : Addr) : Bool := u.toNat < 0o200

/-- `OpRead(U)` (R56). -/
def opRead (u : Addr) (s : State) : Res Word :=
  if isRegAddr u then .ok (s.reg (u.setWidth 7)) s else memRead .operandRead u s

/-- `OpWrite(U, v)` (R56). -/
def opWrite (u : Addr) (v : Word) (s : State) : Res Unit :=
  if isRegAddr u then .ok () (s.setReg (u.setWidth 7) v) else memWrite .operandWrite u v s

/-- `OpRead2(U)` (R66). -/
def opRead2 (u : Addr) (s : State) : Res DWord :=
  if u.toNat < 0o177 then .ok (ofWords (s.reg (u.setWidth 7)) (s.reg ((u + 1).setWidth 7))) s
  else if u.toNat = 0o177 then .refused (.doubleWordAcrossGrs s)
  else memRead2 .operandRead u s

/-- `OpWrite2(U, v)` (R66). -/
def opWrite2 (u : Addr) (v : DWord) (s : State) : Res Unit :=
  if u.toNat < 0o177 then
    .ok () ((s.setReg (u.setWidth 7) (upperWord v)).setReg ((u + 1).setWidth 7) (lowerWord v))
  else if u.toNat = 0o177 then .refused (.doubleWordAcrossGrs s)
  else memWrite2 .operandWrite u v s

/-! ### Instruction fetch (60_exceptions.md R279) -/

/-- The word at P, always of main storage. -/
def fetch (s : State) : Res Word := memRead .fetch s.p s

/-- The state with `w` loaded at P (R291): the storage is widened when P lies outside it, so that the word can be
fetched (log 21). -/
def placeWord (s : State) (w : Word) : State :=
  let s1 := s.setWord s.p w
  { s1 with cfg := { s1.cfg with memWords := max s1.cfg.memWords (s1.p.toNat + 1) } }

end Sys2Proof.Machine
end

