-- ==== Sys2Proof/Syntax.lean ====
section
/-! DEFINITION. The instructions: one constructor for each of the 119 rows of spec/opcode_table.json
(30_encoding.md R84), with every field of the word that the row leaves open (R79, R80). -/

namespace Sys2Proof

/-- The low 22 bits of an instruction word and of an indirect word (R80, R92): index designator `x`, index
incrementation `h`, indirect addressing `i`, address or operand field `u`. -/
structure Xhiu where
  x : BitVec 4
  h : Bool
  i : Bool
  u : BitVec 16
deriving DecidableEq, Repr

/-- The instructions, in the source's order within each f. The fields are `j` (partial word, or half of JGD's
register address), `a` (register designator, where it does not select the instruction) and the rest `m`.
`at_` is AT: `at` is a word of Lean. -/
inductive Instr where
  -- Stores, f = 01 to 06
  /-- SA, "Store A" (R101). -/
  | sa (j a : BitVec 4) (m : Xhiu)
  /-- SNA, "Store Negative A" (R102). -/
  | sna (j a : BitVec 4) (m : Xhiu)
  /-- SMA, "Store Magnitude A" (R103). -/
  | sma (j a : BitVec 4) (m : Xhiu)
  /-- SR, "Store R" (R104). -/
  | sr (j a : BitVec 4) (m : Xhiu)
  /-- SZ, "Store Zero" (R105). -/
  | sz (j : BitVec 4) (m : Xhiu)
  /-- SNZ, "Store Negative Zero" (R106). -/
  | snz (j : BitVec 4) (m : Xhiu)
  /-- SP1, "Store Positive One" (R107). -/
  | sp1 (j : BitVec 4) (m : Xhiu)
  /-- SN1, "Store Negative One" (R108). -/
  | sn1 (j : BitVec 4) (m : Xhiu)
  /-- SFS, "Store Fieldata Spaces" (R109). -/
  | sfs (j : BitVec 4) (m : Xhiu)
  /-- SFZ, "Store Fieldata Zeros" (R110). -/
  | sfz (j : BitVec 4) (m : Xhiu)
  /-- SAS, "Store ASCII Spaces" (R111). -/
  | sas (j : BitVec 4) (m : Xhiu)
  /-- INC, "Increase Operand By One" (R112). -/
  | inc (j : BitVec 4) (m : Xhiu)
  /-- DEC, "Decrease Operand By One" (R113). -/
  | dec (j : BitVec 4) (m : Xhiu)
  /-- INC2, "Increase Operand By Two" (R114). -/
  | inc2 (j : BitVec 4) (m : Xhiu)
  /-- DEC2, "Decrease Operand By Two" (R115). -/
  | dec2 (j : BitVec 4) (m : Xhiu)
  /-- ENZ, "Increase Operand By Zero" (R116). -/
  | enz (j a : BitVec 4) (m : Xhiu)
  /-- SX, "Store X" (R117). -/
  | sx (j a : BitVec 4) (m : Xhiu)
  -- Bank and PSR, f = 07
  /-- LDJ, "Load D-Bank Base and Jump" (R121). -/
  | ldj (a : BitVec 4) (m : Xhiu)
  /-- LIJ, "Load I-Bank Base and Jump" (R122). -/
  | lij (a : BitVec 4) (m : Xhiu)
  /-- LPD, "Load PSR Designators" (R123). -/
  | lpd (a : BitVec 4) (m : Xhiu)
  /-- SPD, "Store PSR Designators" (R124). -/
  | spd (a : BitVec 4) (m : Xhiu)
  /-- LBJ, "Load Bank and Jump" (R125). -/
  | lbj (a : BitVec 4) (m : Xhiu)
  -- Loads and adds, f = 10 to 27
  /-- LA, "Load A" (R131). -/
  | la (j a : BitVec 4) (m : Xhiu)
  /-- LNA, "Load Negative A" (R132). -/
  | lna (j a : BitVec 4) (m : Xhiu)
  /-- LMA, "Load Magnitude A" (R133). -/
  | lma (j a : BitVec 4) (m : Xhiu)
  /-- LNMA, "Load Negative Magnitude A" (R134). -/
  | lnma (j a : BitVec 4) (m : Xhiu)
  /-- AA, "Add to A" (R135). -/
  | aa (j a : BitVec 4) (m : Xhiu)
  /-- ANA, "Add Negative to A" (R136). -/
  | ana (j a : BitVec 4) (m : Xhiu)
  /-- AMA, "Add Magnitude to A" (R137). -/
  | ama (j a : BitVec 4) (m : Xhiu)
  /-- ANMA, "Add Negative Magnitude to A" (R138). -/
  | anma (j a : BitVec 4) (m : Xhiu)
  /-- AU, "Add Upper" (R139). -/
  | au (j a : BitVec 4) (m : Xhiu)
  /-- ANU, "Add Negative Upper" (R140). -/
  | anu (j a : BitVec 4) (m : Xhiu)
  /-- BT, "Block Transfer" (R141). -/
  | bt (j a : BitVec 4) (m : Xhiu)
  /-- LR, "Load Register" (R142). -/
  | lr (j a : BitVec 4) (m : Xhiu)
  /-- AX, "Add to X" (R143). -/
  | ax (j a : BitVec 4) (m : Xhiu)
  /-- ANX, "Add Negative to X" (R144). -/
  | anx (j a : BitVec 4) (m : Xhiu)
  /-- LXM, "Load X Modifier" (R145). -/
  | lxm (j a : BitVec 4) (m : Xhiu)
  /-- LX, "Load X" (R146). -/
  | lx (j a : BitVec 4) (m : Xhiu)
  -- Multiply and divide, f = 30, 31, 32, 34, 35, 36
  /-- MI, "Multiply Integer" (R151). -/
  | mi (j a : BitVec 4) (m : Xhiu)
  /-- MSI, "Multiply Single Integer" (R152). -/
  | msi (j a : BitVec 4) (m : Xhiu)
  /-- MF, "Multiply Fractional" (R153). -/
  | mf (j a : BitVec 4) (m : Xhiu)
  -- Byte and conversion (flag 1110), f = 33, 37
  /-- BM, "Byte Move" (R161). -/
  | bm (a : BitVec 4) (m : Xhiu)
  /-- BMT, "Byte Move With Translate" (R162). -/
  | bmt (a : BitVec 4) (m : Xhiu)
  /-- BTC, "Byte Translate and Compare" (R163). -/
  | btc (a : BitVec 4) (m : Xhiu)
  /-- BC, "Byte Compare" (R164). -/
  | bc (a : BitVec 4) (m : Xhiu)
  /-- BPD, "Byte to Packed Decimal Convert" (R165). -/
  | bpd (a : BitVec 4) (m : Xhiu)
  /-- PDB, "Packed Decimal to Byte Convert" (R166). -/
  | pdb (a : BitVec 4) (m : Xhiu)
  /-- EDIT, "Edit" (R167). -/
  | edit (a : BitVec 4) (m : Xhiu)
  /-- BI, "Byte to Binary Single Integer Convert" (R168). -/
  | bi (a : BitVec 4) (m : Xhiu)
  /-- BDI, "Byte to Binary Double Integer Convert" (R169). -/
  | bdi (a : BitVec 4) (m : Xhiu)
  /-- IB, "Binary Single Integer to Byte Convert" (R170). -/
  | ib (a : BitVec 4) (m : Xhiu)
  /-- DIB, "Binary Double Integer to Byte Convert" (R171). -/
  | dib (a : BitVec 4) (m : Xhiu)
  /-- BF, "Byte to Single Floating Convert" (R172). -/
  | bf (a : BitVec 4) (m : Xhiu)
  /-- BDF, "Byte to Double Floating Convert" (R173). -/
  | bdf (a : BitVec 4) (m : Xhiu)
  /-- FB, "Single Floating to Byte Convert" (R174). -/
  | fb (a : BitVec 4) (m : Xhiu)
  /-- DFB, "Double Floating to Byte Convert" (R175). -/
  | dfb (a : BitVec 4) (m : Xhiu)
  -- Multiply and divide, f = 30, 31, 32, 34, 35, 36
  /-- DI, "Divide Integer" (R154). -/
  | di (j a : BitVec 4) (m : Xhiu)
  /-- DSF, "Divide Single Fractional" (R155). -/
  | dsf (j a : BitVec 4) (m : Xhiu)
  /-- DF, "Divide Fractional" (R156). -/
  | df (j a : BitVec 4) (m : Xhiu)
  -- Byte and conversion (flag 1110), f = 33, 37
  /-- QB, "Quarter-Word Byte to Binary Compress" (R176). -/
  | qb (a : BitVec 4) (m : Xhiu)
  /-- BQ, "Binary to Quarter-Word Byte Extend" (R177). -/
  | bq (a : BitVec 4) (m : Xhiu)
  /-- QBH, "Quarter-Word Byte to Binary Halves Compress" (R178). -/
  | qbh (a : BitVec 4) (m : Xhiu)
  /-- BQH, "Binary Halves to Quarter-Word Byte Extend" (R179). -/
  | bqh (a : BitVec 4) (m : Xhiu)
  /-- QDB, "Quarter-Word Byte to Double Binary Compress" (R180). -/
  | qdb (a : BitVec 4) (m : Xhiu)
  /-- DBQ, "Double Binary to Quarter-Word Byte Extend" (R181). -/
  | dbq (a : BitVec 4) (m : Xhiu)
  /-- BA, "Byte Add" (R182). -/
  | ba (a : BitVec 4) (m : Xhiu)
  /-- BAN, "Byte Add Negative" (R183). -/
  | ban (a : BitVec 4) (m : Xhiu)
  -- Logical, parity and index, f = 40 to 47
  /-- OR, "Logical OR" (R191). -/
  | or (j a : BitVec 4) (m : Xhiu)
  /-- XOR, "Logical Exclsive OR" (R192). -/
  | xor (j a : BitVec 4) (m : Xhiu)
  /-- AND, "Logical AND" (R193). -/
  | and (j a : BitVec 4) (m : Xhiu)
  /-- MLU, "Masked Load Upper" (R194). -/
  | mlu (j a : BitVec 4) (m : Xhiu)
  /-- TEP, "Test Even Parity" (R195). -/
  | tep (j a : BitVec 4) (m : Xhiu)
  /-- TOP, "Test Odd Parity" (R196). -/
  | top (j a : BitVec 4) (m : Xhiu)
  /-- XLI, "Load X Increment" (R197). -/
  | xli (j a : BitVec 4) (m : Xhiu)
  /-- TLEM, "Test Less Than or Equal to Modifier" (R198). -/
  | tlem (j a : BitVec 4) (m : Xhiu)
  -- Tests, f = 50 to 61
  /-- TZ, "Test Zero" (R201). -/
  | tz (j a : BitVec 4) (m : Xhiu)
  /-- TNZ, "Test Nonzero" (R202). -/
  | tnz (j a : BitVec 4) (m : Xhiu)
  /-- TE, "Test Equal" (R203). -/
  | te (j a : BitVec 4) (m : Xhiu)
  /-- TNE, "Test Not Equal" (R204). -/
  | tne (j a : BitVec 4) (m : Xhiu)
  /-- TLE, "Test Less Than or Equal" (R205). -/
  | tle (j a : BitVec 4) (m : Xhiu)
  /-- TG, "Test Greater" (R206). -/
  | tg (j a : BitVec 4) (m : Xhiu)
  /-- TW, "Test Within Range" (R207). -/
  | tw (j a : BitVec 4) (m : Xhiu)
  /-- TNW, "Test Not Within Range" (R208). -/
  | tnw (j a : BitVec 4) (m : Xhiu)
  /-- TP, "Test Positive" (R209). -/
  | tp (j a : BitVec 4) (m : Xhiu)
  /-- TN, "Test Negative" (R210). -/
  | tn (j a : BitVec 4) (m : Xhiu)
  -- Searches, f = 62 to 67, and f = 71 with j = 00 to 07
  /-- SE, "Search Equal" (R213). -/
  | se (j a : BitVec 4) (m : Xhiu)
  /-- SNE, "Search Not Equal" (R214). -/
  | sne (j a : BitVec 4) (m : Xhiu)
  /-- SLE, "Search Less Than or Equal" (R215). -/
  | sle (j a : BitVec 4) (m : Xhiu)
  /-- SG, "Search Greater" (R216). -/
  | sg (j a : BitVec 4) (m : Xhiu)
  /-- SW, "Search Within Range" (R217). -/
  | sw (j a : BitVec 4) (m : Xhiu)
  /-- SNW, "Search Not Within Range" (R218). -/
  | snw (j a : BitVec 4) (m : Xhiu)
  -- JGD, f = 70, and double words, f = 71 with j = 10 to 17
  /-- JGD, "Jump Greater and Decrement" (R230). -/
  | jgd (j a : BitVec 4) (m : Xhiu)
  -- Searches, f = 62 to 67, and f = 71 with j = 00 to 07
  /-- MSE, "Mask Search Equal" (R219). -/
  | mse (a : BitVec 4) (m : Xhiu)
  /-- MSNE, "Mask Search Not Equal" (R220). -/
  | msne (a : BitVec 4) (m : Xhiu)
  /-- MSLE, "Mask Search Less Than or Equal" (R221). -/
  | msle (a : BitVec 4) (m : Xhiu)
  /-- MSG, "Mask Search Greater" (R222). -/
  | msg (a : BitVec 4) (m : Xhiu)
  /-- MSW, "Masked Search Within Range" (R223). -/
  | msw (a : BitVec 4) (m : Xhiu)
  /-- MSNW, "Masked Search Not Within Range" (R224). -/
  | msnw (a : BitVec 4) (m : Xhiu)
  /-- MASL, "Masked Alphanumeric Search Less Than or Equal" (R225). -/
  | masl (a : BitVec 4) (m : Xhiu)
  /-- MASG, "Masked Alphanumeric Search Greater" (R226). -/
  | masg (a : BitVec 4) (m : Xhiu)
  -- JGD, f = 70, and double words, f = 71 with j = 10 to 17
  /-- DA, "Double-Precision Fixed-Point Add" (R231). -/
  | da (a : BitVec 4) (m : Xhiu)
  /-- DAN, "Douple-Precision Fixed-Point Add Negative" (R232). -/
  | dan (a : BitVec 4) (m : Xhiu)
  /-- DS, "Double Store A" (R233). -/
  | ds (a : BitVec 4) (m : Xhiu)
  /-- DL, "Double Load A" (R234). -/
  | dl (a : BitVec 4) (m : Xhiu)
  /-- DLN, "Double Load Negative A" (R235). -/
  | dln (a : BitVec 4) (m : Xhiu)
  /-- DLM, "Double Load Magnitude A" (R236). -/
  | dlm (a : BitVec 4) (m : Xhiu)
  /-- DJZ, "Double-Precision Jump Zero" (R237). -/
  | djz (a : BitVec 4) (m : Xhiu)
  /-- DTE, "Double-Precision Test Equal" (R238). -/
  | dte (a : BitVec 4) (m : Xhiu)
  -- f = 72
  /-- SLJ, "Store Location And Jump" (R240). -/
  | slj (a : BitVec 4) (m : Xhiu)
  /-- JPS, "Jump Positive And Shift" (R241). -/
  | jps (a : BitVec 4) (m : Xhiu)
  /-- JNS, "Jump Negative And Shift" (R242). -/
  | jns (a : BitVec 4) (m : Xhiu)
  /-- AH, "Add Halves" (R243). -/
  | ah (a : BitVec 4) (m : Xhiu)
  /-- ANH, "Add Negative Halves" (R244). -/
  | anh (a : BitVec 4) (m : Xhiu)
  /-- AT, "Add Thirds" (R245). -/
  | at_ (a : BitVec 4) (m : Xhiu)
  /-- ANT, "Add Negative Thirds" (R246). -/
  | ant (a : BitVec 4) (m : Xhiu)
  /-- EX, "Execute" (R247). -/
  | ex (a : BitVec 4) (m : Xhiu)
  /-- ER, "Executive Request" (R248). -/
  | er (a : BitVec 4) (m : Xhiu)
  /-- SRS, "Store Register Set" (R249). -/
  | srs (a : BitVec 4) (m : Xhiu)
  /-- LRS, "Load Register Set" (R250). -/
  | lrs (a : BitVec 4) (m : Xhiu)
deriving DecidableEq, Repr

end Sys2Proof
end

