-- ==== Sys2Proof/Machine/BankPsr.lean ====
section
/-! DEFINITION. Bank and PSR instructions, f = 07 (41_bank_psr.md): the spec decodes them and refuses each (R120). -/

namespace Sys2Proof.Machine

/-- LDJ: `refuse("LDJ: no semantics in the source")` (R121). -/
def execLdj (_a : BitVec 4) (_m : Xhiu) (s : State) : Answer := .refused (.noSemanticsInSource "LDJ" s)

/-- LIJ: `refuse("LIJ: no semantics in the source")` (R122). -/
def execLij (_a : BitVec 4) (_m : Xhiu) (s : State) : Answer := .refused (.noSemanticsInSource "LIJ" s)

/-- LPD: `refuse("LPD: no semantics in the source")` (R123). -/
def execLpd (_a : BitVec 4) (_m : Xhiu) (s : State) : Answer := .refused (.noSemanticsInSource "LPD" s)

/-- SPD: `refuse("f=07 j=17 is both SPD and LBJ in the source")` (R85, R124). -/
def execSpd (_a : BitVec 4) (_m : Xhiu) (s : State) : Answer := .refused (.spdOrLbj s)

/-- LBJ: the same refusal (R125); no word decodes to it. -/
def execLbj (_a : BitVec 4) (_m : Xhiu) (s : State) : Answer := .refused (.spdOrLbj s)

end Sys2Proof.Machine
end

