-- ==== Sys2Proof/Decode.lean ====
section
/-! DEFINITION. The decoder of 30_encoding.md R81, R86, total on every 36-bit word, and the encoder, from the same
field positions (R79, R80) and the map of R84. -/

namespace Sys2Proof

/-! ### Fields of a word (R79, R80) -/

/-- `ins.f = ins[35:30]`. -/
def fieldF (w : Word) : BitVec 6 := w.extractLsb' 30 6

/-- `ins.j = ins[29:26]`. -/
def fieldJ (w : Word) : BitVec 4 := w.extractLsb' 26 4

/-- `ins.a = ins[25:22]`. -/
def fieldA (w : Word) : BitVec 4 := w.extractLsb' 22 4

/-- `ins.x`, `ins.h`, `ins.i`, `ins.u`: bits 21:18, 17, 16 and 15:0, of an instruction or of an indirect word. -/
def xhiuOf (w : Word) : Xhiu where
  x := w.extractLsb' 18 4
  h := w.getLsbD 17
  i := w.getLsbD 16
  u := w.extractLsb' 0 16

/-- The word with the given fields, `f ++ j ++ a ++ x ++ h ++ i ++ u` (R80). -/
def packWord (f : BitVec 6) (j a : BitVec 4) (m : Xhiu) : Word :=
  f ++ j ++ a ++ m.x ++ BitVec.ofBool m.h ++ BitVec.ofBool m.i ++ m.u

/-! ### Decoding (R81, R86) -/

/-- f = 05: a selects the instruction; a = 07 is not listed (R118). -/
def decodeF05 (j a : BitVec 4) (m : Xhiu) : Option Instr :=
  match a.toNat with
  | 0o00 => some (.sz j m)
  | 0o01 => some (.snz j m)
  | 0o02 => some (.sp1 j m)
  | 0o03 => some (.sn1 j m)
  | 0o04 => some (.sfs j m)
  | 0o05 => some (.sfz j m)
  | 0o06 => some (.sas j m)
  | 0o10 => some (.inc j m)
  | 0o11 => some (.dec j m)
  | 0o12 => some (.inc2 j m)
  | 0o13 => some (.dec2 j m)
  | 0o14 => some (.enz j a m)
  | 0o15 => some (.enz j a m)
  | 0o16 => some (.enz j a m)
  | 0o17 => some (.enz j a m)
  | _ => none

/-- f = 07: j selects the instruction (R120). j = 17 is SPD, the first listed of two (R85). -/
def decodeF07 (j a : BitVec 4) (m : Xhiu) : Option Instr :=
  match j.toNat with
  | 0o12 => some (.ldj a m)
  | 0o14 => some (.lij a m)
  | 0o15 => some (.lpd a m)
  | 0o17 => some (.spd a m)
  | _ => none

/-- f = 33: j selects the instruction; j = 02 is not listed (R160). -/
def decodeF33 (j a : BitVec 4) (m : Xhiu) : Option Instr :=
  match j.toNat with
  | 0o00 => some (.bm a m)
  | 0o01 => some (.bmt a m)
  | 0o03 => some (.btc a m)
  | 0o04 => some (.bc a m)
  | 0o05 => some (.bpd a m)
  | 0o06 => some (.pdb a m)
  | 0o07 => some (.edit a m)
  | 0o10 => some (.bi a m)
  | 0o11 => some (.bdi a m)
  | 0o12 => some (.ib a m)
  | 0o13 => some (.dib a m)
  | 0o14 => some (.bf a m)
  | 0o15 => some (.bdf a m)
  | 0o16 => some (.fb a m)
  | 0o17 => some (.dfb a m)
  | _ => none

/-- f = 37: j selects the instruction; j = 10 to 17 are not listed (R86). -/
def decodeF37 (j a : BitVec 4) (m : Xhiu) : Option Instr :=
  match j.toNat with
  | 0o00 => some (.qb a m)
  | 0o01 => some (.bq a m)
  | 0o02 => some (.qbh a m)
  | 0o03 => some (.bqh a m)
  | 0o04 => some (.qdb a m)
  | 0o05 => some (.dbq a m)
  | 0o06 => some (.ba a m)
  | 0o07 => some (.ban a m)
  | _ => none

/-- f = 71: j selects the instruction, and all sixteen are listed (R212, R239). -/
def decodeF71 (j a : BitVec 4) (m : Xhiu) : Option Instr :=
  match j.toNat with
  | 0o00 => some (.mse a m)
  | 0o01 => some (.msne a m)
  | 0o02 => some (.msle a m)
  | 0o03 => some (.msg a m)
  | 0o04 => some (.msw a m)
  | 0o05 => some (.msnw a m)
  | 0o06 => some (.masl a m)
  | 0o07 => some (.masg a m)
  | 0o10 => some (.da a m)
  | 0o11 => some (.dan a m)
  | 0o12 => some (.ds a m)
  | 0o13 => some (.dl a m)
  | 0o14 => some (.dln a m)
  | 0o15 => some (.dlm a m)
  | 0o16 => some (.djz a m)
  | 0o17 => some (.dte a m)
  | _ => none

/-- f = 72: j selects the instruction; j = 00 and 12 to 15 are not listed (R251). -/
def decodeF72 (j a : BitVec 4) (m : Xhiu) : Option Instr :=
  match j.toNat with
  | 0o01 => some (.slj a m)
  | 0o02 => some (.jps a m)
  | 0o03 => some (.jns a m)
  | 0o04 => some (.ah a m)
  | 0o05 => some (.anh a m)
  | 0o06 => some (.at_ a m)
  | 0o07 => some (.ant a m)
  | 0o10 => some (.ex a m)
  | 0o11 => some (.er a m)
  | 0o16 => some (.srs a m)
  | 0o17 => some (.lrs a m)
  | _ => none

/-- The lookup of R86: the instruction that f, j and a select, none for an invalid code. x, h, i and u never take
part in the lookup (R81). -/
def decodeFields (f : BitVec 6) (j a : BitVec 4) (m : Xhiu) : Option Instr :=
  match f.toNat with
  | 0o01 => if j.toNat ≤ 0o15 then some (.sa j a m) else none
  | 0o02 => if j.toNat ≤ 0o15 then some (.sna j a m) else none
  | 0o03 => if j.toNat ≤ 0o15 then some (.sma j a m) else none
  | 0o04 => if j.toNat ≤ 0o15 then some (.sr j a m) else none
  | 0o05 => decodeF05 j a m
  | 0o06 => if j.toNat ≤ 0o15 then some (.sx j a m) else none
  | 0o07 => decodeF07 j a m
  | 0o10 => some (.la j a m)
  | 0o11 => some (.lna j a m)
  | 0o12 => some (.lma j a m)
  | 0o13 => some (.lnma j a m)
  | 0o14 => some (.aa j a m)
  | 0o15 => some (.ana j a m)
  | 0o16 => some (.ama j a m)
  | 0o17 => some (.anma j a m)
  | 0o20 => some (.au j a m)
  | 0o21 => some (.anu j a m)
  | 0o22 => if j.toNat ≤ 0o15 then some (.bt j a m) else none
  | 0o23 => some (.lr j a m)
  | 0o24 => some (.ax j a m)
  | 0o25 => some (.anx j a m)
  | 0o26 => some (.lxm j a m)
  | 0o27 => some (.lx j a m)
  | 0o30 => some (.mi j a m)
  | 0o31 => some (.msi j a m)
  | 0o32 => some (.mf j a m)
  | 0o33 => decodeF33 j a m
  | 0o34 => some (.di j a m)
  | 0o35 => some (.dsf j a m)
  | 0o36 => some (.df j a m)
  | 0o37 => decodeF37 j a m
  | 0o40 => some (.or j a m)
  | 0o41 => some (.xor j a m)
  | 0o42 => some (.and j a m)
  | 0o43 => some (.mlu j a m)
  | 0o44 => some (.tep j a m)
  | 0o45 => some (.top j a m)
  | 0o46 => some (.xli j a m)
  | 0o47 => some (.tlem j a m)
  | 0o50 => some (.tz j a m)
  | 0o51 => some (.tnz j a m)
  | 0o52 => some (.te j a m)
  | 0o53 => some (.tne j a m)
  | 0o54 => some (.tle j a m)
  | 0o55 => some (.tg j a m)
  | 0o56 => some (.tw j a m)
  | 0o57 => some (.tnw j a m)
  | 0o60 => some (.tp j a m)
  | 0o61 => some (.tn j a m)
  | 0o62 => some (.se j a m)
  | 0o63 => some (.sne j a m)
  | 0o64 => some (.sle j a m)
  | 0o65 => some (.sg j a m)
  | 0o66 => some (.sw j a m)
  | 0o67 => some (.snw j a m)
  | 0o70 => some (.jgd j a m)
  | 0o71 => decodeF71 j a m
  | 0o72 => decodeF72 j a m
  | _ => none

/-- Decoding a word (R81): none is an invalid code (R76). -/
def decode (w : Word) : Option Instr :=
  decodeFields (fieldF w) (fieldJ w) (fieldA w) (xhiuOf w)

/-- The instruction the decoder reads from the bits `w` of a table row. The word has 36 bits and bit 0 is its least
significant, in the table's numbering and here; a number that needs more than 36 bits is no word (log 25). -/
def decodeTableWord (_nbits w : Nat) : Option Instr :=
  if w < 2 ^ 36 then decode (BitVec.ofNat 36 w) else none

/-! ### Encoding (R84) -/

/-- The f, j and a columns of an instruction's line (R84), with the instruction's own j and a where the line leaves
them open. -/
def Instr.code : Instr → BitVec 6 × BitVec 4 × BitVec 4
  | .sa j a _ => (0o01#6, j, a)
  | .sna j a _ => (0o02#6, j, a)
  | .sma j a _ => (0o03#6, j, a)
  | .sr j a _ => (0o04#6, j, a)
  | .sz j _ => (0o05#6, j, 0o00#4)
  | .snz j _ => (0o05#6, j, 0o01#4)
  | .sp1 j _ => (0o05#6, j, 0o02#4)
  | .sn1 j _ => (0o05#6, j, 0o03#4)
  | .sfs j _ => (0o05#6, j, 0o04#4)
  | .sfz j _ => (0o05#6, j, 0o05#4)
  | .sas j _ => (0o05#6, j, 0o06#4)
  | .inc j _ => (0o05#6, j, 0o10#4)
  | .dec j _ => (0o05#6, j, 0o11#4)
  | .inc2 j _ => (0o05#6, j, 0o12#4)
  | .dec2 j _ => (0o05#6, j, 0o13#4)
  | .enz j a _ => (0o05#6, j, a)
  | .sx j a _ => (0o06#6, j, a)
  | .ldj a _ => (0o07#6, 0o12#4, a)
  | .lij a _ => (0o07#6, 0o14#4, a)
  | .lpd a _ => (0o07#6, 0o15#4, a)
  | .spd a _ => (0o07#6, 0o17#4, a)
  | .lbj a _ => (0o07#6, 0o17#4, a)
  | .la j a _ => (0o10#6, j, a)
  | .lna j a _ => (0o11#6, j, a)
  | .lma j a _ => (0o12#6, j, a)
  | .lnma j a _ => (0o13#6, j, a)
  | .aa j a _ => (0o14#6, j, a)
  | .ana j a _ => (0o15#6, j, a)
  | .ama j a _ => (0o16#6, j, a)
  | .anma j a _ => (0o17#6, j, a)
  | .au j a _ => (0o20#6, j, a)
  | .anu j a _ => (0o21#6, j, a)
  | .bt j a _ => (0o22#6, j, a)
  | .lr j a _ => (0o23#6, j, a)
  | .ax j a _ => (0o24#6, j, a)
  | .anx j a _ => (0o25#6, j, a)
  | .lxm j a _ => (0o26#6, j, a)
  | .lx j a _ => (0o27#6, j, a)
  | .mi j a _ => (0o30#6, j, a)
  | .msi j a _ => (0o31#6, j, a)
  | .mf j a _ => (0o32#6, j, a)
  | .bm a _ => (0o33#6, 0o00#4, a)
  | .bmt a _ => (0o33#6, 0o01#4, a)
  | .btc a _ => (0o33#6, 0o03#4, a)
  | .bc a _ => (0o33#6, 0o04#4, a)
  | .bpd a _ => (0o33#6, 0o05#4, a)
  | .pdb a _ => (0o33#6, 0o06#4, a)
  | .edit a _ => (0o33#6, 0o07#4, a)
  | .bi a _ => (0o33#6, 0o10#4, a)
  | .bdi a _ => (0o33#6, 0o11#4, a)
  | .ib a _ => (0o33#6, 0o12#4, a)
  | .dib a _ => (0o33#6, 0o13#4, a)
  | .bf a _ => (0o33#6, 0o14#4, a)
  | .bdf a _ => (0o33#6, 0o15#4, a)
  | .fb a _ => (0o33#6, 0o16#4, a)
  | .dfb a _ => (0o33#6, 0o17#4, a)
  | .di j a _ => (0o34#6, j, a)
  | .dsf j a _ => (0o35#6, j, a)
  | .df j a _ => (0o36#6, j, a)
  | .qb a _ => (0o37#6, 0o00#4, a)
  | .bq a _ => (0o37#6, 0o01#4, a)
  | .qbh a _ => (0o37#6, 0o02#4, a)
  | .bqh a _ => (0o37#6, 0o03#4, a)
  | .qdb a _ => (0o37#6, 0o04#4, a)
  | .dbq a _ => (0o37#6, 0o05#4, a)
  | .ba a _ => (0o37#6, 0o06#4, a)
  | .ban a _ => (0o37#6, 0o07#4, a)
  | .or j a _ => (0o40#6, j, a)
  | .xor j a _ => (0o41#6, j, a)
  | .and j a _ => (0o42#6, j, a)
  | .mlu j a _ => (0o43#6, j, a)
  | .tep j a _ => (0o44#6, j, a)
  | .top j a _ => (0o45#6, j, a)
  | .xli j a _ => (0o46#6, j, a)
  | .tlem j a _ => (0o47#6, j, a)
  | .tz j a _ => (0o50#6, j, a)
  | .tnz j a _ => (0o51#6, j, a)
  | .te j a _ => (0o52#6, j, a)
  | .tne j a _ => (0o53#6, j, a)
  | .tle j a _ => (0o54#6, j, a)
  | .tg j a _ => (0o55#6, j, a)
  | .tw j a _ => (0o56#6, j, a)
  | .tnw j a _ => (0o57#6, j, a)
  | .tp j a _ => (0o60#6, j, a)
  | .tn j a _ => (0o61#6, j, a)
  | .se j a _ => (0o62#6, j, a)
  | .sne j a _ => (0o63#6, j, a)
  | .sle j a _ => (0o64#6, j, a)
  | .sg j a _ => (0o65#6, j, a)
  | .sw j a _ => (0o66#6, j, a)
  | .snw j a _ => (0o67#6, j, a)
  | .jgd j a _ => (0o70#6, j, a)
  | .mse a _ => (0o71#6, 0o00#4, a)
  | .msne a _ => (0o71#6, 0o01#4, a)
  | .msle a _ => (0o71#6, 0o02#4, a)
  | .msg a _ => (0o71#6, 0o03#4, a)
  | .msw a _ => (0o71#6, 0o04#4, a)
  | .msnw a _ => (0o71#6, 0o05#4, a)
  | .masl a _ => (0o71#6, 0o06#4, a)
  | .masg a _ => (0o71#6, 0o07#4, a)
  | .da a _ => (0o71#6, 0o10#4, a)
  | .dan a _ => (0o71#6, 0o11#4, a)
  | .ds a _ => (0o71#6, 0o12#4, a)
  | .dl a _ => (0o71#6, 0o13#4, a)
  | .dln a _ => (0o71#6, 0o14#4, a)
  | .dlm a _ => (0o71#6, 0o15#4, a)
  | .djz a _ => (0o71#6, 0o16#4, a)
  | .dte a _ => (0o71#6, 0o17#4, a)
  | .slj a _ => (0o72#6, 0o01#4, a)
  | .jps a _ => (0o72#6, 0o02#4, a)
  | .jns a _ => (0o72#6, 0o03#4, a)
  | .ah a _ => (0o72#6, 0o04#4, a)
  | .anh a _ => (0o72#6, 0o05#4, a)
  | .at_ a _ => (0o72#6, 0o06#4, a)
  | .ant a _ => (0o72#6, 0o07#4, a)
  | .ex a _ => (0o72#6, 0o10#4, a)
  | .er a _ => (0o72#6, 0o11#4, a)
  | .srs a _ => (0o72#6, 0o16#4, a)
  | .lrs a _ => (0o72#6, 0o17#4, a)

/-- The x, h, i and u of an instruction (R80). -/
def Instr.xhiu : Instr → Xhiu
  | .sa _ _ m => m
  | .sna _ _ m => m
  | .sma _ _ m => m
  | .sr _ _ m => m
  | .sz _ m => m
  | .snz _ m => m
  | .sp1 _ m => m
  | .sn1 _ m => m
  | .sfs _ m => m
  | .sfz _ m => m
  | .sas _ m => m
  | .inc _ m => m
  | .dec _ m => m
  | .inc2 _ m => m
  | .dec2 _ m => m
  | .enz _ _ m => m
  | .sx _ _ m => m
  | .ldj _ m => m
  | .lij _ m => m
  | .lpd _ m => m
  | .spd _ m => m
  | .lbj _ m => m
  | .la _ _ m => m
  | .lna _ _ m => m
  | .lma _ _ m => m
  | .lnma _ _ m => m
  | .aa _ _ m => m
  | .ana _ _ m => m
  | .ama _ _ m => m
  | .anma _ _ m => m
  | .au _ _ m => m
  | .anu _ _ m => m
  | .bt _ _ m => m
  | .lr _ _ m => m
  | .ax _ _ m => m
  | .anx _ _ m => m
  | .lxm _ _ m => m
  | .lx _ _ m => m
  | .mi _ _ m => m
  | .msi _ _ m => m
  | .mf _ _ m => m
  | .bm _ m => m
  | .bmt _ m => m
  | .btc _ m => m
  | .bc _ m => m
  | .bpd _ m => m
  | .pdb _ m => m
  | .edit _ m => m
  | .bi _ m => m
  | .bdi _ m => m
  | .ib _ m => m
  | .dib _ m => m
  | .bf _ m => m
  | .bdf _ m => m
  | .fb _ m => m
  | .dfb _ m => m
  | .di _ _ m => m
  | .dsf _ _ m => m
  | .df _ _ m => m
  | .qb _ m => m
  | .bq _ m => m
  | .qbh _ m => m
  | .bqh _ m => m
  | .qdb _ m => m
  | .dbq _ m => m
  | .ba _ m => m
  | .ban _ m => m
  | .or _ _ m => m
  | .xor _ _ m => m
  | .and _ _ m => m
  | .mlu _ _ m => m
  | .tep _ _ m => m
  | .top _ _ m => m
  | .xli _ _ m => m
  | .tlem _ _ m => m
  | .tz _ _ m => m
  | .tnz _ _ m => m
  | .te _ _ m => m
  | .tne _ _ m => m
  | .tle _ _ m => m
  | .tg _ _ m => m
  | .tw _ _ m => m
  | .tnw _ _ m => m
  | .tp _ _ m => m
  | .tn _ _ m => m
  | .se _ _ m => m
  | .sne _ _ m => m
  | .sle _ _ m => m
  | .sg _ _ m => m
  | .sw _ _ m => m
  | .snw _ _ m => m
  | .jgd _ _ m => m
  | .mse _ m => m
  | .msne _ m => m
  | .msle _ m => m
  | .msg _ m => m
  | .msw _ m => m
  | .msnw _ m => m
  | .masl _ m => m
  | .masg _ m => m
  | .da _ m => m
  | .dan _ m => m
  | .ds _ m => m
  | .dl _ m => m
  | .dln _ m => m
  | .dlm _ m => m
  | .djz _ m => m
  | .dte _ m => m
  | .slj _ m => m
  | .jps _ m => m
  | .jns _ m => m
  | .ah _ m => m
  | .anh _ m => m
  | .at_ _ m => m
  | .ant _ m => m
  | .ex _ m => m
  | .er _ m => m
  | .srs _ m => m
  | .lrs _ m => m

/-- The word of an instruction. LBJ's is SPD's (R85, R125). -/
def encode (i : Instr) : Word :=
  packWord i.code.1 i.code.2.1 i.code.2.2 i.xhiu

/-! ### Names (R75, R84, R89) -/

/-- The mnemonic a disassembler prints: the first the source lists (R75). -/
def Instr.mnemonic : Instr → String
  | .sa _ _ _ => "SA"
  | .sna _ _ _ => "SNA"
  | .sma _ _ _ => "SMA"
  | .sr _ _ _ => "SR"
  | .sz _ _ => "SZ"
  | .snz _ _ => "SNZ"
  | .sp1 _ _ => "SP1"
  | .sn1 _ _ => "SN1"
  | .sfs _ _ => "SFS"
  | .sfz _ _ => "SFZ"
  | .sas _ _ => "SAS"
  | .inc _ _ => "INC"
  | .dec _ _ => "DEC"
  | .inc2 _ _ => "INC2"
  | .dec2 _ _ => "DEC2"
  | .enz _ _ _ => "ENZ"
  | .sx _ _ _ => "SX"
  | .ldj _ _ => "LDJ"
  | .lij _ _ => "LIJ"
  | .lpd _ _ => "LPD"
  | .spd _ _ => "SPD"
  | .lbj _ _ => "LBJ"
  | .la _ _ _ => "LA"
  | .lna _ _ _ => "LNA"
  | .lma _ _ _ => "LMA"
  | .lnma _ _ _ => "LNMA"
  | .aa _ _ _ => "AA"
  | .ana _ _ _ => "ANA"
  | .ama _ _ _ => "AMA"
  | .anma _ _ _ => "ANMA"
  | .au _ _ _ => "AU"
  | .anu _ _ _ => "ANU"
  | .bt _ _ _ => "BT"
  | .lr _ _ _ => "LR"
  | .ax _ _ _ => "AX"
  | .anx _ _ _ => "ANX"
  | .lxm _ _ _ => "LXM"
  | .lx _ _ _ => "LX"
  | .mi _ _ _ => "MI"
  | .msi _ _ _ => "MSI"
  | .mf _ _ _ => "MF"
  | .bm _ _ => "BM"
  | .bmt _ _ => "BMT"
  | .btc _ _ => "BTC"
  | .bc _ _ => "BC"
  | .bpd _ _ => "BPD"
  | .pdb _ _ => "PDB"
  | .edit _ _ => "EDIT"
  | .bi _ _ => "BI"
  | .bdi _ _ => "BDI"
  | .ib _ _ => "IB"
  | .dib _ _ => "DIB"
  | .bf _ _ => "BF"
  | .bdf _ _ => "BDF"
  | .fb _ _ => "FB"
  | .dfb _ _ => "DFB"
  | .di _ _ _ => "DI"
  | .dsf _ _ _ => "DSF"
  | .df _ _ _ => "DF"
  | .qb _ _ => "QB"
  | .bq _ _ => "BQ"
  | .qbh _ _ => "QBH"
  | .bqh _ _ => "BQH"
  | .qdb _ _ => "QDB"
  | .dbq _ _ => "DBQ"
  | .ba _ _ => "BA"
  | .ban _ _ => "BAN"
  | .or _ _ _ => "OR"
  | .xor _ _ _ => "XOR"
  | .and _ _ _ => "AND"
  | .mlu _ _ _ => "MLU"
  | .tep _ _ _ => "TEP"
  | .top _ _ _ => "TOP"
  | .xli _ _ _ => "XLI"
  | .tlem _ _ _ => "TLEM"
  | .tz _ _ _ => "TZ"
  | .tnz _ _ _ => "TNZ"
  | .te _ _ _ => "TE"
  | .tne _ _ _ => "TNE"
  | .tle _ _ _ => "TLE"
  | .tg _ _ _ => "TG"
  | .tw _ _ _ => "TW"
  | .tnw _ _ _ => "TNW"
  | .tp _ _ _ => "TP"
  | .tn _ _ _ => "TN"
  | .se _ _ _ => "SE"
  | .sne _ _ _ => "SNE"
  | .sle _ _ _ => "SLE"
  | .sg _ _ _ => "SG"
  | .sw _ _ _ => "SW"
  | .snw _ _ _ => "SNW"
  | .jgd _ _ _ => "JGD"
  | .mse _ _ => "MSE"
  | .msne _ _ => "MSNE"
  | .msle _ _ => "MSLE"
  | .msg _ _ => "MSG"
  | .msw _ _ => "MSW"
  | .msnw _ _ => "MSNW"
  | .masl _ _ => "MASL"
  | .masg _ _ => "MASG"
  | .da _ _ => "DA"
  | .dan _ _ => "DAN"
  | .ds _ _ => "DS"
  | .dl _ _ => "DL"
  | .dln _ _ => "DLN"
  | .dlm _ _ => "DLM"
  | .djz _ _ => "DJZ"
  | .dte _ _ => "DTE"
  | .slj _ _ => "SLJ"
  | .jps _ _ => "JPS"
  | .jns _ _ => "JNS"
  | .ah _ _ => "AH"
  | .anh _ _ => "ANH"
  | .at_ _ _ => "AT"
  | .ant _ _ => "ANT"
  | .ex _ _ => "EX"
  | .er _ _ => "ER"
  | .srs _ _ => "SRS"
  | .lrs _ _ => "LRS"

/-- The further mnemonics an assembler accepts (R75, R89). -/
def Instr.aliases : Instr → List String
  | .sa _ _ _ => []
  | .sna _ _ _ => []
  | .sma _ _ _ => []
  | .sr _ _ _ => []
  | .sz _ _ => []
  | .snz _ _ => []
  | .sp1 _ _ => []
  | .sn1 _ _ => []
  | .sfs _ _ => []
  | .sfz _ _ => []
  | .sas _ _ => []
  | .inc _ _ => []
  | .dec _ _ => []
  | .inc2 _ _ => []
  | .dec2 _ _ => []
  | .enz _ _ _ => []
  | .sx _ _ _ => []
  | .ldj _ _ => []
  | .lij _ _ => []
  | .lpd _ _ => []
  | .spd _ _ => []
  | .lbj _ _ => []
  | .la _ _ _ => []
  | .lna _ _ _ => []
  | .lma _ _ _ => []
  | .lnma _ _ _ => []
  | .aa _ _ _ => []
  | .ana _ _ _ => []
  | .ama _ _ _ => []
  | .anma _ _ _ => []
  | .au _ _ _ => []
  | .anu _ _ _ => []
  | .bt _ _ _ => []
  | .lr _ _ _ => []
  | .ax _ _ _ => []
  | .anx _ _ _ => []
  | .lxm _ _ _ => []
  | .lx _ _ _ => []
  | .mi _ _ _ => []
  | .msi _ _ _ => []
  | .mf _ _ _ => []
  | .bm _ _ => []
  | .bmt _ _ => []
  | .btc _ _ => []
  | .bc _ _ => []
  | .bpd _ _ => []
  | .pdb _ _ => []
  | .edit _ _ => []
  | .bi _ _ => []
  | .bdi _ _ => []
  | .ib _ _ => []
  | .dib _ _ => []
  | .bf _ _ => []
  | .bdf _ _ => []
  | .fb _ _ => []
  | .dfb _ _ => []
  | .di _ _ _ => []
  | .dsf _ _ _ => []
  | .df _ _ _ => []
  | .qb _ _ => []
  | .bq _ _ => []
  | .qbh _ _ => []
  | .bqh _ _ => []
  | .qdb _ _ => []
  | .dbq _ _ => []
  | .ba _ _ => []
  | .ban _ _ => []
  | .or _ _ _ => []
  | .xor _ _ _ => []
  | .and _ _ _ => []
  | .mlu _ _ _ => []
  | .tep _ _ _ => []
  | .top _ _ _ => []
  | .xli _ _ _ => []
  | .tlem _ _ _ => ["TNGM"]
  | .tz _ _ _ => []
  | .tnz _ _ _ => []
  | .te _ _ _ => []
  | .tne _ _ _ => []
  | .tle _ _ _ => ["TNG"]
  | .tg _ _ _ => []
  | .tw _ _ _ => []
  | .tnw _ _ _ => []
  | .tp _ _ _ => []
  | .tn _ _ _ => []
  | .se _ _ _ => []
  | .sne _ _ _ => []
  | .sle _ _ _ => ["SNG"]
  | .sg _ _ _ => []
  | .sw _ _ _ => []
  | .snw _ _ _ => []
  | .jgd _ _ _ => []
  | .mse _ _ => []
  | .msne _ _ => []
  | .msle _ _ => ["MSNG"]
  | .msg _ _ => []
  | .msw _ _ => []
  | .msnw _ _ => []
  | .masl _ _ => []
  | .masg _ _ => []
  | .da _ _ => []
  | .dan _ _ => []
  | .ds _ _ => []
  | .dl _ _ => []
  | .dln _ _ => []
  | .dlm _ _ => []
  | .djz _ _ => []
  | .dte _ _ => []
  | .slj _ _ => []
  | .jps _ _ => []
  | .jns _ _ => []
  | .ah _ _ => []
  | .anh _ _ => []
  | .at_ _ _ => []
  | .ant _ _ => []
  | .ex _ _ => []
  | .er _ _ => []
  | .srs _ _ => []
  | .lrs _ _ => []

/-- The lines that carry the flag `1110`, "Implemented on 1110 and 1100/40 only" (R74). -/
def Instr.flag1110 : Instr → Bool
  | .sa _ _ _ => false
  | .sna _ _ _ => false
  | .sma _ _ _ => false
  | .sr _ _ _ => false
  | .sz _ _ => false
  | .snz _ _ => false
  | .sp1 _ _ => false
  | .sn1 _ _ => false
  | .sfs _ _ => false
  | .sfz _ _ => false
  | .sas _ _ => false
  | .inc _ _ => false
  | .dec _ _ => false
  | .inc2 _ _ => false
  | .dec2 _ _ => false
  | .enz _ _ _ => false
  | .sx _ _ _ => false
  | .ldj _ _ => false
  | .lij _ _ => false
  | .lpd _ _ => false
  | .spd _ _ => false
  | .lbj _ _ => false
  | .la _ _ _ => false
  | .lna _ _ _ => false
  | .lma _ _ _ => false
  | .lnma _ _ _ => false
  | .aa _ _ _ => false
  | .ana _ _ _ => false
  | .ama _ _ _ => false
  | .anma _ _ _ => false
  | .au _ _ _ => false
  | .anu _ _ _ => false
  | .bt _ _ _ => false
  | .lr _ _ _ => false
  | .ax _ _ _ => false
  | .anx _ _ _ => false
  | .lxm _ _ _ => false
  | .lx _ _ _ => false
  | .mi _ _ _ => false
  | .msi _ _ _ => false
  | .mf _ _ _ => false
  | .bm _ _ => true
  | .bmt _ _ => true
  | .btc _ _ => true
  | .bc _ _ => true
  | .bpd _ _ => true
  | .pdb _ _ => true
  | .edit _ _ => true
  | .bi _ _ => true
  | .bdi _ _ => true
  | .ib _ _ => true
  | .dib _ _ => true
  | .bf _ _ => true
  | .bdf _ _ => true
  | .fb _ _ => true
  | .dfb _ _ => true
  | .di _ _ _ => false
  | .dsf _ _ _ => false
  | .df _ _ _ => false
  | .qb _ _ => true
  | .bq _ _ => true
  | .qbh _ _ => true
  | .bqh _ _ => true
  | .qdb _ _ => true
  | .dbq _ _ => true
  | .ba _ _ => true
  | .ban _ _ => true
  | .or _ _ _ => false
  | .xor _ _ _ => false
  | .and _ _ _ => false
  | .mlu _ _ _ => false
  | .tep _ _ _ => false
  | .top _ _ _ => false
  | .xli _ _ _ => false
  | .tlem _ _ _ => false
  | .tz _ _ _ => false
  | .tnz _ _ _ => false
  | .te _ _ _ => false
  | .tne _ _ _ => false
  | .tle _ _ _ => false
  | .tg _ _ _ => false
  | .tw _ _ _ => false
  | .tnw _ _ _ => false
  | .tp _ _ _ => false
  | .tn _ _ _ => false
  | .se _ _ _ => false
  | .sne _ _ _ => false
  | .sle _ _ _ => false
  | .sg _ _ _ => false
  | .sw _ _ _ => false
  | .snw _ _ _ => false
  | .jgd _ _ _ => false
  | .mse _ _ => false
  | .msne _ _ => false
  | .msle _ _ => false
  | .msg _ _ => false
  | .msw _ _ => false
  | .msnw _ _ => false
  | .masl _ _ => false
  | .masg _ _ => false
  | .da _ _ => false
  | .dan _ _ => false
  | .ds _ _ => false
  | .dl _ _ => false
  | .dln _ _ => false
  | .dlm _ _ => false
  | .djz _ _ => false
  | .dte _ _ => false
  | .slj _ _ => false
  | .jps _ _ => false
  | .jns _ _ => false
  | .ah _ _ => false
  | .anh _ _ => false
  | .at_ _ _ => false
  | .ant _ _ => false
  | .ex _ _ => false
  | .er _ _ => false
  | .srs _ _ => false
  | .lrs _ _ => false

end Sys2Proof
end

