-- ==== Sys2Proof/Machine/Byte1110.lean ====
section
/-! DEFINITION. Invalid codes (60_exceptions.md R260), and the 23 instructions flagged `1110` (44_byte_1110.md R160). -/

namespace Sys2Proof.Machine

/-- `InvalidCode(f, j, a)` of a word, with the word itself (R260). -/
def invalidCode (w : Word) : Event := .invalidCode (fieldF w) (fieldJ w) (fieldA w) w

/-- `raise InvalidCode(f, j, a)`: at decode, before any address is formed (R261). -/
def raiseInvalid (w : Word) (s : State) : Answer := .fault (takeInterrupt (invalidCode w) s)

/-- A `1110` line (R160): an invalid code on the 1100/20, refused on the 1110. -/
def flagged1110 (i : Instr) (s : State) : Answer :=
  match s.cfg.model with
  | .m1100_20 => raiseInvalid (encode i) s
  | .m1110 => .refused (.byteInstructionOf1110 s)

/-- BM, "Byte Move" (R161). -/
def execBm (a : BitVec 4) (m : Xhiu) (s : State) : Answer := flagged1110 (.bm a m) s

/-- BMT, "Byte Move With Translate" (R162). -/
def execBmt (a : BitVec 4) (m : Xhiu) (s : State) : Answer := flagged1110 (.bmt a m) s

/-- BTC, "Byte Translate and Compare" (R163). -/
def execBtc (a : BitVec 4) (m : Xhiu) (s : State) : Answer := flagged1110 (.btc a m) s

/-- BC, "Byte Compare" (R164). -/
def execBc (a : BitVec 4) (m : Xhiu) (s : State) : Answer := flagged1110 (.bc a m) s

/-- BPD, "Byte to Packed Decimal Convert" (R165). -/
def execBpd (a : BitVec 4) (m : Xhiu) (s : State) : Answer := flagged1110 (.bpd a m) s

/-- PDB, "Packed Decimal to Byte Convert" (R166). -/
def execPdb (a : BitVec 4) (m : Xhiu) (s : State) : Answer := flagged1110 (.pdb a m) s

/-- EDIT, "Edit" (R167). -/
def execEdit (a : BitVec 4) (m : Xhiu) (s : State) : Answer := flagged1110 (.edit a m) s

/-- BI, "Byte to Binary Single Integer Convert" (R168). -/
def execBi (a : BitVec 4) (m : Xhiu) (s : State) : Answer := flagged1110 (.bi a m) s

/-- BDI, "Byte to Binary Double Integer Convert" (R169). -/
def execBdi (a : BitVec 4) (m : Xhiu) (s : State) : Answer := flagged1110 (.bdi a m) s

/-- IB, "Binary Single Integer to Byte Convert" (R170). -/
def execIb (a : BitVec 4) (m : Xhiu) (s : State) : Answer := flagged1110 (.ib a m) s

/-- DIB, "Binary Double Integer to Byte Convert" (R171). -/
def execDib (a : BitVec 4) (m : Xhiu) (s : State) : Answer := flagged1110 (.dib a m) s

/-- BF, "Byte to Single Floating Convert" (R172). -/
def execBf (a : BitVec 4) (m : Xhiu) (s : State) : Answer := flagged1110 (.bf a m) s

/-- BDF, "Byte to Double Floating Convert" (R173). -/
def execBdf (a : BitVec 4) (m : Xhiu) (s : State) : Answer := flagged1110 (.bdf a m) s

/-- FB, "Single Floating to Byte Convert" (R174). -/
def execFb (a : BitVec 4) (m : Xhiu) (s : State) : Answer := flagged1110 (.fb a m) s

/-- DFB, "Double Floating to Byte Convert" (R175). -/
def execDfb (a : BitVec 4) (m : Xhiu) (s : State) : Answer := flagged1110 (.dfb a m) s

/-- QB, "Quarter-Word Byte to Binary Compress" (R176). -/
def execQb (a : BitVec 4) (m : Xhiu) (s : State) : Answer := flagged1110 (.qb a m) s

/-- BQ, "Binary to Quarter-Word Byte Extend" (R177). -/
def execBq (a : BitVec 4) (m : Xhiu) (s : State) : Answer := flagged1110 (.bq a m) s

/-- QBH, "Quarter-Word Byte to Binary Halves Compress" (R178). -/
def execQbh (a : BitVec 4) (m : Xhiu) (s : State) : Answer := flagged1110 (.qbh a m) s

/-- BQH, "Binary Halves to Quarter-Word Byte Extend" (R179). -/
def execBqh (a : BitVec 4) (m : Xhiu) (s : State) : Answer := flagged1110 (.bqh a m) s

/-- QDB, "Quarter-Word Byte to Double Binary Compress" (R180). -/
def execQdb (a : BitVec 4) (m : Xhiu) (s : State) : Answer := flagged1110 (.qdb a m) s

/-- DBQ, "Double Binary to Quarter-Word Byte Extend" (R181). -/
def execDbq (a : BitVec 4) (m : Xhiu) (s : State) : Answer := flagged1110 (.dbq a m) s

/-- BA, "Byte Add" (R182). -/
def execBa (a : BitVec 4) (m : Xhiu) (s : State) : Answer := flagged1110 (.ba a m) s

/-- BAN, "Byte Add Negative" (R183). -/
def execBan (a : BitVec 4) (m : Xhiu) (s : State) : Answer := flagged1110 (.ban a m) s

end Sys2Proof.Machine
end

