-- ==== Sys2Proof/Machine/Flags.lean ====
section
/-! DEFINITION. The conditions that tests, searches and conditional jumps decide on. The machine has no flags
(10_state.md R31): a condition shows only in P. Equalities are bit by bit and orderings use `ord_36`, which puts -0
just below +0 (46_test.md R200). -/

namespace Sys2Proof.Machine

/-- `ord_36(v) <= ord_36(w)`: the operand is the left side (R205). -/
def ordLe (v w : Word) : Bool := ordKey v ≤ ordKey w

/-- `ord_36(v) > ord_36(w)` (R206). -/
def ordGt (v w : Word) : Bool := ordKey w < ordKey v

/-- `ord_36(lo) < ord_36(v) and ord_36(v) <= ord_36(hi)`: open below, closed above (R207). -/
def ordWithin (lo hi v : Word) : Bool := ordKey lo < ordKey v ∧ ordKey v ≤ ordKey hi

/-- `v <= w`, both read as unsigned numbers (R225). -/
def alphaLe (v w : Word) : Bool := v.toNat ≤ w.toNat

/-- `v > w`, both read as unsigned numbers (R226). -/
def alphaGt (v w : Word) : Bool := w.toNat < v.toNat

/-- The parity of the 1 bits of `t` is even (R195). -/
def evenParity (t : Word) : Bool := popcount t % 2 = 0

/-- The parity of the 1 bits of `t` is odd (R196). -/
def oddParity (t : Word) : Bool := popcount t % 2 = 1

/-- `ord_36(v) <= Xm`, the modifier read unsigned (R198). -/
def leModifier (v : Word) (xm : BitVec 18) : Bool := ordKey v ≤ (xm.toNat : Int)

/-- `v[35] = 0 and v != 0`: greater than zero (R230). -/
def isPositive (v : Word) : Bool := !v.msb && v != 0#36

end Sys2Proof.Machine
end

