-- ==== Sys2Proof/Machine/Operands.lean ====
section
/-! DEFINITION. Operand formation: partial words (20_memory.md R53), effective addresses, immediates, operands read and
stored (30_encoding.md R91 to R97). -/

namespace Sys2Proof.Machine

/-! ### Partial words (R53) -/

/-- The partial words, by their MASM names. -/
inductive Part where
  | w | h2 | h1 | xh2 | xh1 | t3 | t2 | t1 | q2 | q4 | q3 | q1 | s6 | s5 | s4 | s3 | s2 | s1
deriving DecidableEq, Repr

/-- What j designates: a partial word, or one of the two immediates. -/
inductive Designator where
  | part (p : Part)
  | u
  | xu
deriving DecidableEq, Repr

/-- The j table, with the quarter words of j = 04 to 07 when `QWMODE` is true (R53). -/
def designate (qw : Bool) (j : BitVec 4) : Designator :=
  match j.toNat with
  | 0o00 => .part .w
  | 0o01 => .part .h2
  | 0o02 => .part .h1
  | 0o03 => .part .xh2
  | 0o04 => .part (if qw then .q2 else .xh1)
  | 0o05 => .part (if qw then .q4 else .t3)
  | 0o06 => .part (if qw then .q3 else .t2)
  | 0o07 => .part (if qw then .q1 else .t1)
  | 0o10 => .part .s6
  | 0o11 => .part .s5
  | 0o12 => .part .s4
  | 0o13 => .part .s3
  | 0o14 => .part .s2
  | 0o15 => .part .s1
  | 0o16 => .u
  | _ => .xu

/-- `field_get(j, w)` (R53): XH2, XH1 and the thirds are sign-extended, the others zero-extended. -/
def fieldGet (p : Part) (w : Word) : Word :=
  match p with
  | .w => w
  | .h2 => (w.extractLsb' 0 18).setWidth 36
  | .h1 => (w.extractLsb' 18 18).setWidth 36
  | .xh2 => (w.extractLsb' 0 18).signExtend 36
  | .xh1 => (w.extractLsb' 18 18).signExtend 36
  | .t3 => (w.extractLsb' 0 12).signExtend 36
  | .t2 => (w.extractLsb' 12 12).signExtend 36
  | .t1 => (w.extractLsb' 24 12).signExtend 36
  | .q2 => (w.extractLsb' 18 9).setWidth 36
  | .q4 => (w.extractLsb' 0 9).setWidth 36
  | .q3 => (w.extractLsb' 9 9).setWidth 36
  | .q1 => (w.extractLsb' 27 9).setWidth 36
  | .s6 => (w.extractLsb' 0 6).setWidth 36
  | .s5 => (w.extractLsb' 6 6).setWidth 36
  | .s4 => (w.extractLsb' 12 6).setWidth 36
  | .s3 => (w.extractLsb' 18 6).setWidth 36
  | .s2 => (w.extractLsb' 24 6).setWidth 36
  | .s1 => (w.extractLsb' 30 6).setWidth 36

/-- `field_put(j, w, v)` (R53): the low bits of v in the field, every other bit of w kept. -/
def fieldPut (p : Part) (w v : Word) : Word :=
  match p with
  | .w => v
  | .h2 => w.extractLsb' 18 18 ++ v.extractLsb' 0 18
  | .h1 => v.extractLsb' 0 18 ++ w.extractLsb' 0 18
  | .xh2 => w.extractLsb' 18 18 ++ v.extractLsb' 0 18
  | .xh1 => v.extractLsb' 0 18 ++ w.extractLsb' 0 18
  | .t3 => w.extractLsb' 12 24 ++ v.extractLsb' 0 12
  | .t2 => w.extractLsb' 24 12 ++ v.extractLsb' 0 12 ++ w.extractLsb' 0 12
  | .t1 => v.extractLsb' 0 12 ++ w.extractLsb' 0 24
  | .q2 => w.extractLsb' 27 9 ++ v.extractLsb' 0 9 ++ w.extractLsb' 0 18
  | .q4 => w.extractLsb' 9 27 ++ v.extractLsb' 0 9
  | .q3 => w.extractLsb' 18 18 ++ v.extractLsb' 0 9 ++ w.extractLsb' 0 9
  | .q1 => v.extractLsb' 0 9 ++ w.extractLsb' 0 27
  | .s6 => w.extractLsb' 6 30 ++ v.extractLsb' 0 6
  | .s5 => w.extractLsb' 12 24 ++ v.extractLsb' 0 6 ++ w.extractLsb' 0 6
  | .s4 => w.extractLsb' 18 18 ++ v.extractLsb' 0 6 ++ w.extractLsb' 0 12
  | .s3 => w.extractLsb' 24 12 ++ v.extractLsb' 0 6 ++ w.extractLsb' 0 18
  | .s2 => w.extractLsb' 30 6 ++ v.extractLsb' 0 6 ++ w.extractLsb' 0 24
  | .s1 => v.extractLsb' 0 6 ++ w.extractLsb' 0 30

/-! ### Effective address (R92, R93) -/

/-- The index sum `u + Xm(x)` in 18-bit ones' complement, or u alone when x = 0. -/
def indexSum (m : Xhiu) (s : State) : Addr :=
  if m.x = 0 then m.u.setWidth 18 else onesAdd (m.u.setWidth 18) (s.modifier m.x)

/-- The state after the index incrementation of one level: none when x = 0 or h = 0. -/
def stepIndex (m : Xhiu) (s : State) : State :=
  if m.x ≠ 0 ∧ m.h then s.bumpIndex m.x else s

/-- `EA(ins)`, at most `n` levels: the index sum, the incrementation, and while i = 1 the indirect word. -/
def effAddrLoop : Nat → Xhiu → State → Res Addr
  | 0, _, _ => .raised .endlessIndirection
  | n + 1, m, s =>
    let u := indexSum m s
    let s1 := stepIndex m s
    if m.i then
      if isRegAddr u then .refused (.indirectWordAtGrs s1)
      else (memRead .indirectWord u s1).bind fun w s2 => effAddrLoop n (xhiuOf w) s2
    else .ok u s1

/-- `EA(ins)` (R92): a chain that never ends has no result (V11; log 12). -/
def effAddr (m : Xhiu) (s : State) : Res Addr := effAddrLoop Config.chainBound m s

/-! ### The instruction's own registers (R97) -/

/-- `refuse` when h = 1 increments a register the instruction uses through its a field. It is tested before anything
else of the instruction (R267 step 3; log 15). -/
def checkOwn (own : List RegAddr) (m : Xhiu) (s : State) : Res Unit :=
  if m.h ∧ m.x ≠ 0 ∧ xReg m.x ∈ own then .refused (.ownIndexIncrement s) else .ok () s

/-- The effective address of an instruction that uses the registers `own` through its a field. -/
def ownAddr (own : List RegAddr) (m : Xhiu) (s : State) : Res Addr :=
  (checkOwn own m s).bind fun _ s1 => effAddr m s1

/-! ### Operands (R91, R94, R95) -/

/-- The 18-bit value of an immediate before extension (R91): h, i and u together when x = 0. -/
def immediateBits (m : Xhiu) (s : State) : BitVec 18 :=
  if m.x = 0 then BitVec.ofBool m.h ++ BitVec.ofBool m.i ++ m.u else indexSum m s

/-- `Imm(ins)` (R91), with the extension to 36 bits. -/
def immediate (extend : BitVec 18 → Word) (m : Xhiu) (s : State) : Res Word :=
  if m.x ≠ 0 ∧ m.i then .refused (.immediateIndexedIndirect s)
  else .ok (extend (immediateBits m s)) (stepIndex m s)

/-- A partial word of the operand at U; of a register only the whole word (R56, R94). -/
def partRead (p : Part) (u : Addr) (s : State) : Res Word :=
  if isRegAddr u ∧ p ≠ .w then .refused (.partialWordOfRegister s)
  else (opRead u s).bind fun w s1 => .ok (fieldGet p w) s1

/-- A partial word stored at U: the word is read and written back, except that a whole word is only written (R95). -/
def partWrite (p : Part) (u : Addr) (v : Word) (s : State) : Res Unit :=
  if p = .w then opWrite u v s
  else if isRegAddr u then .refused (.partialWordOfRegister s)
  else (opRead u s).bind fun w s1 => opWrite u (fieldPut p w v) s1

/-- `Operand(ins)` (R94). -/
def operand (j : BitVec 4) (m : Xhiu) (s : State) : Res Word :=
  match designate s.cfg.qwMode j with
  | .part p => (effAddr m s).bind fun u s1 => partRead p u s1
  | .u => immediate (fun v => v.setWidth 36) m s
  | .xu => immediate (fun v => v.signExtend 36) m s

/-- `Operand(ins)` of an instruction that uses the registers `own` through its a field. -/
def ownOperand (own : List RegAddr) (j : BitVec 4) (m : Xhiu) (s : State) : Res Word :=
  (checkOwn own m s).bind fun _ s1 => operand j m s1

/-- `StoreOperand(ins, v)` (R95). The value is read after the address is formed (R92; log 14). -/
def storeOperand (own : List RegAddr) (j : BitVec 4) (m : Xhiu) (v : State → Word) (s : State) : Res Unit :=
  match designate s.cfg.qwMode j with
  | .part p => (ownAddr own m s).bind fun u s1 => partWrite p u (v s1) s1
  | .u => .refused (.storeToImmediate s)
  | .xu => .refused (.storeToImmediate s)

end Sys2Proof.Machine
end

