-- ==== Sys2Proof/Machine/DoubleWord.lean ====
section
/-! DEFINITION. JGD, f = 70, and the double-word instructions, f = 71 with j = 10 to 17 (48_f70_f71.md). -/

namespace Sys2Proof.Machine

/-- JGD's register: the low seven bits of j and a side by side (R230). -/
def jgdReg (j a : BitVec 4) : RegAddr := (j ++ a).setWidth 7

/-- JGD (R230): jump when the value before the decrement is greater than zero. -/
def execJgd (j a : BitVec 4) (m : Xhiu) (s : State) : Answer :=
  (ownAddr [jgdReg j a] m s).toNext fun u s1 =>
    let v := s1.reg (jgdReg j a)
    (s1.setReg (jgdReg j a) (onesAdd v 0o777777777776#36)).jumpIf (isPositive v) u

/-- `D <- OpRead2(EA(ins))` of an instruction that uses the pair `A[a]`, `A[a+1]` (R239). -/
def doubleOperand (a : BitVec 4) (m : Xhiu) (s : State) : Res DWord :=
  (ownAddr [aReg a, aReg1 a] m s).bind fun u s1 => opRead2 u s1

/-- The pair gets a double word made of its old value and the operand (R239). -/
def doubleLoad (a : BitVec 4) (m : Xhiu) (op : DWord → DWord → DWord) (s : State) : Answer :=
  (doubleOperand a m s).toNext fun d s1 => (s1.setPair a (op (s1.pair a) d)).advance

/-- DA (R231). -/
def execDa (a : BitVec 4) (m : Xhiu) (s : State) : Answer := doubleLoad a m (fun aa d => onesAdd aa d) s

/-- DAN (R232). -/
def execDan (a : BitVec 4) (m : Xhiu) (s : State) : Answer := doubleLoad a m (fun aa d => onesAdd aa (onesNeg d)) s

/-- DS (R233). -/
def execDs (a : BitVec 4) (m : Xhiu) (s : State) : Answer :=
  ((ownAddr [aReg a, aReg1 a] m s).bind fun u s1 => opWrite2 u (s1.pair a) s1).toNext fun _ s2 => s2.advance

/-- DL (R234). -/
def execDl (a : BitVec 4) (m : Xhiu) (s : State) : Answer := doubleLoad a m (fun _ d => d) s

/-- DLN (R235). -/
def execDln (a : BitVec 4) (m : Xhiu) (s : State) : Answer := doubleLoad a m (fun _ d => onesNeg d) s

/-- DLM (R236). -/
def execDlm (a : BitVec 4) (m : Xhiu) (s : State) : Answer := doubleLoad a m (fun _ d => onesMag d) s

/-- DJZ (R237): no storage operand is read. -/
def execDjz (a : BitVec 4) (m : Xhiu) (s : State) : Answer :=
  (ownAddr [aReg a, aReg1 a] m s).toNext fun u s1 => s1.jumpIf (onesIsZero (s1.pair a)) u

/-- DTE (R238): all 72 bits. -/
def execDte (a : BitVec 4) (m : Xhiu) (s : State) : Answer :=
  (doubleOperand a m s).toNext fun d s1 => s1.skipIf (d == s1.pair a)

end Sys2Proof.Machine
end

