-- ==== Sys2Proof/Machine/F72.lean ====
section
/-! DEFINITION. f = 72 instructions but EX (49_f72.md). -/

namespace Sys2Proof.Machine

/-- SLJ (R240): the return address into the low half of the main-storage word at U, then on at U + 1. a is ignored. -/
def execSlj (_a : BitVec 4) (m : Xhiu) (s : State) : Answer :=
  ((effAddr m s).bind fun u s1 =>
    (memRead .sljWord u s1).bind fun w s2 =>
      (memWrite .sljWord u (ofHalves (highHalf w) (s2.p + 1)) s2).bind fun _ s3 => .ok u s3).toNext
    fun u s4 => s4.jump (u + 1)

/-- A jump that tests `A[a]` and rotates it left by one, jump or not (R241, R242). -/
def jumpAndShift (a : BitVec 4) (m : Xhiu) (c : Word → Bool) (s : State) : Answer :=
  (ownAddr [aReg a] m s).toNext fun u s1 =>
    (s1.setReg (aReg a) ((s1.reg (aReg a)).rotateLeft 1)).jumpIf (c (s1.reg (aReg a))) u

/-- JPS (R241). -/
def execJps (a : BitVec 4) (m : Xhiu) (s : State) : Answer := jumpAndShift a m (fun v => !v.msb) s

/-- JNS (R242). -/
def execJns (a : BitVec 4) (m : Xhiu) (s : State) : Answer := jumpAndShift a m (fun v => v.msb) s

/-- `A[a]` gets a word made of itself and the whole word at U (R243 to R246). -/
def addParts (a : BitVec 4) (m : Xhiu) (op : Word → Word → Word) (s : State) : Answer :=
  ((ownAddr [aReg a] m s).bind fun u s1 => opRead u s1).toNext fun v s2 =>
    (s2.setReg (aReg a) (op (s2.reg (aReg a)) v)).advance

/-- AH (R243). -/
def execAh (a : BitVec 4) (m : Xhiu) (s : State) : Answer := addParts a m addHalves s

/-- ANH (R244). -/
def execAnh (a : BitVec 4) (m : Xhiu) (s : State) : Answer := addParts a m subHalves s

/-- AT (R245). -/
def execAt (a : BitVec 4) (m : Xhiu) (s : State) : Answer := addParts a m addThirds s

/-- ANT (R246). -/
def execAnt (a : BitVec 4) (m : Xhiu) (s : State) : Answer := addParts a m subThirds s

/-- ER (R248, R262): `raise ExecutiveRequest(U)`, always once U is formed; P stays at the ER. a is ignored. -/
def execEr (_a : BitVec 4) (m : Xhiu) (s : State) : Answer :=
  (effAddr m s).andThen fun u s1 => .fault (takeInterrupt (.executiveRequest u) s1)

/-- SRS: `refuse("SRS: no semantics in the source")` (R249). -/
def execSrs (_a : BitVec 4) (_m : Xhiu) (s : State) : Answer := .refused (.noSemanticsInSource "SRS" s)

/-- LRS: `refuse("LRS: no semantics in the source")` (R250). -/
def execLrs (_a : BitVec 4) (_m : Xhiu) (s : State) : Answer := .refused (.noSemanticsInSource "LRS" s)

end Sys2Proof.Machine
end

