-- ==== Sys2Proof/Machine/LoadAdd.lean ====
section
/-! DEFINITION. Load and add instructions, f = 10 to 27 (42_load_add.md). -/

namespace Sys2Proof.Machine

/-- `v <- Operand(ins)`, registers written as `k` says, `P <- P + 1` (R130). -/
def loadWith (own : List RegAddr) (j : BitVec 4) (m : Xhiu) (k : Word → State → State) (s : State) : Answer :=
  (ownOperand own j m s).toNext fun v s1 => (k v s1).advance

/-- LA (R131). -/
def execLa (j a : BitVec 4) (m : Xhiu) (s : State) : Answer :=
  loadWith [aReg a] j m (fun v s1 => s1.setReg (aReg a) v) s

/-- LNA (R132). -/
def execLna (j a : BitVec 4) (m : Xhiu) (s : State) : Answer :=
  loadWith [aReg a] j m (fun v s1 => s1.setReg (aReg a) (onesNeg v)) s

/-- LMA (R133). -/
def execLma (j a : BitVec 4) (m : Xhiu) (s : State) : Answer :=
  loadWith [aReg a] j m (fun v s1 => s1.setReg (aReg a) (onesMag v)) s

/-- LNMA (R134). -/
def execLnma (j a : BitVec 4) (m : Xhiu) (s : State) : Answer :=
  loadWith [aReg a] j m (fun v s1 => s1.setReg (aReg a) (onesNeg (onesMag v))) s

/-- AA (R135). -/
def execAa (j a : BitVec 4) (m : Xhiu) (s : State) : Answer :=
  loadWith [aReg a] j m (fun v s1 => s1.setReg (aReg a) (onesAdd (s1.reg (aReg a)) v)) s

/-- ANA (R136). -/
def execAna (j a : BitVec 4) (m : Xhiu) (s : State) : Answer :=
  loadWith [aReg a] j m (fun v s1 => s1.setReg (aReg a) (onesAdd (s1.reg (aReg a)) (onesNeg v))) s

/-- AMA (R137). -/
def execAma (j a : BitVec 4) (m : Xhiu) (s : State) : Answer :=
  loadWith [aReg a] j m (fun v s1 => s1.setReg (aReg a) (onesAdd (s1.reg (aReg a)) (onesMag v))) s

/-- ANMA (R138). -/
def execAnma (j a : BitVec 4) (m : Xhiu) (s : State) : Answer :=
  loadWith [aReg a] j m (fun v s1 => s1.setReg (aReg a) (onesAdd (s1.reg (aReg a)) (onesNeg (onesMag v)))) s

/-- AU: the sum goes to `A[a+1]` (R139). -/
def execAu (j a : BitVec 4) (m : Xhiu) (s : State) : Answer :=
  loadWith [aReg a, aReg1 a] j m (fun v s1 => s1.setReg (aReg1 a) (onesAdd (s1.reg (aReg a)) v)) s

/-- ANU (R140). -/
def execAnu (j a : BitVec 4) (m : Xhiu) (s : State) : Answer :=
  loadWith [aReg a, aReg1 a] j m (fun v s1 => s1.setReg (aReg1 a) (onesAdd (s1.reg (aReg a)) (onesNeg v))) s

/-! ### Block transfer (R141) -/

/-- The destination address of a repetition: `u + Xm(a)`, indexed even when a = 0. -/
def btTarget (a : BitVec 4) (m : Xhiu) (s : State) : Addr := onesAdd (m.u.setWidth 18) (s.modifier a)

/-- One word of the transfer: the source field into the destination field. -/
def btMove (p : Part) (a : BitVec 4) (m : Xhiu) (s : State) : Res Unit :=
  if (isRegAddr (indexSum m s) ∨ isRegAddr (btTarget a m s)) ∧ p ≠ .w then .refused (.partialWordOfRegister s)
  else (opRead (indexSum m s) s).bind fun w s1 => partWrite p (btTarget a m s) (fieldGet p w) s1

/-- The incrementation of a repetition when h = 1: of `X[x]` and `X[a]`, once when they are the same register, and of
`X[a]` alone when x = 0. -/
def btIndex (a : BitVec 4) (m : Xhiu) (s : State) : State :=
  if m.h then
    if m.x = a ∨ m.x = 0 then s.bumpIndex a else (s.bumpIndex m.x).bumpIndex a
  else s

/-- The repetitions left, `n` of them: the count in `R[1][17:0]` is `n` at the start of each. -/
def btLoop (p : Part) (a : BitVec 4) (m : Xhiu) : Nat → State → Answer
  | 0, s => .next s.advance
  | n + 1, s =>
    (btMove p a m s).andThen fun _ s1 => btLoop p a m n ((btIndex a m s1).setRepeatCount (BitVec.ofNat 18 n))

/-- BT (R141). j = 16, 17 is an invalid code, so the last arm belongs to no word. -/
def execBt (j a : BitVec 4) (m : Xhiu) (s : State) : Answer :=
  if m.i then .refused (.indirectOnRepeated s)
  else
    match designate s.cfg.qwMode j with
    | .part p => btLoop p a m s.repeatCount.toNat s
    | .u => .refused (.storeToImmediate s)
    | .xu => .refused (.storeToImmediate s)

/-- LR (R142). -/
def execLr (j a : BitVec 4) (m : Xhiu) (s : State) : Answer :=
  loadWith [rReg a] j m (fun v s1 => s1.setReg (rReg a) v) s

/-- AX (R143): all 36 bits. -/
def execAx (j a : BitVec 4) (m : Xhiu) (s : State) : Answer :=
  loadWith [xReg a] j m (fun v s1 => s1.setReg (xReg a) (onesAdd (s1.reg (xReg a)) v)) s

/-- ANX (R144). -/
def execAnx (j a : BitVec 4) (m : Xhiu) (s : State) : Answer :=
  loadWith [xReg a] j m (fun v s1 => s1.setReg (xReg a) (onesAdd (s1.reg (xReg a)) (onesNeg v))) s

/-- LXM (R145): the increment half is kept. -/
def execLxm (j a : BitVec 4) (m : Xhiu) (s : State) : Answer :=
  loadWith [xReg a] j m (fun v s1 => s1.setReg (xReg a) (ofHalves (s1.increment a) (lowHalf v))) s

/-- LX (R146). -/
def execLx (j a : BitVec 4) (m : Xhiu) (s : State) : Answer :=
  loadWith [xReg a] j m (fun v s1 => s1.setReg (xReg a) v) s

end Sys2Proof.Machine
end

