-- ==== Sys2Proof/Machine/Logical.lean ====
section
/-! DEFINITION. Logical, masked load, parity and index instructions, f = 40 to 47 (45_logical.md). -/

namespace Sys2Proof.Machine

/-- `A[a+1]` gets a word made of `A[a]` and the operand; `A[a]` is kept (R190). -/
def logical (j a : BitVec 4) (m : Xhiu) (op : Word → Word → State → Word) (s : State) : Answer :=
  (ownOperand [aReg a, aReg1 a] j m s).toNext fun v s1 =>
    (s1.setReg (aReg1 a) (op (s1.reg (aReg a)) v s1)).advance

/-- OR (R191). -/
def execOr (j a : BitVec 4) (m : Xhiu) (s : State) : Answer := logical j a m (fun w v _ => w ||| v) s

/-- XOR (R192). -/
def execXor (j a : BitVec 4) (m : Xhiu) (s : State) : Answer := logical j a m (fun w v _ => w ^^^ v) s

/-- AND (R193). -/
def execAnd (j a : BitVec 4) (m : Xhiu) (s : State) : Answer := logical j a m (fun w v _ => w &&& v) s

/-- MLU (R194): mask bits 1 take the operand, mask bits 0 take `A[a]`. -/
def execMlu (j a : BitVec 4) (m : Xhiu) (s : State) : Answer :=
  logical j a m (fun w v s1 => (v &&& s1.mask) ||| (w &&& ~~~s1.mask)) s

/-- TEP (R195). -/
def execTep (j a : BitVec 4) (m : Xhiu) (s : State) : Answer :=
  (ownOperand [aReg a] j m s).toNext fun v s1 => s1.skipIf (evenParity (s1.reg (aReg a) &&& v))

/-- TOP (R196). -/
def execTop (j a : BitVec 4) (m : Xhiu) (s : State) : Answer :=
  (ownOperand [aReg a] j m s).toNext fun v s1 => s1.skipIf (oddParity (s1.reg (aReg a) &&& v))

/-- XLI (R197): the modifier half is kept. -/
def execXli (j a : BitVec 4) (m : Xhiu) (s : State) : Answer :=
  (ownOperand [xReg a] j m s).toNext fun v s1 =>
    (s1.setReg (xReg a) (ofHalves (lowHalf v) (s1.modifier a))).advance

/-- TLEM (R198): the modifier is compared, then incremented in any case. -/
def execTlem (j a : BitVec 4) (m : Xhiu) (s : State) : Answer :=
  (ownOperand [xReg a] j m s).toNext fun v s1 => (s1.bumpIndex a).skipIf (leModifier v (s1.modifier a))

end Sys2Proof.Machine
end

