-- ==== Sys2Proof/Machine/MulDiv.lean ====
section
/-! DEFINITION. Multiply and divide, f = 30, 31, 32, 34, 35, 36 (43_multiply_divide.md), in sign and magnitude (R150). -/

namespace Sys2Proof.Machine

/-- A multiplication: the operand is read, then the registers are written as `k` says (R150). -/
def multiply (own : List RegAddr) (j : BitVec 4) (m : Xhiu) (k : Word → State → State) (s : State) : Answer :=
  (ownOperand own j m s).toNext fun v s1 => (k v s1).advance

/-- A division (R150): `dividend` gives the sign and the magnitude to divide, `k` writes quotient and remainder. The
divide fault comes after the operand is read and before a register is written (R264). -/
def divide (i : Instr) (own : List RegAddr) (j : BitVec 4) (m : Xhiu) (dividend : State → Bool × Nat)
    (k : Word → Word → State → State) (s : State) : Answer :=
  (ownOperand own j m s).andThen fun v s1 =>
    match quotRem (dividend s1).1 (dividend s1).2 v with
    | none => .fault (takeInterrupt (.divideFault (encode i)) s1)
    | some (q, r) => .next (k q r s1).advance

/-- MI (R151). -/
def execMi (j a : BitVec 4) (m : Xhiu) (s : State) : Answer :=
  multiply [aReg a, aReg1 a] j m (fun v s1 => s1.setPair a (product (s1.reg (aReg a)) v)) s

/-- MSI (R152): the low 36 bits; `A[a+1]` is not touched. -/
def execMsi (j a : BitVec 4) (m : Xhiu) (s : State) : Answer :=
  multiply [aReg a] j m (fun v s1 => s1.setReg (aReg a) (lowerWord (product (s1.reg (aReg a)) v))) s

/-- MF (R153): the product one place left, circular. -/
def execMf (j a : BitVec 4) (m : Xhiu) (s : State) : Answer :=
  multiply [aReg a, aReg1 a] j m (fun v s1 => s1.setPair a ((product (s1.reg (aReg a)) v).rotateLeft 1)) s

/-- DI (R154). -/
def execDi (j a : BitVec 4) (m : Xhiu) (s : State) : Answer :=
  divide (.di j a m) [aReg a, aReg1 a] j m (fun s1 => ((s1.pair a).msb, (onesMag (s1.pair a)).toNat))
    (fun q r s1 => s1.setPair a (ofWords q r)) s

/-- DSF (R155): the quotient of `A[a]` one word up, to `A[a+1]`; no remainder is kept. -/
def execDsf (j a : BitVec 4) (m : Xhiu) (s : State) : Answer :=
  divide (.dsf j a m) [aReg a, aReg1 a] j m
    (fun s1 => ((s1.reg (aReg a)).msb, (onesMag (s1.reg (aReg a))).toNat * 2 ^ 35))
    (fun q _ s1 => s1.setReg (aReg1 a) q) s

/-- DF (R156): the dividend one place right. -/
def execDf (j a : BitVec 4) (m : Xhiu) (s : State) : Answer :=
  divide (.df j a m) [aReg a, aReg1 a] j m (fun s1 => ((s1.pair a).msb, (onesMag (s1.pair a)).toNat / 2))
    (fun q r s1 => s1.setPair a (ofWords q r)) s

end Sys2Proof.Machine
end

