-- ==== Sys2Proof/Machine/Search.lean ====
section
/-! DEFINITION. Search instructions, f = 62 to 67 and f = 71 with j = 00 to 07 (47_search.md). -/

namespace Sys2Proof.Machine

/-- The repeat loop of R212 with `n` repetitions left: `R[1][17:0]` is `n` at the start of each. The operand is formed
and read, the count decremented, then the operand tested. -/
def searchLoop (next : State → Res Word) (cond : Word → State → Bool) : Nat → State → Answer
  | 0, s => .next s.advance
  | n + 1, s =>
    (next s).andThen fun v s1 =>
      if cond v s1 then .next (s1.setRepeatCount (BitVec.ofNat 18 n)).skip
      else searchLoop next cond n (s1.setRepeatCount (BitVec.ofNat 18 n))

/-- `Search(ins, cond)` (R212), one step of the model. -/
def search (own : List RegAddr) (m : Xhiu) (next : State → Res Word) (cond : Word → State → Bool) (s : State) :
    Answer :=
  if m.i then .refused (.indirectOnRepeated s)
  else (checkOwn own m s).andThen fun _ s1 => searchLoop next cond s1.repeatCount.toNat s1

/-- A search of f = 62 to 67: j picks the partial word of every operand, or an immediate (R212). -/
def plainSearch (own : List RegAddr) (j : BitVec 4) (m : Xhiu) (cond : Word → State → Bool) (s : State) : Answer :=
  search own m (operand j m) cond s

/-- `NextOperand` of f = 71: the whole word at the effective address (R212). -/
def wholeOperand (m : Xhiu) (s : State) : Res Word := (effAddr m s).bind fun u s1 => opRead u s1

/-- A masked search: `k <- R[2]`, and `cond` has the mask, the operand and the state (R219 to R226). -/
def maskedSearch (own : List RegAddr) (m : Xhiu) (cond : Word → Word → State → Bool) (s : State) : Answer :=
  search own m (wholeOperand m) (cond s.mask) s

/-- SE (R213). -/
def execSe (j a : BitVec 4) (m : Xhiu) (s : State) : Answer :=
  plainSearch [aReg a] j m (fun v s1 => v == s1.reg (aReg a)) s

/-- SNE (R214). -/
def execSne (j a : BitVec 4) (m : Xhiu) (s : State) : Answer :=
  plainSearch [aReg a] j m (fun v s1 => v != s1.reg (aReg a)) s

/-- SLE (R215). -/
def execSle (j a : BitVec 4) (m : Xhiu) (s : State) : Answer :=
  plainSearch [aReg a] j m (fun v s1 => ordLe v (s1.reg (aReg a))) s

/-- SG (R216). -/
def execSg (j a : BitVec 4) (m : Xhiu) (s : State) : Answer :=
  plainSearch [aReg a] j m (fun v s1 => ordGt v (s1.reg (aReg a))) s

/-- SW (R217). -/
def execSw (j a : BitVec 4) (m : Xhiu) (s : State) : Answer :=
  plainSearch [aReg a, aReg1 a] j m (fun v s1 => ordWithin (s1.reg (aReg a)) (s1.reg (aReg1 a)) v) s

/-- SNW (R218). -/
def execSnw (j a : BitVec 4) (m : Xhiu) (s : State) : Answer :=
  plainSearch [aReg a, aReg1 a] j m (fun v s1 => !ordWithin (s1.reg (aReg a)) (s1.reg (aReg1 a)) v) s

/-- MSE (R219). -/
def execMse (a : BitVec 4) (m : Xhiu) (s : State) : Answer :=
  maskedSearch [aReg a] m (fun k v s1 => (v &&& k) == (s1.reg (aReg a) &&& k)) s

/-- MSNE (R220). -/
def execMsne (a : BitVec 4) (m : Xhiu) (s : State) : Answer :=
  maskedSearch [aReg a] m (fun k v s1 => (v &&& k) != (s1.reg (aReg a) &&& k)) s

/-- MSLE (R221). -/
def execMsle (a : BitVec 4) (m : Xhiu) (s : State) : Answer :=
  maskedSearch [aReg a] m (fun k v s1 => ordLe (v &&& k) (s1.reg (aReg a) &&& k)) s

/-- MSG (R222). -/
def execMsg (a : BitVec 4) (m : Xhiu) (s : State) : Answer :=
  maskedSearch [aReg a] m (fun k v s1 => ordGt (v &&& k) (s1.reg (aReg a) &&& k)) s

/-- MSW (R223): all three values are masked. -/
def execMsw (a : BitVec 4) (m : Xhiu) (s : State) : Answer :=
  maskedSearch [aReg a, aReg1 a] m
    (fun k v s1 => ordWithin (s1.reg (aReg a) &&& k) (s1.reg (aReg1 a) &&& k) (v &&& k)) s

/-- MSNW (R224). -/
def execMsnw (a : BitVec 4) (m : Xhiu) (s : State) : Answer :=
  maskedSearch [aReg a, aReg1 a] m
    (fun k v s1 => !ordWithin (s1.reg (aReg a) &&& k) (s1.reg (aReg1 a) &&& k) (v &&& k)) s

/-- MASL (R225): unsigned. -/
def execMasl (a : BitVec 4) (m : Xhiu) (s : State) : Answer :=
  maskedSearch [aReg a] m (fun k v s1 => alphaLe (v &&& k) (s1.reg (aReg a) &&& k)) s

/-- MASG (R226): unsigned. -/
def execMasg (a : BitVec 4) (m : Xhiu) (s : State) : Answer :=
  maskedSearch [aReg a] m (fun k v s1 => alphaGt (v &&& k) (s1.reg (aReg a) &&& k)) s

end Sys2Proof.Machine
end

