-- ==== Sys2Proof/Machine/Store.lean ====
section
/-! DEFINITION. Store instructions, f = 01 to 06 (40_store.md). -/

namespace Sys2Proof.Machine

/-- `StoreOperand(ins, v); P <- P + 1` (R100). -/
def storeValue (own : List RegAddr) (j : BitVec 4) (m : Xhiu) (v : State → Word) (s : State) : Answer :=
  (storeOperand own j m v s).toNext fun _ s1 => s1.advance

/-- The storing of a constant by an f = 05 instruction (R118). -/
def storeConst (j : BitVec 4) (m : Xhiu) (v : Word) (s : State) : Answer :=
  storeValue [] j m (fun _ => v) s

/-- What `F05Arith` does at the operand address: read, add k, write back, and skip as `F05_SKIP` says (R119). -/
def f05At (a : BitVec 4) (p : Part) (u : Addr) (k : Word) (s : State) : Answer :=
  if isRegAddr u ∧ p ≠ .w then .refused (.partialWordOfRegister s)
  else (opRead u s).andThen fun w s1 =>
    (opWrite u (fieldPut p w (onesAdd (fieldGet p w) k)) s1).toNext fun _ s2 =>
      s2.skipIf (Config.f05Skip a (fieldGet p w) (onesAdd (fieldGet p w) k))

/-- `F05Arith(ins, k)` (R119), with a the instruction's a field. -/
def f05Arith (a j : BitVec 4) (m : Xhiu) (k : Word) (s : State) : Answer :=
  match designate s.cfg.qwMode j with
  | .part p => (effAddr m s).andThen fun u s1 => f05At a p u k s1
  | .u => .refused (.storeToImmediate s)
  | .xu => .refused (.storeToImmediate s)

/-- SA (R101). -/
def execSa (j a : BitVec 4) (m : Xhiu) (s : State) : Answer :=
  storeValue [aReg a] j m (fun s1 => s1.reg (aReg a)) s

/-- SNA (R102). -/
def execSna (j a : BitVec 4) (m : Xhiu) (s : State) : Answer :=
  storeValue [aReg a] j m (fun s1 => onesNeg (s1.reg (aReg a))) s

/-- SMA (R103). -/
def execSma (j a : BitVec 4) (m : Xhiu) (s : State) : Answer :=
  storeValue [aReg a] j m (fun s1 => onesMag (s1.reg (aReg a))) s

/-- SR (R104). No R register can be incremented, so R97 never refuses it. -/
def execSr (j a : BitVec 4) (m : Xhiu) (s : State) : Answer :=
  storeValue [rReg a] j m (fun s1 => s1.reg (rReg a)) s

/-- SZ (R105). -/
def execSz (j : BitVec 4) (m : Xhiu) (s : State) : Answer := storeConst j m 0o000000000000#36 s

/-- SNZ (R106). -/
def execSnz (j : BitVec 4) (m : Xhiu) (s : State) : Answer := storeConst j m 0o777777777777#36 s

/-- SP1 (R107). -/
def execSp1 (j : BitVec 4) (m : Xhiu) (s : State) : Answer := storeConst j m 0o000000000001#36 s

/-- SN1 (R108). -/
def execSn1 (j : BitVec 4) (m : Xhiu) (s : State) : Answer := storeConst j m 0o777777777776#36 s

/-- SFS: six Fieldata spaces (R65, R109). -/
def execSfs (j : BitVec 4) (m : Xhiu) (s : State) : Answer := storeConst j m 0o050505050505#36 s

/-- SFZ: six Fieldata zeros (R65, R110). -/
def execSfz (j : BitVec 4) (m : Xhiu) (s : State) : Answer := storeConst j m 0o606060606060#36 s

/-- SAS: four ASCII spaces (R65, R111). -/
def execSas (j : BitVec 4) (m : Xhiu) (s : State) : Answer := storeConst j m 0o040040040040#36 s

/-- INC (R112). -/
def execInc (j : BitVec 4) (m : Xhiu) (s : State) : Answer := f05Arith 0o10#4 j m 0o000000000001#36 s

/-- DEC (R113). -/
def execDec (j : BitVec 4) (m : Xhiu) (s : State) : Answer := f05Arith 0o11#4 j m 0o777777777776#36 s

/-- INC2 (R114). -/
def execInc2 (j : BitVec 4) (m : Xhiu) (s : State) : Answer := f05Arith 0o12#4 j m 0o000000000002#36 s

/-- DEC2 (R115). -/
def execDec2 (j : BitVec 4) (m : Xhiu) (s : State) : Answer := f05Arith 0o13#4 j m 0o777777777775#36 s

/-- ENZ (R116), with the a field that the word has, 14 to 17. -/
def execEnz (j a : BitVec 4) (m : Xhiu) (s : State) : Answer := f05Arith a j m 0o000000000000#36 s

/-- SX (R117). -/
def execSx (j a : BitVec 4) (m : Xhiu) (s : State) : Answer :=
  storeValue [xReg a] j m (fun s1 => s1.reg (xReg a)) s

end Sys2Proof.Machine
end

