-- ==== Sys2Proof/Machine/Test.lean ====
section
/-! DEFINITION. Test instructions, f = 50 to 61 (46_test.md). -/

namespace Sys2Proof.Machine

/-- `v <- Operand(ins); Skip(c)` (R200): no register and no storage is written but by index incrementation. -/
def testSkip (own : List RegAddr) (j : BitVec 4) (m : Xhiu) (c : Word → State → Bool) (s : State) : Answer :=
  (ownOperand own j m s).toNext fun v s1 => s1.skipIf (c v s1)

/-- TZ (R201): both zeros; a is ignored. -/
def execTz (j _a : BitVec 4) (m : Xhiu) (s : State) : Answer := testSkip [] j m (fun v _ => onesIsZero v) s

/-- TNZ (R202). -/
def execTnz (j _a : BitVec 4) (m : Xhiu) (s : State) : Answer := testSkip [] j m (fun v _ => !onesIsZero v) s

/-- TE (R203): all 36 bits. -/
def execTe (j a : BitVec 4) (m : Xhiu) (s : State) : Answer :=
  testSkip [aReg a] j m (fun v s1 => v == s1.reg (aReg a)) s

/-- TNE (R204). -/
def execTne (j a : BitVec 4) (m : Xhiu) (s : State) : Answer :=
  testSkip [aReg a] j m (fun v s1 => v != s1.reg (aReg a)) s

/-- TLE (R205). -/
def execTle (j a : BitVec 4) (m : Xhiu) (s : State) : Answer :=
  testSkip [aReg a] j m (fun v s1 => ordLe v (s1.reg (aReg a))) s

/-- TG (R206). -/
def execTg (j a : BitVec 4) (m : Xhiu) (s : State) : Answer :=
  testSkip [aReg a] j m (fun v s1 => ordGt v (s1.reg (aReg a))) s

/-- TW (R207). -/
def execTw (j a : BitVec 4) (m : Xhiu) (s : State) : Answer :=
  testSkip [aReg a, aReg1 a] j m (fun v s1 => ordWithin (s1.reg (aReg a)) (s1.reg (aReg1 a)) v) s

/-- TNW (R208). -/
def execTnw (j a : BitVec 4) (m : Xhiu) (s : State) : Answer :=
  testSkip [aReg a, aReg1 a] j m (fun v s1 => !ordWithin (s1.reg (aReg a)) (s1.reg (aReg1 a)) v) s

/-- TP (R209): bit 35 is 0; a is ignored. -/
def execTp (j _a : BitVec 4) (m : Xhiu) (s : State) : Answer := testSkip [] j m (fun v _ => !v.msb) s

/-- TN (R210): bit 35 is 1; a is ignored. -/
def execTn (j _a : BitVec 4) (m : Xhiu) (s : State) : Answer := testSkip [] j m (fun v _ => v.msb) s

end Sys2Proof.Machine
end

