-- ==== Sys2Proof/Machine/Execute.lean ====
section
/-! DEFINITION. EX (49_f72.md R247): the word at U is executed by its own instruction's meaning, P still the address of
the EX. -/

namespace Sys2Proof.Machine

/-- The meaning of an instruction that EX runs: its own, and `onEx` for another EX. -/
def execWith (onEx : BitVec 4 → Xhiu → State → Answer) (i : Instr) (s : State) : Answer :=
  match i with
  | .sa j a m => execSa j a m s
  | .sna j a m => execSna j a m s
  | .sma j a m => execSma j a m s
  | .sr j a m => execSr j a m s
  | .sz j m => execSz j m s
  | .snz j m => execSnz j m s
  | .sp1 j m => execSp1 j m s
  | .sn1 j m => execSn1 j m s
  | .sfs j m => execSfs j m s
  | .sfz j m => execSfz j m s
  | .sas j m => execSas j m s
  | .inc j m => execInc j m s
  | .dec j m => execDec j m s
  | .inc2 j m => execInc2 j m s
  | .dec2 j m => execDec2 j m s
  | .enz j a m => execEnz j a m s
  | .sx j a m => execSx j a m s
  | .ldj a m => execLdj a m s
  | .lij a m => execLij a m s
  | .lpd a m => execLpd a m s
  | .spd a m => execSpd a m s
  | .lbj a m => execLbj a m s
  | .la j a m => execLa j a m s
  | .lna j a m => execLna j a m s
  | .lma j a m => execLma j a m s
  | .lnma j a m => execLnma j a m s
  | .aa j a m => execAa j a m s
  | .ana j a m => execAna j a m s
  | .ama j a m => execAma j a m s
  | .anma j a m => execAnma j a m s
  | .au j a m => execAu j a m s
  | .anu j a m => execAnu j a m s
  | .bt j a m => execBt j a m s
  | .lr j a m => execLr j a m s
  | .ax j a m => execAx j a m s
  | .anx j a m => execAnx j a m s
  | .lxm j a m => execLxm j a m s
  | .lx j a m => execLx j a m s
  | .mi j a m => execMi j a m s
  | .msi j a m => execMsi j a m s
  | .mf j a m => execMf j a m s
  | .bm a m => execBm a m s
  | .bmt a m => execBmt a m s
  | .btc a m => execBtc a m s
  | .bc a m => execBc a m s
  | .bpd a m => execBpd a m s
  | .pdb a m => execPdb a m s
  | .edit a m => execEdit a m s
  | .bi a m => execBi a m s
  | .bdi a m => execBdi a m s
  | .ib a m => execIb a m s
  | .dib a m => execDib a m s
  | .bf a m => execBf a m s
  | .bdf a m => execBdf a m s
  | .fb a m => execFb a m s
  | .dfb a m => execDfb a m s
  | .di j a m => execDi j a m s
  | .dsf j a m => execDsf j a m s
  | .df j a m => execDf j a m s
  | .qb a m => execQb a m s
  | .bq a m => execBq a m s
  | .qbh a m => execQbh a m s
  | .bqh a m => execBqh a m s
  | .qdb a m => execQdb a m s
  | .dbq a m => execDbq a m s
  | .ba a m => execBa a m s
  | .ban a m => execBan a m s
  | .or j a m => execOr j a m s
  | .xor j a m => execXor j a m s
  | .and j a m => execAnd j a m s
  | .mlu j a m => execMlu j a m s
  | .tep j a m => execTep j a m s
  | .top j a m => execTop j a m s
  | .xli j a m => execXli j a m s
  | .tlem j a m => execTlem j a m s
  | .tz j a m => execTz j a m s
  | .tnz j a m => execTnz j a m s
  | .te j a m => execTe j a m s
  | .tne j a m => execTne j a m s
  | .tle j a m => execTle j a m s
  | .tg j a m => execTg j a m s
  | .tw j a m => execTw j a m s
  | .tnw j a m => execTnw j a m s
  | .tp j a m => execTp j a m s
  | .tn j a m => execTn j a m s
  | .se j a m => execSe j a m s
  | .sne j a m => execSne j a m s
  | .sle j a m => execSle j a m s
  | .sg j a m => execSg j a m s
  | .sw j a m => execSw j a m s
  | .snw j a m => execSnw j a m s
  | .jgd j a m => execJgd j a m s
  | .mse a m => execMse a m s
  | .msne a m => execMsne a m s
  | .msle a m => execMsle a m s
  | .msg a m => execMsg a m s
  | .msw a m => execMsw a m s
  | .msnw a m => execMsnw a m s
  | .masl a m => execMasl a m s
  | .masg a m => execMasg a m s
  | .da a m => execDa a m s
  | .dan a m => execDan a m s
  | .ds a m => execDs a m s
  | .dl a m => execDl a m s
  | .dln a m => execDln a m s
  | .dlm a m => execDlm a m s
  | .djz a m => execDjz a m s
  | .dte a m => execDte a m s
  | .slj a m => execSlj a m s
  | .jps a m => execJps a m s
  | .jns a m => execJns a m s
  | .ah a m => execAh a m s
  | .anh a m => execAnh a m s
  | .at_ a m => execAt a m s
  | .ant a m => execAnt a m s
  | .ex a m => onEx a m s
  | .er a m => execEr a m s
  | .srs a m => execSrs a m s
  | .lrs a m => execLrs a m s

/-- `Exec(w)` (R279): decode, then the instruction, or the invalid-code interrupt. -/
def execWordWith (run : Instr → State → Answer) (w : Word) (s : State) : Answer :=
  match decode w with
  | some i => run i s
  | none => raiseInvalid w s

/-- EX, at most `n` of them in a chain: `U <- EA(ins)`, the main-storage word at U, and that word executed. -/
def exLoop : Nat → Xhiu → State → Answer
  | 0, _, _ => .fault .endlessExecution
  | n + 1, m, s =>
    ((effAddr m s).bind fun u s1 => memRead .exWord u s1).andThen fun w s2 =>
      execWordWith (execWith fun _ m' s' => exLoop n m' s') w s2

/-- EX (R247): a chain of EX that never ends has no result (V11; log 13). a is ignored. -/
def execEx (_a : BitVec 4) (m : Xhiu) (s : State) : Answer := exLoop Config.chainBound m s

end Sys2Proof.Machine
end

