-- ==== Sys2Proof/Machine/Dispatch.lean ====
section
/-! DEFINITION. exec: one arm per instruction, each one call of its meaning. -/

namespace Sys2Proof.Machine

def exec (i : Instr) (s : State) : Host.Outcome State Fault Refusal :=
  match i with
  -- Stores, f = 01 to 06 (40_store.md)
  | .sa j a m => Sys2Proof.Machine.execSa j a m s
  | .sna j a m => Sys2Proof.Machine.execSna j a m s
  | .sma j a m => Sys2Proof.Machine.execSma j a m s
  | .sr j a m => Sys2Proof.Machine.execSr j a m s
  | .sz j m => Sys2Proof.Machine.execSz j m s
  | .snz j m => Sys2Proof.Machine.execSnz j m s
  | .sp1 j m => Sys2Proof.Machine.execSp1 j m s
  | .sn1 j m => Sys2Proof.Machine.execSn1 j m s
  | .sfs j m => Sys2Proof.Machine.execSfs j m s
  | .sfz j m => Sys2Proof.Machine.execSfz j m s
  | .sas j m => Sys2Proof.Machine.execSas j m s
  | .inc j m => Sys2Proof.Machine.execInc j m s
  | .dec j m => Sys2Proof.Machine.execDec j m s
  | .inc2 j m => Sys2Proof.Machine.execInc2 j m s
  | .dec2 j m => Sys2Proof.Machine.execDec2 j m s
  | .enz j a m => Sys2Proof.Machine.execEnz j a m s
  | .sx j a m => Sys2Proof.Machine.execSx j a m s
  -- Bank and PSR, f = 07 (41_bank_psr.md)
  | .ldj a m => Sys2Proof.Machine.execLdj a m s
  | .lij a m => Sys2Proof.Machine.execLij a m s
  | .lpd a m => Sys2Proof.Machine.execLpd a m s
  | .spd a m => Sys2Proof.Machine.execSpd a m s
  | .lbj a m => Sys2Proof.Machine.execLbj a m s
  -- Loads and adds, f = 10 to 27 (42_load_add.md)
  | .la j a m => Sys2Proof.Machine.execLa j a m s
  | .lna j a m => Sys2Proof.Machine.execLna j a m s
  | .lma j a m => Sys2Proof.Machine.execLma j a m s
  | .lnma j a m => Sys2Proof.Machine.execLnma j a m s
  | .aa j a m => Sys2Proof.Machine.execAa j a m s
  | .ana j a m => Sys2Proof.Machine.execAna j a m s
  | .ama j a m => Sys2Proof.Machine.execAma j a m s
  | .anma j a m => Sys2Proof.Machine.execAnma j a m s
  | .au j a m => Sys2Proof.Machine.execAu j a m s
  | .anu j a m => Sys2Proof.Machine.execAnu j a m s
  | .bt j a m => Sys2Proof.Machine.execBt j a m s
  | .lr j a m => Sys2Proof.Machine.execLr j a m s
  | .ax j a m => Sys2Proof.Machine.execAx j a m s
  | .anx j a m => Sys2Proof.Machine.execAnx j a m s
  | .lxm j a m => Sys2Proof.Machine.execLxm j a m s
  | .lx j a m => Sys2Proof.Machine.execLx j a m s
  -- Multiply and divide, f = 30, 31, 32, 34, 35, 36 (43_multiply_divide.md)
  | .mi j a m => Sys2Proof.Machine.execMi j a m s
  | .msi j a m => Sys2Proof.Machine.execMsi j a m s
  | .mf j a m => Sys2Proof.Machine.execMf j a m s
  -- Byte and conversion (flag 1110), f = 33, 37 (44_byte_1110.md)
  | .bm a m => Sys2Proof.Machine.execBm a m s
  | .bmt a m => Sys2Proof.Machine.execBmt a m s
  | .btc a m => Sys2Proof.Machine.execBtc a m s
  | .bc a m => Sys2Proof.Machine.execBc a m s
  | .bpd a m => Sys2Proof.Machine.execBpd a m s
  | .pdb a m => Sys2Proof.Machine.execPdb a m s
  | .edit a m => Sys2Proof.Machine.execEdit a m s
  | .bi a m => Sys2Proof.Machine.execBi a m s
  | .bdi a m => Sys2Proof.Machine.execBdi a m s
  | .ib a m => Sys2Proof.Machine.execIb a m s
  | .dib a m => Sys2Proof.Machine.execDib a m s
  | .bf a m => Sys2Proof.Machine.execBf a m s
  | .bdf a m => Sys2Proof.Machine.execBdf a m s
  | .fb a m => Sys2Proof.Machine.execFb a m s
  | .dfb a m => Sys2Proof.Machine.execDfb a m s
  -- Multiply and divide, f = 30, 31, 32, 34, 35, 36 (43_multiply_divide.md)
  | .di j a m => Sys2Proof.Machine.execDi j a m s
  | .dsf j a m => Sys2Proof.Machine.execDsf j a m s
  | .df j a m => Sys2Proof.Machine.execDf j a m s
  -- Byte and conversion (flag 1110), f = 33, 37 (44_byte_1110.md)
  | .qb a m => Sys2Proof.Machine.execQb a m s
  | .bq a m => Sys2Proof.Machine.execBq a m s
  | .qbh a m => Sys2Proof.Machine.execQbh a m s
  | .bqh a m => Sys2Proof.Machine.execBqh a m s
  | .qdb a m => Sys2Proof.Machine.execQdb a m s
  | .dbq a m => Sys2Proof.Machine.execDbq a m s
  | .ba a m => Sys2Proof.Machine.execBa a m s
  | .ban a m => Sys2Proof.Machine.execBan a m s
  -- Logical, parity and index, f = 40 to 47 (45_logical.md)
  | .or j a m => Sys2Proof.Machine.execOr j a m s
  | .xor j a m => Sys2Proof.Machine.execXor j a m s
  | .and j a m => Sys2Proof.Machine.execAnd j a m s
  | .mlu j a m => Sys2Proof.Machine.execMlu j a m s
  | .tep j a m => Sys2Proof.Machine.execTep j a m s
  | .top j a m => Sys2Proof.Machine.execTop j a m s
  | .xli j a m => Sys2Proof.Machine.execXli j a m s
  | .tlem j a m => Sys2Proof.Machine.execTlem j a m s
  -- Tests, f = 50 to 61 (46_test.md)
  | .tz j a m => Sys2Proof.Machine.execTz j a m s
  | .tnz j a m => Sys2Proof.Machine.execTnz j a m s
  | .te j a m => Sys2Proof.Machine.execTe j a m s
  | .tne j a m => Sys2Proof.Machine.execTne j a m s
  | .tle j a m => Sys2Proof.Machine.execTle j a m s
  | .tg j a m => Sys2Proof.Machine.execTg j a m s
  | .tw j a m => Sys2Proof.Machine.execTw j a m s
  | .tnw j a m => Sys2Proof.Machine.execTnw j a m s
  | .tp j a m => Sys2Proof.Machine.execTp j a m s
  | .tn j a m => Sys2Proof.Machine.execTn j a m s
  -- Searches, f = 62 to 67, and f = 71 with j = 00 to 07 (47_search.md)
  | .se j a m => Sys2Proof.Machine.execSe j a m s
  | .sne j a m => Sys2Proof.Machine.execSne j a m s
  | .sle j a m => Sys2Proof.Machine.execSle j a m s
  | .sg j a m => Sys2Proof.Machine.execSg j a m s
  | .sw j a m => Sys2Proof.Machine.execSw j a m s
  | .snw j a m => Sys2Proof.Machine.execSnw j a m s
  -- JGD, f = 70, and double words, f = 71 with j = 10 to 17 (48_f70_f71.md)
  | .jgd j a m => Sys2Proof.Machine.execJgd j a m s
  -- Searches, f = 62 to 67, and f = 71 with j = 00 to 07 (47_search.md)
  | .mse a m => Sys2Proof.Machine.execMse a m s
  | .msne a m => Sys2Proof.Machine.execMsne a m s
  | .msle a m => Sys2Proof.Machine.execMsle a m s
  | .msg a m => Sys2Proof.Machine.execMsg a m s
  | .msw a m => Sys2Proof.Machine.execMsw a m s
  | .msnw a m => Sys2Proof.Machine.execMsnw a m s
  | .masl a m => Sys2Proof.Machine.execMasl a m s
  | .masg a m => Sys2Proof.Machine.execMasg a m s
  -- JGD, f = 70, and double words, f = 71 with j = 10 to 17 (48_f70_f71.md)
  | .da a m => Sys2Proof.Machine.execDa a m s
  | .dan a m => Sys2Proof.Machine.execDan a m s
  | .ds a m => Sys2Proof.Machine.execDs a m s
  | .dl a m => Sys2Proof.Machine.execDl a m s
  | .dln a m => Sys2Proof.Machine.execDln a m s
  | .dlm a m => Sys2Proof.Machine.execDlm a m s
  | .djz a m => Sys2Proof.Machine.execDjz a m s
  | .dte a m => Sys2Proof.Machine.execDte a m s
  -- f = 72 (49_f72.md)
  | .slj a m => Sys2Proof.Machine.execSlj a m s
  | .jps a m => Sys2Proof.Machine.execJps a m s
  | .jns a m => Sys2Proof.Machine.execJns a m s
  | .ah a m => Sys2Proof.Machine.execAh a m s
  | .anh a m => Sys2Proof.Machine.execAnh a m s
  | .at_ a m => Sys2Proof.Machine.execAt a m s
  | .ant a m => Sys2Proof.Machine.execAnt a m s
  | .ex a m => Sys2Proof.Machine.execEx a m s
  | .er a m => Sys2Proof.Machine.execEr a m s
  | .srs a m => Sys2Proof.Machine.execSrs a m s
  | .lrs a m => Sys2Proof.Machine.execLrs a m s

end Sys2Proof.Machine
end

