-- ==== Sys2Proof/Machine/Step.lean ====
section
/-! DEFINITION. One step of the machine (60_exceptions.md R279), and the placing of a word where it is fetched. -/

namespace Sys2Proof.Machine

/-- `Step`: fetch the word at P from main storage and execute it (R279). -/
def step (s : State) : Host.Outcome State Fault Refusal :=
  (fetch s).andThen fun w s1 => execWordWith exec w s1

/-- The state with the bits `w` as the word that the next step fetches: the host's loading of one word at P (R291;
log 21). An address outside main storage is taken in. -/
def State.withFetchWord (s : State) (_nbits w : Nat) : State :=
  placeWord s (BitVec.ofNat 36 w)

end Sys2Proof.Machine
end

