-- ==== Sys2Proof/Machine/Run.lean ====
section
/-! DEFINITION. The host's loop of 60_exceptions.md R279: how a run ends (70_reset_and_hazards.md R292). -/

namespace Sys2Proof.Machine

/-- How a run is after a number of steps (R292): at `END`, stopped by a raise or stuck, refused, or still running. -/
inductive RunEnd where
  /-- `P = END` before a fetch: the word at `END` is not fetched. -/
  | atEnd (s : State)
  /-- A raise, the normal end of a program by ER included; or a step with no result. -/
  | raised (f : Fault)
  /-- A refuse: the run is unmodelled from there. -/
  | refused (r : Refusal)
  /-- The run goes on. -/
  | running (s : State)
deriving DecidableEq, Repr

/-- `Run(GRS, Mem, P)` for at most `n` steps (R279). -/
def runFor : Nat → State → RunEnd
  | 0, s => if s.p = s.cfg.endAddr then .atEnd s else .running s
  | n + 1, s =>
    if s.p = s.cfg.endAddr then .atEnd s
    else
      match step s with
      | .next s1 => runFor n s1
      | .fault f => .raised f
      | .refused r => .refused r

end Sys2Proof.Machine
end

