-- ==== Sys2Proof/Safety.lean ====
section
/-! DEFINITION. The terms that claims are stated in: the well-formed states, what address formation and what an
instruction may change, the spec's tables of codes and of partial words, the repetitions of a search and of a block
transfer, and the runs that stay inside the spec. -/

namespace Sys2Proof.Machine

/-- The invariant of every state a run goes through: the storage is in its canonical form, every listed word has an
address that exists, and `MEM_WORDS` is at most `2^18` (R9, R58). -/
abbrev State.wf (s : State) : Prop :=
  s.mem.wf ∧ (∀ c ∈ s.mem.cells, c.1 < s.cfg.memWords) ∧ s.cfg.memWords ≤ 2 ^ 18

/-- `t` is `s` but for the modifiers of X1 to X15: all that the formation of an address may change (R92). -/
structure OnlyModifiers (s t : State) : Prop where
  mem : t.mem = s.mem
  p : t.p = s.p
  cfg : t.cfg = s.cfg
  reg : ∀ r : RegAddr, r.toNat = 0 ∨ 0o17 < r.toNat → t.reg r = s.reg r
  increment : ∀ k : BitVec 4, t.increment k = s.increment k

/-- The case R97 refuses: index incrementation of a register in `own`, those the instruction uses through its a
field. -/
def UsesOwn (own : List RegAddr) (m : Xhiu) : Prop := m.h = true ∧ m.x ≠ 0 ∧ xReg m.x ∈ own

/-- `t` is `s` but for the registers `rs`, the storage words `ws` and P: the frame of an instruction. -/
structure ChangesOnly (rs : List RegAddr) (ws : List Nat) (s t : State) : Prop where
  reg : ∀ r, r ∉ rs → t.reg r = s.reg r
  word : ∀ a, a ∉ ws → t.mem.read a = s.mem.read a
  cfg : t.cfg = s.cfg

/-- A store of the partial word `p` at U is one the spec gives an effect (R56, R58, R95). -/
def Storable (p : Part) (u : Addr) (s : State) : Prop :=
  if u.toNat < 0o200 then p = .w else u.toNat < s.cfg.memWords

/-- What a store of `v` in the partial word `p` at U leaves: the whole register, or the storage word with the field
replaced, and nothing else but P (R56, R95). -/
def Stored (p : Part) (u : Addr) (v : Word) (s t : State) : Prop :=
  if u.toNat < 0o200 then t.reg (u.setWidth 7) = v ∧ ChangesOnly [u.setWidth 7] [] s t
  else t.mem.read u.toNat = fieldPut p (s.mem.read u.toNat) v ∧ ChangesOnly [] [u.toNat] s t

/-- The word an operand access at U finds: the register or the storage word (R56). -/
def wordAt (u : Addr) (s : State) : Word :=
  if u.toNat < 0o200 then s.reg (u.setWidth 7) else s.mem.read u.toNat

/-! ### Classes of instructions, by mnemonic -/

/-- The instructions that may set P to an address they form (R27), and EX, which does what the executed word does. -/
def jumpers : List String := ["JGD", "DJZ", "SLJ", "JPS", "JNS", "EX"]

/-- The instructions that may skip: parity, modifier, test, search and DTE (R190, R198, R200, R212, R238), and the five
of R119. -/
def skippers : List String :=
  ["INC", "DEC", "INC2", "DEC2", "ENZ", "TEP", "TOP", "TLEM", "TZ", "TNZ", "TE", "TNE", "TLE", "TG", "TW", "TNW",
    "TP", "TN", "SE", "SNE", "SLE", "SG", "SW", "SNW", "MSE", "MSNE", "MSLE", "MSG", "MSW", "MSNW", "MASL", "MASG",
    "DTE"]

/-- The instructions that may write main storage (R54). -/
def storers : List String :=
  ["SA", "SNA", "SMA", "SR", "SZ", "SNZ", "SP1", "SN1", "SFS", "SFZ", "SAS", "INC", "DEC", "INC2", "DEC2", "ENZ",
    "SX", "BT", "DS", "SLJ", "EX"]

/-- The instructions that repeat under the count in R1 (R296), and EX, which may run one. -/
def repeaters : List String :=
  ["BT", "SE", "SNE", "SLE", "SG", "SW", "SNW", "MSE", "MSNE", "MSLE", "MSG", "MSW", "MSNW", "MASL", "MASG", "EX"]

/-- The instructions that read `Operand(ins)` and no more storage, each with the registers it uses through its a field
(R97, R130, R150, R190, R200). -/
def operandInstrs (j a : BitVec 4) (m : Xhiu) : List (Instr × List RegAddr) :=
  [(.la j a m, [aReg a]), (.lna j a m, [aReg a]), (.lma j a m, [aReg a]), (.lnma j a m, [aReg a]),
    (.aa j a m, [aReg a]), (.ana j a m, [aReg a]), (.ama j a m, [aReg a]), (.anma j a m, [aReg a]),
    (.au j a m, [aReg a, aReg1 a]), (.anu j a m, [aReg a, aReg1 a]), (.lr j a m, [rReg a]), (.ax j a m, [xReg a]),
    (.anx j a m, [xReg a]), (.lxm j a m, [xReg a]), (.lx j a m, [xReg a]), (.mi j a m, [aReg a, aReg1 a]),
    (.msi j a m, [aReg a]), (.mf j a m, [aReg a, aReg1 a]), (.di j a m, [aReg a, aReg1 a]),
    (.dsf j a m, [aReg a, aReg1 a]), (.df j a m, [aReg a, aReg1 a]), (.or j a m, [aReg a, aReg1 a]),
    (.xor j a m, [aReg a, aReg1 a]), (.and j a m, [aReg a, aReg1 a]), (.mlu j a m, [aReg a, aReg1 a]),
    (.tep j a m, [aReg a]), (.top j a m, [aReg a]), (.xli j a m, [xReg a]), (.tlem j a m, [xReg a]),
    (.tz j a m, []), (.tnz j a m, []), (.te j a m, [aReg a]), (.tne j a m, [aReg a]), (.tle j a m, [aReg a]),
    (.tg j a m, [aReg a]), (.tw j a m, [aReg a, aReg1 a]), (.tnw j a m, [aReg a, aReg1 a]), (.tp j a m, []),
    (.tn j a m, [])]

/-- The instructions that form an address and no partial word, each with the registers it uses through its a field
(R97, R230, R239, R241 to R246). -/
def addressInstrs (j a : BitVec 4) (m : Xhiu) : List (Instr × List RegAddr) :=
  [(.jgd j a m, [BitVec.ofNat 7 (j.toNat * 16 + a.toNat)]), (.da a m, [aReg a, aReg1 a]),
    (.dan a m, [aReg a, aReg1 a]), (.ds a m, [aReg a, aReg1 a]), (.dl a m, [aReg a, aReg1 a]),
    (.dln a m, [aReg a, aReg1 a]), (.dlm a m, [aReg a, aReg1 a]), (.djz a m, [aReg a, aReg1 a]),
    (.dte a m, [aReg a, aReg1 a]), (.jps a m, [aReg a]), (.jns a m, [aReg a]), (.ah a m, [aReg a]),
    (.anh a m, [aReg a]), (.at_ a m, [aReg a]), (.ant a m, [aReg a])]

/-- The stores of a register, each with the register it uses through its a field and the word it stores (R100 to R104,
R117). -/
def registerStores (j a : BitVec 4) (m : Xhiu) : List (Instr × List RegAddr × (State → Word)) :=
  [(.sa j a m, [aReg a], fun s => s.reg (aReg a)), (.sna j a m, [aReg a], fun s => ~~~s.reg (aReg a)),
    (.sma j a m, [aReg a], fun s => if (s.reg (aReg a)).msb then ~~~s.reg (aReg a) else s.reg (aReg a)),
    (.sr j a m, [rReg a], fun s => s.reg (rReg a)), (.sx j a m, [xReg a], fun s => s.reg (xReg a))]

/-- The stores of a constant, each with its word (R105 to R111). -/
def constantStores (j : BitVec 4) (m : Xhiu) : List (Instr × Word) :=
  [(.sz j m, 0o000000000000#36), (.snz j m, 0o777777777777#36), (.sp1 j m, 0o000000000001#36),
    (.sn1 j m, 0o777777777776#36), (.sfs j m, 0o050505050505#36), (.sfz j m, 0o606060606060#36),
    (.sas j m, 0o040040040040#36)]

/-- The five of R119, each with the a field of its word and the constant it adds (R112 to R116). -/
def arithmeticStores (j a : BitVec 4) (m : Xhiu) : List (Instr × BitVec 4 × Word) :=
  [(.inc j m, 0o10#4, 0o000000000001#36), (.dec j m, 0o11#4, 0o777777777776#36),
    (.inc2 j m, 0o12#4, 0o000000000002#36), (.dec2 j m, 0o13#4, 0o777777777775#36),
    (.enz j a m, a, 0o000000000000#36)]

/-- The searches of f = 62 to 67, each with the registers it uses through its a field and its condition on the operand
(R213 to R218). -/
def plainSearches (j a : BitVec 4) (m : Xhiu) (s : State) : List (Instr × List RegAddr × (Word → Bool)) :=
  [(.se j a m, [aReg a], fun v => v = s.reg (aReg a)), (.sne j a m, [aReg a], fun v => v ≠ s.reg (aReg a)),
    (.sle j a m, [aReg a], fun v => v.toInt ≤ (s.reg (aReg a)).toInt),
    (.sg j a m, [aReg a], fun v => v.toInt > (s.reg (aReg a)).toInt),
    (.sw j a m, [aReg a, aReg1 a], fun v =>
      (s.reg (aReg a)).toInt < v.toInt ∧ v.toInt ≤ (s.reg (aReg1 a)).toInt),
    (.snw j a m, [aReg a, aReg1 a], fun v =>
      ¬((s.reg (aReg a)).toInt < v.toInt ∧ v.toInt ≤ (s.reg (aReg1 a)).toInt))]

/-- The searches of f = 71, the same, with the mask `R[2]` on both sides (R219 to R226). -/
def maskedSearches (a : BitVec 4) (m : Xhiu) (s : State) : List (Instr × List RegAddr × (Word → Bool)) :=
  let k := s.reg (rReg 2)
  let lo := s.reg (aReg a) &&& k
  let hi := s.reg (aReg1 a) &&& k
  [(.mse a m, [aReg a], fun v => v &&& k = lo), (.msne a m, [aReg a], fun v => v &&& k ≠ lo),
    (.msle a m, [aReg a], fun v => (v &&& k).toInt ≤ lo.toInt),
    (.msg a m, [aReg a], fun v => (v &&& k).toInt > lo.toInt),
    (.msw a m, [aReg a, aReg1 a], fun v => lo.toInt < (v &&& k).toInt ∧ (v &&& k).toInt ≤ hi.toInt),
    (.msnw a m, [aReg a, aReg1 a], fun v => ¬(lo.toInt < (v &&& k).toInt ∧ (v &&& k).toInt ≤ hi.toInt)),
    (.masl a m, [aReg a], fun v => (v &&& k).toNat ≤ lo.toNat),
    (.masg a m, [aReg a], fun v => (v &&& k).toNat > lo.toNat)]

/-! ### Tables of the spec -/

/-- The decision procedure of R86 over f, j and a: the code is listed. -/
def listedCode (f j a : Nat) : Bool :=
  if f = 0o00 then false
  else if f ≤ 0o04 ∨ f = 0o06 ∨ f = 0o22 then decide (j ≤ 0o15)
  else if f = 0o05 then decide (a ≠ 0o07)
  else if f = 0o07 then decide (j = 0o12 ∨ j = 0o14 ∨ j = 0o15 ∨ j = 0o17)
  else if f = 0o33 then decide (j ≠ 0o02)
  else if f = 0o37 then decide (j ≤ 0o07)
  else if f = 0o72 then decide ((0o01 ≤ j ∧ j ≤ 0o11) ∨ j = 0o16 ∨ j = 0o17)
  else decide (f ≤ 0o71)

/-- The codes that carry the flag `1110` (R86): those of f = 33 and f = 37. -/
def flaggedCode (f j a : Nat) : Bool := listedCode f j a && decide (f = 0o33 ∨ f = 0o37)

/-- The j table of R53: the lowest bit of the field, its width, and whether a read extends its sign; none for the two
immediates. -/
def partField (qw : Bool) (j : Nat) : Option (Nat × Nat × Bool) :=
  match j with
  | 0o00 => some (0, 36, false)
  | 0o01 => some (0, 18, false)
  | 0o02 => some (18, 18, false)
  | 0o03 => some (0, 18, true)
  | 0o04 => some (18, if qw then 9 else 18, !qw)
  | 0o05 => some (0, if qw then 9 else 12, !qw)
  | 0o06 => some (if qw then 9 else 12, if qw then 9 else 12, !qw)
  | 0o07 => some (if qw then 27 else 24, if qw then 9 else 12, !qw)
  | 0o10 => some (0, 6, false)
  | 0o11 => some (6, 6, false)
  | 0o12 => some (12, 6, false)
  | 0o13 => some (18, 6, false)
  | 0o14 => some (24, 6, false)
  | 0o15 => some (30, 6, false)
  | _ => none

/-! ### Repetitions -/

/-- `n` repetitions of a search in which every operand was read and none met the condition (R212): from `s` to `t`,
the count one less after each. -/
inductive Unmatched (next : State → Res Word) (cond : Word → Bool) : Nat → State → State → Prop where
  | zero (s : State) : Unmatched next cond 0 s s
  | succ {n : Nat} {s s1 t : State} {v : Word} (read : next s = .ok v s1) (no : cond v = false)
      (rest : Unmatched next cond n (s1.setRepeatCount (s.repeatCount - 1)) t) : Unmatched next cond (n + 1) s t

/-- What every repetition of a search keeps (R212): all but the count in `R[1][17:0]` and, with x not 0 and h = 1, the
modifier of `X[x]`. -/
structure SearchFrame (m : Xhiu) (s t : State) : Prop where
  mem : t.mem = s.mem
  p : t.p = s.p
  cfg : t.cfg = s.cfg
  reg : ∀ r, r ≠ rReg 1 → r ≠ xReg m.x ∨ m.x = 0 ∨ m.h = false → t.reg r = s.reg r
  increment : t.increment m.x = s.increment m.x
  upper : highHalf (t.reg (rReg 1)) = highHalf (s.reg (rReg 1))

/-- `n` repetitions of a block transfer, every word moved (R141): from `s` to `t`, the count one less after each. -/
inductive Transfers (p : Part) (a : BitVec 4) (m : Xhiu) : Nat → State → State → Prop where
  | zero (s : State) : Transfers p a m 0 s s
  | succ {n : Nat} {s s1 t : State} (move : btMove p a m s = .ok () s1)
      (rest : Transfers p a m n ((btIndex a m s1).setRepeatCount (s.repeatCount - 1)) t) :
      Transfers p a m (n + 1) s t

/-! ### Stops and runs -/

/-- The state a refusal of the spec leaves to the host (R279); a refusal by mnemonic alone leaves none. -/
def Refusal.state : Refusal → Option State
  | .noSemanticsInSource _ s => some s
  | .spdOrLbj s => some s
  | .byteInstructionOf1110 s => some s
  | .partialWordOfRegister s => some s
  | .doubleWordAcrossGrs s => some s
  | .indirectWordAtGrs s => some s
  | .indirectOnRepeated s => some s
  | .immediateIndexedIndirect s => some s
  | .storeToImmediate s => some s
  | .ownIndexIncrement s => some s
  | _ => none

/-- Some number of steps, each answering a next state, leads from `s` to the state. -/
inductive Reaches (s : State) : State → Prop where
  | refl : Reaches s s
  | step {t u : State} : Reaches s t → Machine.step t = .next u → Reaches s u

/-- The end of a run that the spec gives: at `END`, by an interrupt, or not yet (R292); not a refusal, and not a step
without a result. -/
def RunEnd.specified : RunEnd → Bool
  | .atEnd _ => true
  | .raised (.interrupt _ _) => true
  | .raised .endlessIndirection => false
  | .raised .endlessExecution => false
  | .refused _ => false
  | .running _ => true

/-- A run of any length from `s` stays inside the spec. -/
def SafeFrom (s : State) : Prop := ∀ n, (runFor n s).specified = true

end Sys2Proof.Machine
end

