-- ==== Sys2Proof/WellFormed.lean ====
section
/-! DEFINITION. What an encoding admits beyond the widths of its fields (30_encoding.md R72, R73, R86): the j ranges
written "0-15" and the a range of ENZ. -/

namespace Sys2Proof

/-- j is in the range the source writes "0-15", octal (R72, R86): a partial word, not an immediate. -/
def partialJ (j : BitVec 4) : Bool := j.toNat ≤ 0o15

/-- a is in the range the source writes "14-17", octal (R73, R116). -/
def enzA (a : BitVec 4) : Bool := 0o14 ≤ a.toNat

/-- The fields of the instruction are ones its line lists: an assembler can write it. -/
def Instr.wellFormed : Instr → Bool
  | .sa j _ _ => partialJ j
  | .sna j _ _ => partialJ j
  | .sma j _ _ => partialJ j
  | .sr j _ _ => partialJ j
  | .sz _ _ => true
  | .snz _ _ => true
  | .sp1 _ _ => true
  | .sn1 _ _ => true
  | .sfs _ _ => true
  | .sfz _ _ => true
  | .sas _ _ => true
  | .inc _ _ => true
  | .dec _ _ => true
  | .inc2 _ _ => true
  | .dec2 _ _ => true
  | .enz _ a _ => enzA a
  | .sx j _ _ => partialJ j
  | .ldj _ _ => true
  | .lij _ _ => true
  | .lpd _ _ => true
  | .spd _ _ => true
  | .lbj _ _ => true
  | .la _ _ _ => true
  | .lna _ _ _ => true
  | .lma _ _ _ => true
  | .lnma _ _ _ => true
  | .aa _ _ _ => true
  | .ana _ _ _ => true
  | .ama _ _ _ => true
  | .anma _ _ _ => true
  | .au _ _ _ => true
  | .anu _ _ _ => true
  | .bt j _ _ => partialJ j
  | .lr _ _ _ => true
  | .ax _ _ _ => true
  | .anx _ _ _ => true
  | .lxm _ _ _ => true
  | .lx _ _ _ => true
  | .mi _ _ _ => true
  | .msi _ _ _ => true
  | .mf _ _ _ => true
  | .bm _ _ => true
  | .bmt _ _ => true
  | .btc _ _ => true
  | .bc _ _ => true
  | .bpd _ _ => true
  | .pdb _ _ => true
  | .edit _ _ => true
  | .bi _ _ => true
  | .bdi _ _ => true
  | .ib _ _ => true
  | .dib _ _ => true
  | .bf _ _ => true
  | .bdf _ _ => true
  | .fb _ _ => true
  | .dfb _ _ => true
  | .di _ _ _ => true
  | .dsf _ _ _ => true
  | .df _ _ _ => true
  | .qb _ _ => true
  | .bq _ _ => true
  | .qbh _ _ => true
  | .bqh _ _ => true
  | .qdb _ _ => true
  | .dbq _ _ => true
  | .ba _ _ => true
  | .ban _ _ => true
  | .or _ _ _ => true
  | .xor _ _ _ => true
  | .and _ _ _ => true
  | .mlu _ _ _ => true
  | .tep _ _ _ => true
  | .top _ _ _ => true
  | .xli _ _ _ => true
  | .tlem _ _ _ => true
  | .tz _ _ _ => true
  | .tnz _ _ _ => true
  | .te _ _ _ => true
  | .tne _ _ _ => true
  | .tle _ _ _ => true
  | .tg _ _ _ => true
  | .tw _ _ _ => true
  | .tnw _ _ _ => true
  | .tp _ _ _ => true
  | .tn _ _ _ => true
  | .se _ _ _ => true
  | .sne _ _ _ => true
  | .sle _ _ _ => true
  | .sg _ _ _ => true
  | .sw _ _ _ => true
  | .snw _ _ _ => true
  | .jgd _ _ _ => true
  | .mse _ _ => true
  | .msne _ _ => true
  | .msle _ _ => true
  | .msg _ _ => true
  | .msw _ _ => true
  | .msnw _ _ => true
  | .masl _ _ => true
  | .masg _ _ => true
  | .da _ _ => true
  | .dan _ _ => true
  | .ds _ _ => true
  | .dl _ _ => true
  | .dln _ _ => true
  | .dlm _ _ => true
  | .djz _ _ => true
  | .dte _ _ => true
  | .slj _ _ => true
  | .jps _ _ => true
  | .jns _ _ => true
  | .ah _ _ => true
  | .anh _ _ => true
  | .at_ _ _ => true
  | .ant _ _ => true
  | .ex _ _ => true
  | .er _ _ => true
  | .srs _ _ => true
  | .lrs _ _ => true

/-- The table's `decodes` (R90): false on LBJ only, whose code decodes to SPD (R85, R125). -/
def Instr.decodes : Instr → Bool
  | .sa _ _ _ => true
  | .sna _ _ _ => true
  | .sma _ _ _ => true
  | .sr _ _ _ => true
  | .sz _ _ => true
  | .snz _ _ => true
  | .sp1 _ _ => true
  | .sn1 _ _ => true
  | .sfs _ _ => true
  | .sfz _ _ => true
  | .sas _ _ => true
  | .inc _ _ => true
  | .dec _ _ => true
  | .inc2 _ _ => true
  | .dec2 _ _ => true
  | .enz _ _ _ => true
  | .sx _ _ _ => true
  | .ldj _ _ => true
  | .lij _ _ => true
  | .lpd _ _ => true
  | .spd _ _ => true
  | .lbj _ _ => false
  | .la _ _ _ => true
  | .lna _ _ _ => true
  | .lma _ _ _ => true
  | .lnma _ _ _ => true
  | .aa _ _ _ => true
  | .ana _ _ _ => true
  | .ama _ _ _ => true
  | .anma _ _ _ => true
  | .au _ _ _ => true
  | .anu _ _ _ => true
  | .bt _ _ _ => true
  | .lr _ _ _ => true
  | .ax _ _ _ => true
  | .anx _ _ _ => true
  | .lxm _ _ _ => true
  | .lx _ _ _ => true
  | .mi _ _ _ => true
  | .msi _ _ _ => true
  | .mf _ _ _ => true
  | .bm _ _ => true
  | .bmt _ _ => true
  | .btc _ _ => true
  | .bc _ _ => true
  | .bpd _ _ => true
  | .pdb _ _ => true
  | .edit _ _ => true
  | .bi _ _ => true
  | .bdi _ _ => true
  | .ib _ _ => true
  | .dib _ _ => true
  | .bf _ _ => true
  | .bdf _ _ => true
  | .fb _ _ => true
  | .dfb _ _ => true
  | .di _ _ _ => true
  | .dsf _ _ _ => true
  | .df _ _ _ => true
  | .qb _ _ => true
  | .bq _ _ => true
  | .qbh _ _ => true
  | .bqh _ _ => true
  | .qdb _ _ => true
  | .dbq _ _ => true
  | .ba _ _ => true
  | .ban _ _ => true
  | .or _ _ _ => true
  | .xor _ _ _ => true
  | .and _ _ _ => true
  | .mlu _ _ _ => true
  | .tep _ _ _ => true
  | .top _ _ _ => true
  | .xli _ _ _ => true
  | .tlem _ _ _ => true
  | .tz _ _ _ => true
  | .tnz _ _ _ => true
  | .te _ _ _ => true
  | .tne _ _ _ => true
  | .tle _ _ _ => true
  | .tg _ _ _ => true
  | .tw _ _ _ => true
  | .tnw _ _ _ => true
  | .tp _ _ _ => true
  | .tn _ _ _ => true
  | .se _ _ _ => true
  | .sne _ _ _ => true
  | .sle _ _ _ => true
  | .sg _ _ _ => true
  | .sw _ _ _ => true
  | .snw _ _ _ => true
  | .jgd _ _ _ => true
  | .mse _ _ => true
  | .msne _ _ => true
  | .msle _ _ => true
  | .msg _ _ => true
  | .msw _ _ => true
  | .msnw _ _ => true
  | .masl _ _ => true
  | .masg _ _ => true
  | .da _ _ => true
  | .dan _ _ => true
  | .ds _ _ => true
  | .dl _ _ => true
  | .dln _ _ => true
  | .dlm _ _ => true
  | .djz _ _ => true
  | .dte _ _ => true
  | .slj _ _ => true
  | .jps _ _ => true
  | .jns _ _ => true
  | .ah _ _ => true
  | .anh _ _ => true
  | .at_ _ _ => true
  | .ant _ _ => true
  | .ex _ _ => true
  | .er _ _ => true
  | .srs _ _ => true
  | .lrs _ _ => true

end Sys2Proof
end

