-- ==== Sys2Proof/Certificates/Slice0/Obligations.lean ====
section
/-! DEFINITION. The statements for the provers. A statement about an instruction takes as hypotheses what the forming
of its address or operand answers (`effAddr`, `operand`, characterised by statements of their own), and `s1` is the
state that this leaves. -/

section Statements

open Sys2Proof Sys2Proof.Machine

/-- O1. Decoding the word of a well-formed instruction gives that instruction back, every field at every value (R79,
R80, R84, R86). -/
def Obligations.DecodeOfEncode : Prop :=
  ∀ i : Instr, i.wellFormed = true → i.decodes = true → decode (encode i) = some i

/-- O2. A word that decodes is the word of the instruction it decodes to, which is well-formed (R79, R80, R81, R86). -/
def Obligations.EncodeOfDecode : Prop :=
  ∀ (w : Word) (i : Instr), decode w = some i → i.wellFormed = true ∧ i.decodes = true ∧ encode i = w

/-- O3. A code decodes exactly when the table of R86 lists it; 14224 codes are listed, 2160 are not, 368 carry the flag
1110 (R86, R84, R81, R96). -/
def Obligations.ListedCodes : Prop :=
  (∀ (f : BitVec 6) (j a : BitVec 4) (m : Xhiu),
    (decodeFields f j a m).isSome = listedCode f.toNat j.toNat a.toNat) ∧
  (∀ (f : BitVec 6) (j a : BitVec 4) (m : Xhiu) (i : Instr), decodeFields f j a m = some i →
    i.flag1110 = flaggedCode f.toNat j.toNat a.toNat) ∧
  (∀ w w' : Word, fieldF w = fieldF w' → fieldJ w = fieldJ w' → fieldA w = fieldA w' →
    (decode w).map Instr.mnemonic = (decode w').map Instr.mnemonic) ∧
  (let triples := List.range 16384
   let listed := fun n => listedCode (n / 256) (n / 16 % 16) (n % 16)
   let flagged := fun n => flaggedCode (n / 256) (n / 16 % 16) (n % 16)
   (triples.filter listed).length = 14224 ∧ (triples.filter fun n => !listed n).length = 2160 ∧
   (triples.filter flagged).length = 368 ∧ (triples.filter fun n => listed n && !flagged n).length = 13856 ∧
   (triples.filter fun n => !listed n || flagged n).length = 2528)

/-- O4. f = 07 j = 17 decodes as SPD; LBJ encodes to the same word, is never decoded, and both refuse (R85). -/
def Obligations.LbjHasTheCodeOfSpd : Prop :=
  (∀ (a : BitVec 4) (m : Xhiu), encode (.lbj a m) = encode (.spd a m) ∧
    decode (encode (.lbj a m)) = some (.spd a m) ∧
    ∀ s : State, exec (.spd a m) s = .refused (.spdOrLbj s) ∧ exec (.lbj a m) s = .refused (.spdOrLbj s)) ∧
  (∀ (w : Word) (a : BitVec 4) (m : Xhiu), decode w ≠ some (.lbj a m))

/-- O5. Fourteen words of the spec decode to the instructions they stand for, and the word of all ones to nothing (R79,
R80, R104, R105, R131, R141, R230, R240, R86). -/
def Obligations.SampleWordsDecode : Prop :=
  decode 0o040020001000#36 = some (.sr 0 1 ⟨0, false, false, 0o1000⟩) ∧
  decode 0o051000001000#36 = some (.sz 2 ⟨0, false, false, 0o1000⟩) ∧
  decode 0o075000001000#36 = some (.ldj 0 ⟨0, false, false, 0o1000⟩) ∧
  decode 0o107420777776#36 = some (.la 0o17 1 ⟨0, true, true, 0o177776⟩) ∧
  decode 0o220041400000#36 = some (.bt 0 2 ⟨1, true, false, 0⟩) ∧
  decode 0o300100001000#36 = some (.mi 0 4 ⟨0, false, false, 0o1000⟩) ∧
  decode 0o467060000002#36 = some (.xli 0o16 3 ⟨0, false, false, 2⟩) ∧
  decode 0o500000001000#36 = some (.tz 0 0 ⟨0, false, false, 0o1000⟩) ∧
  decode 0o620101400000#36 = some (.se 0 4 ⟨1, true, false, 0⟩) ∧
  decode 0o710501400000#36 = some (.msne 4 ⟨1, true, false, 0⟩) ∧
  decode 0o702020003000#36 = some (.jgd 4 1 ⟨0, false, false, 0o3000⟩) ∧
  decode 0o714100001000#36 = some (.da 4 ⟨0, false, false, 0o1000⟩) ∧
  decode 0o720400003000#36 = some (.slj 0 ⟨0, false, false, 0o3000⟩) ∧
  decode 0o724000003000#36 = some (.ex 0 ⟨0, false, false, 0o3000⟩) ∧
  decode 0o777777777777#36 = none

/-- O6. A step executes the instruction that the word of main storage at P decodes to, or faults where P does not exist
(R279, R27, R35, R265). -/
def Obligations.StepRunsDecodedInstruction : Prop :=
  ∀ s : State,
    (∀ i : Instr, s.p.toNat < s.cfg.memWords → decode (s.mem.read s.p.toNat) = some i → step s = exec i s) ∧
    (∀ i : Instr, s.p.toNat < s.cfg.memWords → i.wellFormed = true → i.decodes = true →
      s.mem.read s.p.toNat = encode i → step s = exec i s) ∧
    (s.cfg.memWords ≤ s.p.toNat → step s = .fault (.interrupt (.storageFault s.p .fetch) s))

/-- O7. An invalid code interrupts at decode through location 241 octal, with (f, j, a), the word and P recorded and
nothing changed (R260, R261, R247, R76). That the word recorded under EX is the word EX runs is the model's reading
(DEDUCED, log 17). -/
def Obligations.InvalidCodeInterrupts : Prop :=
  (∀ s : State, s.p.toNat < s.cfg.memWords → decode (s.mem.read s.p.toNat) = none →
    let w := s.mem.read s.p.toNat
    step s = .fault (.interrupt (.invalidCode (fieldF w) (fieldJ w) (fieldA w) w) s)) ∧
  (∀ (a : BitVec 4) (m : Xhiu) (s s1 : State) (u : Addr), effAddr m s = .ok u s1 →
    u.toNat < s.cfg.memWords → decode (s.mem.read u.toNat) = none →
    let w := s.mem.read u.toNat
    exec (.ex a m) s = .fault (.interrupt (.invalidCode (fieldF w) (fieldJ w) (fieldA w) w) s1) ∧
    s1.p = s.p ∧ OnlyModifiers s s1) ∧
  (∀ (f : BitVec 6) (j a : BitVec 4) (w : Word), Event.location (.invalidCode f j a w) = some 0o241#18)

/-- O8. Every step keeps the storage in its canonical form, inside MEM_WORDS, and MEM_WORDS at most 2^18 (R35, R58, R9). -/
def Obligations.StepKeepsWellFormed : Prop :=
  ∀ s t : State, s.wf → step s = .next t → t.wf

/-- O9. The state at reset is well-formed (R38, R290). -/
def Obligations.ResetIsWellFormed : Prop :=
  State.reset.wf

/-- O10. No step changes MODEL, QWMODE, MEM_WORDS, START or END (R30, R37, R279). That the parameters stand in the state
is the model's choice (DESIGN CHOICE, log 23). -/
def Obligations.StepKeepsParameters : Prop :=
  ∀ s t : State, step s = .next t → t.cfg = s.cfg

/-- O11. At reset P is START; the model holds zero in every register and word the spec leaves unspecified (its own
choice, logs 2 to 8) (R38, R290, R9). -/
def Obligations.ResetValues : Prop :=
  State.reset.p = State.reset.cfg.start ∧ (∀ r, State.reset.reg r = 0#36) ∧
  (∀ a, State.reset.mem.read a = 0#36) ∧
  State.reset.cfg = { model := .m1100_20, qwMode := false, memWords := 2 ^ 18, start := 0o1000#18, endAddr := 0o1007#18 }

/-- O12. P goes to P + 1, or for the instructions that skip to P + 2, wherever an instruction other than a jump answers
a next state (R27, R190, R119, R200, R212). -/
def Obligations.ProgramAddressAfterAStep : Prop :=
  ∀ (i : Instr) (s t : State), exec i s = .next t → i.mnemonic ∉ jumpers →
    t.p = s.p + 1 ∨ (t.p = s.p + 2 ∧ i.mnemonic ∈ skippers)

/-- O13. Only the stores, BT, DS, SLJ and what EX runs can change main storage (R54, R200, R212). -/
def Obligations.OnlyStoresWriteStorage : Prop :=
  ∀ (i : Instr) (s t : State), exec i s = .next t → i.mnemonic ∉ storers → t.mem = s.mem

/-- O14. A raise or a refusal leaves P at the instruction and ends the run; a run ends at END with the word there not
fetched; no meaning is missing (R279, R292, R269, R10). -/
def Obligations.StopsLeaveP : Prop :=
  (∀ (i : Instr) (s t : State) (e : Event), exec i s = .fault (.interrupt e t) → t.p = s.p ∧ t.cfg = s.cfg) ∧
  (∀ (i : Instr) (s t : State) (r : Refusal), exec i s = .refused r → r.state = some t →
    t.p = s.p ∧ t.cfg = s.cfg) ∧
  (∀ (i : Instr) (s : State) (n : String), exec i s ≠ .refused (.notModelled n)) ∧
  (∀ (n : Nat) (s : State),
    (s.p = s.cfg.endAddr → runFor n s = .atEnd s) ∧
    (s.p ≠ s.cfg.endAddr → runFor 0 s = .running s ∧
      (∀ t, step s = .next t → runFor (n + 1) s = runFor n t) ∧
      (∀ f, step s = .fault f → runFor (n + 1) s = .raised f) ∧
      (∀ r, step s = .refused r → runFor (n + 1) s = .refused r))) ∧
  (∀ (n k : Nat) (s : State),
    ((∀ t, runFor n s ≠ .running t) → runFor (n + k) s = runFor n s) ∧
    (∀ t, runFor n s = .running t → runFor (n + k) s = runFor k t)) ∧
  (∀ (n : Nat) (s : State),
    (∀ t, runFor n s = .atEnd t → Reaches s t ∧ t.p = s.cfg.endAddr) ∧
    (∀ f, runFor n s = .raised f → ∃ t, Reaches s t ∧ t.p ≠ s.cfg.endAddr ∧ step t = .fault f) ∧
    (∀ r, runFor n s = .refused r → ∃ t, Reaches s t ∧ t.p ≠ s.cfg.endAddr ∧ step t = .refused r) ∧
    (∀ t, runFor n s = .running t → Reaches s t ∧ t.p ≠ s.cfg.endAddr))

/-- O15. An interrupt finds the repetitions before it done, and nothing else but the modifiers that address formation
incremented (R269, R267, R92, R212, R141, R247). -/
def Obligations.InterruptsArePrecise : Prop :=
  (∀ (i : Instr) (s t : State) (e : Event), exec i s = .fault (.interrupt e t) → i.mnemonic ∉ repeaters →
    OnlyModifiers s t) ∧
  (∀ (j a : BitVec 4) (m : Xhiu) (s t : State) (e : Event),
    (∀ c ∈ plainSearches j a m s, exec c.1 s = .fault (.interrupt e t) →
      ∃ n s1, n < s.repeatCount.toNat ∧ Unmatched (operand j m) c.2.2 n s s1 ∧ t = stepIndex m s1 ∧
        t.repeatCount.toNat = s.repeatCount.toNat - n ∧ SearchFrame m s t) ∧
    (∀ c ∈ maskedSearches a m s, exec c.1 s = .fault (.interrupt e t) →
      ∃ n s1, n < s.repeatCount.toNat ∧ Unmatched (wholeOperand m) c.2.2 n s s1 ∧ t = stepIndex m s1 ∧
        t.repeatCount.toNat = s.repeatCount.toNat - n ∧ SearchFrame m s t) ∧
    (exec (.bt j a m) s = .fault (.interrupt e t) →
      ∃ p n, designate s.cfg.qwMode j = .part p ∧ n < s.repeatCount.toNat ∧ Transfers p a m n s t ∧
        t.repeatCount.toNat = s.repeatCount.toNat - n) ∧
    (exec (.ex a m) s = .fault (.interrupt e t) → OnlyModifiers s t ∨
      ∃ (i : Instr) (u : Addr) (s1 : State), decode (s.mem.read u.toNat) = some i ∧ i.mnemonic ∈ repeaters ∧
        i.mnemonic ≠ "EX" ∧ OnlyModifiers s s1 ∧ exec i s1 = .fault (.interrupt e t)))

/-- O16. With MEM_WORDS = 2^18 the storage fault cannot happen (R265, R58). -/
def Obligations.FullStorageNeverFaults : Prop :=
  ∀ s : State, s.cfg.memWords = 2 ^ 18 → ∀ (u : Addr) (k : AccessKind) (t : State),
    step s ≠ .fault (.interrupt (.storageFault u k) t) ∧
    ∀ i : Instr, exec i s ≠ .fault (.interrupt (.storageFault u k) t)

/-- O17. The word that withFetchWord places is the one the next step executes (R291, R279). That the placing stands for
the host's loading of one word is the model's reading (DEDUCED, log 21). -/
def Obligations.PlacedWordIsExecuted : Prop :=
  ∀ (s : State) (n w : Nat) (i : Instr), s.mem.wf → decode (BitVec.ofNat 36 w) = some i →
    step (s.withFetchWord n w) = exec i (s.withFetchWord n w) ∧ (s.withFetchWord n w).grs = s.grs ∧
    (s.withFetchWord n w).p = s.p

/-- O18. Two storages in canonical form that read the same everywhere are the same data (R35). The canonical form is the
model's choice (DESIGN CHOICE, log 1). -/
def Obligations.EqualStoragesAreEqualData : Prop :=
  ∀ m m' : Memory, m.wf → m'.wf → (∀ a, m.read a = m'.read a) → m = m'

/-- O19. A ones' complement sum is the integer sum when it fits, is it modulo 2^n - 1 always, and is -0 only for (-0) +
(-0) (R13). -/
def Obligations.OnesAddIsIntegerAddition : Prop :=
  ∀ (n : Nat) (a b : BitVec n), 0 < n →
    (onesAdd a b = BitVec.allOnes n ↔ a = BitVec.allOnes n ∧ b = BitVec.allOnes n) ∧
    (-(2 ^ (n - 1) - 1 : Int) ≤ onesVal a + onesVal b → onesVal a + onesVal b ≤ 2 ^ (n - 1) - 1 →
      onesVal (onesAdd a b) = onesVal a + onesVal b) ∧
    (2 ^ n - 1 : Int) ∣ onesVal (onesAdd a b) - (onesVal a + onesVal b)

/-- O20. neg_n, mag_n, iszero_n, ord_n and sub_n as functions of the integer value (R13). -/
def Obligations.OnesHelpersOnIntegers : Prop :=
  ∀ (n : Nat) (v w : BitVec n), onesVal (onesNeg v) = -onesVal v ∧ onesVal (onesMag v) = |onesVal v| ∧
    (onesIsZero v = true ↔ onesVal v = 0) ∧ ordKey v = v.toInt ∧ onesNeg v = ~~~v ∧
    onesSub v w = onesAdd v (~~~w)

/-- O21. Every j selects the field of R53: what a read delivers, bit by bit, and what a store writes back (R53). -/
def Obligations.PartialWordFields : Prop :=
  ∀ (qw : Bool) (j : BitVec 4) (w v : Word),
    match partField qw j.toNat with
    | some (lo, wd, sx) => ∃ p, designate qw j = .part p ∧
        (∀ k, k < 36 → (fieldGet p w).getLsbD k =
          if k < wd then w.getLsbD (lo + k) else sx && w.getLsbD (lo + wd - 1)) ∧
        (∀ k, k < 36 → (fieldPut p w v).getLsbD k =
          if lo ≤ k ∧ k < lo + wd then v.getLsbD (k - lo) else w.getLsbD k)
    | none => designate qw j = if j = 0o16#4 then .u else .xu

/-- O22. The effective address satisfies the equation of R92, level by level, and has no result exactly when the chain
never ends (R92, R93, R56, R58, R265). That an endless chain answers the fault endlessIndirection is the model's
reading of "no result" (DEDUCED, log 12). -/
def Obligations.EffectiveAddressEquation : Prop :=
  (∀ (m : Xhiu) (s : State),
    let u : Addr := if m.x = 0 then m.u.setWidth 18 else onesAdd (m.u.setWidth 18) (s.modifier m.x)
    let s1 := if m.x ≠ 0 ∧ m.h = true then s.bumpIndex m.x else s
    effAddr m s =
      if m.i = false then .ok u s1
      else if u.toNat < 0o200 then .refused (.indirectWordAtGrs s1)
      else if u.toNat < s.cfg.memWords then effAddr (xhiuOf (s.mem.read u.toNat)) s1
      else .raised (.interrupt (.storageFault u .indirectWord) s1)) ∧
  (∀ (s : State) (k : BitVec 4), ChangesOnly [xReg k] [] s (s.bumpIndex k) ∧ (s.bumpIndex k).p = s.p ∧
    (s.bumpIndex k).modifier k = onesAdd (s.modifier k) (s.increment k) ∧
    (s.bumpIndex k).increment k = s.increment k) ∧
  (∀ (m : Xhiu) (s : State), effAddr m s = .raised .endlessIndirection ↔
    ∀ n, effAddrLoop n m s = .raised .endlessIndirection)

/-- O23. j = 16 and 17 make the operand from h, i and u, or from the index sum, zero- or sign-extended, and read no
storage (R91). -/
def Obligations.ImmediateOperands : Prop :=
  ∀ (j : BitVec 4) (m : Xhiu) (s : State), j = 0o16#4 ∨ j = 0o17#4 →
    let extend := fun v : BitVec 18 => if j = 0o16#4 then v.setWidth 36 else v.signExtend 36
    (m.x = 0 → operand j m s = .ok (extend (BitVec.ofBool m.h ++ BitVec.ofBool m.i ++ m.u)) s) ∧
    (m.x ≠ 0 → m.i = true → operand j m s = .refused (.immediateIndexedIndirect s)) ∧
    (m.x ≠ 0 → m.i = false → operand j m s =
      .ok (extend (onesAdd (m.u.setWidth 18) (s.modifier m.x))) (if m.h = true then s.bumpIndex m.x else s))

/-- O24. An operand is a whole register below octal 200, a partial word of storage above, refused or a storage fault
otherwise (R94, R56, R58, R265, R92). -/
def Obligations.OperandAccesses : Prop :=
  ∀ (j : BitVec 4) (m : Xhiu) (s s1 : State) (p : Part) (u : Addr), designate s.cfg.qwMode j = .part p →
    effAddr m s = .ok u s1 → OnlyModifiers s s1 ∧
    (u.toNat < 0o200 → p = .w → operand j m s = .ok (s1.reg (u.setWidth 7)) s1) ∧
    (u.toNat < 0o200 → p ≠ .w → operand j m s = .refused (.partialWordOfRegister s1)) ∧
    (0o200 ≤ u.toNat → u.toNat < s.cfg.memWords → operand j m s = .ok (fieldGet p (s.mem.read u.toNat)) s1) ∧
    (0o200 ≤ u.toNat → s.cfg.memWords ≤ u.toNat →
      operand j m s = .raised (.interrupt (.storageFault u .operandRead) s1))

/-- O25. Where the operand faults or is refused, so does each of the 39 instructions that read one, and nothing is
written (R130, R150, R190, R200, R16). -/
def Obligations.OperandStopsEndTheInstruction : Prop :=
  ∀ (j a : BitVec 4) (m : Xhiu) (s : State), ∀ c ∈ operandInstrs j a m, ¬UsesOwn c.2 m →
    (∀ f, operand j m s = .raised f → exec c.1 s = .fault f ∧ ∀ e t, f = .interrupt e t → OnlyModifiers s t) ∧
    (∀ r, operand j m s = .refused r → exec c.1 s = .refused r ∧ ∀ t, r.state = some t → OnlyModifiers s t)

/-- O26. Index incrementation of a register that the instruction uses through its a field is refused, for every
instruction but BT (R97, R267). That it comes before everything else of the instruction, and which registers each
instruction uses, is the model's reading (DEDUCED, logs 15 and 16). -/
def Obligations.OwnIndexIncrementIsRefused : Prop :=
  ∀ (j a : BitVec 4) (m : Xhiu) (s : State),
    (∀ c ∈ operandInstrs j a m ++ addressInstrs j a m, UsesOwn c.2 m →
      exec c.1 s = .refused (.ownIndexIncrement s)) ∧
    (j.toNat ≤ 0o15 → ∀ c ∈ registerStores j a m, UsesOwn c.2.1 m →
      exec c.1 s = .refused (.ownIndexIncrement s)) ∧
    (m.i = false → ∀ c ∈ plainSearches j a m s ++ maskedSearches a m s, UsesOwn c.2.1 m →
      exec c.1 s = .refused (.ownIndexIncrement s))

/-- O27. SA, SNA, SMA, SR and SX write A, -A, |A|, R and X to the operand and nothing else (R101, R102, R103, R104,
R117, R95, R56). That the register is read after the address is formed is the model's reading of the rules (DEDUCED,
log 14). -/
def Obligations.RegisterStoresWriteTheOperand : Prop :=
  ∀ (j a : BitVec 4) (m : Xhiu) (s s1 : State) (p : Part) (u : Addr), s.mem.wf →
    designate s.cfg.qwMode j = .part p → effAddr m s = .ok u s1 → Storable p u s1 →
    OnlyModifiers s s1 ∧ ∀ c ∈ registerStores j a m, ¬UsesOwn c.2.1 m →
      ∃ t, exec c.1 s = .next t ∧ Stored p u (c.2.2 s1) s1 t ∧ t.p = s.p + 1

/-- O28. SZ, SNZ, SP1, SN1, SFS, SFZ and SAS write their constants to the operand and nothing else (R105, R106, R107,
R108, R109, R110, R111). -/
def Obligations.ConstantStoresWriteTheOperand : Prop :=
  ∀ (j : BitVec 4) (m : Xhiu) (s s1 : State) (p : Part) (u : Addr), s.mem.wf →
    designate s.cfg.qwMode j = .part p → effAddr m s = .ok u s1 → Storable p u s1 →
    OnlyModifiers s s1 ∧ ∀ c ∈ constantStores j m,
      ∃ t, exec c.1 s = .next t ∧ Stored p u c.2 s1 t ∧ t.p = s.p + 1

/-- O29. A store of a part of a register is refused, and one outside storage faults with nothing written (R95, R56, R58,
R265, R119). Which kind the fault of a part of a word records is the model's reading (DEDUCED, log 29). -/
def Obligations.StoresThatStop : Prop :=
  ∀ (j a : BitVec 4) (m : Xhiu) (s s1 : State) (p : Part) (u : Addr),
    designate s.cfg.qwMode j = .part p → effAddr m s = .ok u s1 → OnlyModifiers s s1 ∧
    (u.toNat < 0o200 → p ≠ .w →
      (∀ c ∈ registerStores j a m, ¬UsesOwn c.2.1 m → exec c.1 s = .refused (.partialWordOfRegister s1)) ∧
      (∀ c ∈ constantStores j m, exec c.1 s = .refused (.partialWordOfRegister s1)) ∧
      (∀ c ∈ arithmeticStores j a m, exec c.1 s = .refused (.partialWordOfRegister s1))) ∧
    (0o200 ≤ u.toNat → s.cfg.memWords ≤ u.toNat →
      let kind := if p = .w then AccessKind.operandWrite else .operandRead
      (∀ c ∈ registerStores j a m, ¬UsesOwn c.2.1 m →
        exec c.1 s = .fault (.interrupt (.storageFault u kind) s1)) ∧
      (∀ c ∈ constantStores j m, exec c.1 s = .fault (.interrupt (.storageFault u kind) s1)) ∧
      (∀ c ∈ arithmeticStores j a m, exec c.1 s = .fault (.interrupt (.storageFault u .operandRead) s1)))

/-- O30. The twelve instructions of f = 05 refuse j = 16 and 17 (R118, R119, R95). -/
def Obligations.F05ImmediateIsRefused : Prop :=
  ∀ (j a : BitVec 4) (m : Xhiu) (s : State), 0o16 ≤ j.toNat →
    (∀ c ∈ constantStores j m, exec c.1 s = .refused (.storeToImmediate s)) ∧
    (∀ c ∈ arithmeticStores j a m, exec c.1 s = .refused (.storeToImmediate s))

/-- O31. INC, DEC, INC2, DEC2 and ENZ add 1, -1, 2, -2 and 0 to the operand and skip as F05_SKIP says (R119, R112, R113,
R114, R115, R116). -/
def Obligations.F05ArithmeticAddsToTheOperand : Prop :=
  ∀ (j a : BitVec 4) (m : Xhiu) (s s1 : State) (p : Part) (u : Addr), s.mem.wf →
    designate s.cfg.qwMode j = .part p → effAddr m s = .ok u s1 → Storable p u s1 →
    OnlyModifiers s s1 ∧ ∀ c ∈ arithmeticStores j a m,
      let old := fieldGet p (wordAt u s1)
      let new := onesAdd old c.2.2
      ∃ t, exec c.1 s = .next t ∧ Stored p u new s1 t ∧
        t.p = if Config.f05Skip c.2.1 old new = true then s.p + 2 else s.p + 1

/-- O32. LA, LNA, LMA and LNMA load the operand, its complement, its magnitude and its negative magnitude into A (R131,
R132, R133, R134). -/
def Obligations.LoadsOfA : Prop :=
  ∀ (j a : BitVec 4) (m : Xhiu) (s s1 : State) (v : Word), operand j m s = .ok v s1 →
    ¬UsesOwn [aReg a] m → OnlyModifiers s s1 ∧
    ∀ c ∈ [(Instr.la j a m, v), (.lna j a m, ~~~v), (.lma j a m, if v.msb then ~~~v else v),
        (.lnma j a m, if v.msb then v else ~~~v)],
      ∃ t, exec c.1 s = .next t ∧ t.reg (aReg a) = c.2 ∧ ChangesOnly [aReg a] [] s1 t ∧ t.p = s.p + 1

/-- O33. AA, ANA, AMA and ANMA add the operand, its negative, its magnitude and its negative magnitude to A (R135, R136,
R137, R138). That A[a] is taken as the forming of the operand left it is the model's reading of the rules (DEDUCED,
log 14). -/
def Obligations.AddsToA : Prop :=
  ∀ (j a : BitVec 4) (m : Xhiu) (s s1 : State) (v : Word), operand j m s = .ok v s1 →
    ¬UsesOwn [aReg a] m → OnlyModifiers s s1 ∧
    let w := s1.reg (aReg a)
    ∀ c ∈ [(Instr.aa j a m, onesAdd w v), (.ana j a m, onesAdd w (~~~v)),
        (.ama j a m, onesAdd w (if v.msb then ~~~v else v)), (.anma j a m, onesAdd w (if v.msb then v else ~~~v))],
      ∃ t, exec c.1 s = .next t ∧ t.reg (aReg a) = c.2 ∧ ChangesOnly [aReg a] [] s1 t ∧ t.p = s.p + 1

/-- O34. AU, ANU, OR, XOR, AND and MLU leave A[a] and write A[a+1] (R139, R140, R191, R192, R193, R194). That A[a] is
taken as the forming of the operand left it is the model's reading of the rules (DEDUCED, log 14). -/
def Obligations.ResultsInTheNextA : Prop :=
  ∀ (j a : BitVec 4) (m : Xhiu) (s s1 : State) (v : Word), operand j m s = .ok v s1 →
    ¬UsesOwn [aReg a, aReg1 a] m → OnlyModifiers s s1 ∧
    let w := s1.reg (aReg a)
    let k := s1.reg (rReg 2)
    ∀ c ∈ [(Instr.au j a m, onesAdd w v), (.anu j a m, onesAdd w (~~~v)), (.or j a m, w ||| v),
        (.xor j a m, w ^^^ v), (.and j a m, w &&& v), (.mlu j a m, (v &&& k) ||| (w &&& ~~~k))],
      ∃ t, exec c.1 s = .next t ∧ t.reg (aReg1 a) = c.2 ∧ ChangesOnly [aReg1 a] [] s1 t ∧ t.reg (aReg a) = w ∧
        t.p = s.p + 1

/-- O35. LR, LX, AX, ANX, LXM and XLI write the R register, the X register, or one half of it (R142, R143, R144, R145,
R146, R197). That X[a] is taken as the forming of the operand left it is the model's reading of the rules (DEDUCED,
log 14). -/
def Obligations.LoadsOfXAndR : Prop :=
  ∀ (j a : BitVec 4) (m : Xhiu) (s s1 : State) (v : Word), operand j m s = .ok v s1 →
    OnlyModifiers s s1 ∧
    let x := s1.reg (xReg a)
    ∀ c ∈ [(Instr.lr j a m, rReg a, v), (.lx j a m, xReg a, v), (.ax j a m, xReg a, onesAdd x v),
        (.anx j a m, xReg a, onesAdd x (~~~v)),
        (.lxm j a m, xReg a, x.extractLsb' 18 18 ++ v.extractLsb' 0 18),
        (.xli j a m, xReg a, v.extractLsb' 0 18 ++ x.extractLsb' 0 18)],
      ¬UsesOwn [c.2.1] m →
      ∃ t, exec c.1 s = .next t ∧ t.reg c.2.1 = c.2.2 ∧ ChangesOnly [c.2.1] [] s1 t ∧ t.p = s.p + 1

/-- O36. MI, MSI and MF form the 72-bit product of the integer values, with the sign of the operands' signs (R150, R151,
R152, R153). -/
def Obligations.ProductsAreIntegerProducts : Prop :=
  ∀ (j a : BitVec 4) (m : Xhiu) (s s1 : State) (v : Word), operand j m s = .ok v s1 →
    ¬UsesOwn [aReg a] m → OnlyModifiers s s1 ∧
    ∃ d : DWord, onesVal d = onesVal (s1.reg (aReg a)) * onesVal v ∧
      d.msb = ((s1.reg (aReg a)).msb ^^ v.msb) ∧
      (∃ t, exec (.msi j a m) s = .next t ∧ t.reg (aReg a) = d.extractLsb' 0 36 ∧
        ChangesOnly [aReg a] [] s1 t ∧ t.p = s.p + 1) ∧
      (¬UsesOwn [aReg a, aReg1 a] m →
        (∃ t, exec (.mi j a m) s = .next t ∧ t.reg (aReg a) ++ t.reg (aReg1 a) = d ∧
          ChangesOnly [aReg a, aReg1 a] [] s1 t ∧ t.p = s.p + 1) ∧
        (∃ t, exec (.mf j a m) s = .next t ∧ t.reg (aReg a) ++ t.reg (aReg1 a) = d.rotateLeft 1 ∧
          ChangesOnly [aReg a, aReg1 a] [] s1 t ∧ t.p = s.p + 1))

/-- O37. DI, DSF and DF divide the integer values, truncating toward zero, the remainder with the dividend's sign (R150,
R154, R155, R156). -/
def Obligations.QuotientsAreIntegerQuotients : Prop :=
  ∀ (j a : BitVec 4) (m : Xhiu) (s s1 : State) (v : Word), operand j m s = .ok v s1 →
    ¬UsesOwn [aReg a, aReg1 a] m → onesVal v ≠ 0 → OnlyModifiers s s1 ∧
    let w := s1.reg (aReg a)
    let d : DWord := w ++ s1.reg (aReg1 a)
    ((onesVal d).natAbs / (onesVal v).natAbs < 2 ^ 35 →
      ∃ t, exec (.di j a m) s = .next t ∧ onesVal (t.reg (aReg a)) = (onesVal d).tdiv (onesVal v) ∧
        onesVal (t.reg (aReg1 a)) = (onesVal d).tmod (onesVal v) ∧ (t.reg (aReg a)).msb = (w.msb ^^ v.msb) ∧
        (t.reg (aReg1 a)).msb = w.msb ∧ ChangesOnly [aReg a, aReg1 a] [] s1 t ∧ t.p = s.p + 1) ∧
    ((onesVal w).natAbs * 2 ^ 35 / (onesVal v).natAbs < 2 ^ 35 →
      ∃ t, exec (.dsf j a m) s = .next t ∧
        onesVal (t.reg (aReg1 a)) = (onesVal w * 2 ^ 35).tdiv (onesVal v) ∧
        (t.reg (aReg1 a)).msb = (w.msb ^^ v.msb) ∧ ChangesOnly [aReg1 a] [] s1 t ∧ t.p = s.p + 1) ∧
    ((onesVal d).natAbs / 2 / (onesVal v).natAbs < 2 ^ 35 →
      ∃ t, exec (.df j a m) s = .next t ∧ onesVal (t.reg (aReg a)) = ((onesVal d).tdiv 2).tdiv (onesVal v) ∧
        onesVal (t.reg (aReg1 a)) = ((onesVal d).tdiv 2).tmod (onesVal v) ∧
        (t.reg (aReg a)).msb = (w.msb ^^ v.msb) ∧ (t.reg (aReg1 a)).msb = w.msb ∧
        ChangesOnly [aReg a, aReg1 a] [] s1 t ∧ t.p = s.p + 1)

/-- O38. DI, DSF and DF raise DivideFault for a zero divisor or a quotient of more than 35 bits, with A[a] and A[a+1]
unchanged (R264). -/
def Obligations.DivideFaults : Prop :=
  ∀ (j a : BitVec 4) (m : Xhiu) (s s1 : State) (v : Word), operand j m s = .ok v s1 →
    ¬UsesOwn [aReg a, aReg1 a] m → OnlyModifiers s s1 ∧
    let w := s1.reg (aReg a)
    let d : DWord := w ++ s1.reg (aReg1 a)
    (onesVal v = 0 ∨ 2 ^ 35 ≤ (onesVal d).natAbs / (onesVal v).natAbs →
      exec (.di j a m) s = .fault (.interrupt (.divideFault (encode (.di j a m))) s1)) ∧
    (onesVal v = 0 ∨ 2 ^ 35 ≤ (onesVal w).natAbs * 2 ^ 35 / (onesVal v).natAbs →
      exec (.dsf j a m) s = .fault (.interrupt (.divideFault (encode (.dsf j a m))) s1)) ∧
    (onesVal v = 0 ∨ 2 ^ 35 ≤ (onesVal d).natAbs / 2 / (onesVal v).natAbs →
      exec (.df j a m) s = .fault (.interrupt (.divideFault (encode (.df j a m))) s1))

/-- O39. The parity tests and the ten tests of f = 50 to 61 skip exactly when their condition holds, and write nothing
(R195, R196, R201, R202, R203, R204, R205, R206, R207, R208, R209, R210). That A[a] is taken as the forming of the
operand left it is the model's reading of the rules (DEDUCED, log 14). -/
def Obligations.TestsSkipOnTheirCondition : Prop :=
  ∀ (j a : BitVec 4) (m : Xhiu) (s s1 : State) (v : Word), operand j m s = .ok v s1 →
    OnlyModifiers s s1 ∧
    let w := s1.reg (aReg a)
    let hi := s1.reg (aReg1 a)
    let ones := ((List.range 36).map fun k => ((w &&& v).getLsbD k).toNat).sum
    ∀ c ∈ [(Instr.tep j a m, [aReg a], decide (ones % 2 = 0)), (.top j a m, [aReg a], decide (ones % 2 = 1)),
        (.tz j a m, [], decide (onesVal v = 0)), (.tnz j a m, [], decide (onesVal v ≠ 0)),
        (.te j a m, [aReg a], decide (v = w)), (.tne j a m, [aReg a], decide (v ≠ w)),
        (.tle j a m, [aReg a], decide (v.toInt ≤ w.toInt)), (.tg j a m, [aReg a], decide (v.toInt > w.toInt)),
        (.tw j a m, [aReg a, aReg1 a], decide (w.toInt < v.toInt ∧ v.toInt ≤ hi.toInt)),
        (.tnw j a m, [aReg a, aReg1 a], decide (¬(w.toInt < v.toInt ∧ v.toInt ≤ hi.toInt))),
        (.tp j a m, [], decide (v.getLsbD 35 = false)), (.tn j a m, [], decide (v.getLsbD 35 = true))],
      ¬UsesOwn c.2.1 m →
      ∃ t, exec c.1 s = .next t ∧ ChangesOnly [] [] s1 t ∧
        t.p = if c.2.2 = true then s.p + 2 else s.p + 1

/-- O40. TLEM compares the operand with the modifier, then increments the modifier, skip or not (R198). -/
def Obligations.TlemComparesThenIncrements : Prop :=
  ∀ (j a : BitVec 4) (m : Xhiu) (s s1 : State) (v : Word), operand j m s = .ok v s1 →
    ¬UsesOwn [xReg a] m → OnlyModifiers s s1 ∧
    ∃ t, exec (.tlem j a m) s = .next t ∧ ChangesOnly [xReg a] [] s1 t ∧
      t.modifier a = onesAdd (s1.modifier a) (s1.increment a) ∧ t.increment a = s1.increment a ∧
      t.p = if v.toInt ≤ (s1.modifier a).toNat then s.p + 2 else s.p + 1

/-- O41. SE, SNE, SLE, SG, SW and SNW stop at the first operand that meets the condition and skip, run the count out, or
stop where a repetition does (R212, R269, R213, R214, R215, R216, R217, R218, R265, R56). -/
def Obligations.PlainSearchesFindTheFirst : Prop :=
  ∀ (j a : BitVec 4) (m : Xhiu) (s : State), m.i = false → ∀ c ∈ plainSearches j a m s, ¬UsesOwn c.2.1 m →
    (∀ t, Unmatched (operand j m) c.2.2 s.repeatCount.toNat s t →
      exec c.1 s = .next t.advance ∧ t.repeatCount = 0 ∧ SearchFrame m s t) ∧
    (∀ (n : Nat) (s1 s2 : State) (v : Word), n < s.repeatCount.toNat →
      Unmatched (operand j m) c.2.2 n s s1 → operand j m s1 = .ok v s2 → c.2.2 v = true →
      ∃ t, exec c.1 s = .next t.skip ∧ t.repeatCount.toNat = s.repeatCount.toNat - n - 1 ∧ SearchFrame m s t ∧
        ∀ r : RegAddr, r ≠ rReg 1 → t.reg r = s2.reg r) ∧
    (∀ (n : Nat) (s1 : State), n < s.repeatCount.toNat → Unmatched (operand j m) c.2.2 n s s1 →
      let t := stepIndex m s1
      t.repeatCount.toNat = s.repeatCount.toNat - n ∧ SearchFrame m s t ∧
      (∀ f, operand j m s1 = .raised f →
        f = .interrupt (.storageFault (indexSum m s1) .operandRead) t ∧ exec c.1 s = .fault f) ∧
      (∀ r, operand j m s1 = .refused r → r = .partialWordOfRegister t ∧ exec c.1 s = .refused r))

/-- O42. The masked searches stop at the first whole word that meets the masked condition and skip, run the count out,
or stop where a read does (R212, R269, R219, R220, R221, R222, R223, R224, R225, R226, R265). -/
def Obligations.MaskedSearchesFindTheFirst : Prop :=
  ∀ (a : BitVec 4) (m : Xhiu) (s : State), m.i = false → ∀ c ∈ maskedSearches a m s, ¬UsesOwn c.2.1 m →
    (∀ t, Unmatched (wholeOperand m) c.2.2 s.repeatCount.toNat s t →
      exec c.1 s = .next t.advance ∧ t.repeatCount = 0 ∧ SearchFrame m s t) ∧
    (∀ (n : Nat) (s1 s2 : State) (v : Word), n < s.repeatCount.toNat →
      Unmatched (wholeOperand m) c.2.2 n s s1 → wholeOperand m s1 = .ok v s2 → c.2.2 v = true →
      ∃ t, exec c.1 s = .next t.skip ∧ t.repeatCount.toNat = s.repeatCount.toNat - n - 1 ∧ SearchFrame m s t ∧
        ∀ r : RegAddr, r ≠ rReg 1 → t.reg r = s2.reg r) ∧
    (∀ (n : Nat) (s1 : State), n < s.repeatCount.toNat → Unmatched (wholeOperand m) c.2.2 n s s1 →
      let t := stepIndex m s1
      t.repeatCount.toNat = s.repeatCount.toNat - n ∧ SearchFrame m s t ∧
      (∀ f, wholeOperand m s1 = .raised f →
        f = .interrupt (.storageFault (indexSum m s1) .operandRead) t ∧ exec c.1 s = .fault f) ∧
      (∀ r, exec c.1 s ≠ .refused r))

/-- O43. BT and the searches refuse i = 1 (R93, R141, R212). That a search with an immediate j, x = 0 and i = 1 is
refused too is the model's reading, R93 and R212 over R91 (DEDUCED, log 22). -/
def Obligations.RepeatedIndirectIsRefused : Prop :=
  ∀ (j a : BitVec 4) (m : Xhiu) (s : State), m.i = true →
    exec (.bt j a m) s = .refused (.indirectOnRepeated s) ∧
    ∀ c ∈ plainSearches j a m s ++ maskedSearches a m s, exec c.1 s = .refused (.indirectOnRepeated s)

/-- O44. BT with count 0 only advances P; else it moves one word, increments the index registers once each, and goes on
with the count one less (R141, R265, R58, R56). The kind that the fault of a part of a destination records (DEDUCED,
log 29), and the incrementations and the count as they are after the store (DEDUCED, log 26), are the model's
reading. -/
def Obligations.BlockTransferRepetition : Prop :=
  ∀ (j a : BitVec 4) (m : Xhiu) (s : State) (p : Part), m.i = false → designate s.cfg.qwMode j = .part p →
    let src : Addr := if m.x = 0 then m.u.setWidth 18 else onesAdd (m.u.setWidth 18) (s.modifier m.x)
    let dst : Addr := onesAdd (m.u.setWidth 18) (s.modifier a)
    let v := fieldGet p (wordAt src s)
    let moved := if dst.toNat < 0o200 then s.setReg (dst.setWidth 7) v
      else s.setWord dst (fieldPut p (s.mem.read dst.toNat) v)
    let stepped := if m.h = false then moved
      else if m.x = a ∨ m.x = 0 then moved.bumpIndex a else (moved.bumpIndex m.x).bumpIndex a
    (s.repeatCount = 0 → exec (.bt j a m) s = .next s.advance) ∧
    (s.repeatCount ≠ 0 →
      ((src.toNat < 0o200 ∨ dst.toNat < 0o200) → p ≠ .w →
        exec (.bt j a m) s = .refused (.partialWordOfRegister s)) ∧
      (p = .w ∨ (0o200 ≤ src.toNat ∧ 0o200 ≤ dst.toNat) →
        (0o200 ≤ src.toNat → s.cfg.memWords ≤ src.toNat →
          exec (.bt j a m) s = .fault (.interrupt (.storageFault src .operandRead) s)) ∧
        (src.toNat < 0o200 ∨ src.toNat < s.cfg.memWords → 0o200 ≤ dst.toNat → s.cfg.memWords ≤ dst.toNat →
          exec (.bt j a m) s = .fault (.interrupt (.storageFault dst
            (if p = .w then .operandWrite else .operandRead)) s)) ∧
        (src.toNat < 0o200 ∨ src.toNat < s.cfg.memWords → dst.toNat < 0o200 ∨ dst.toNat < s.cfg.memWords →
          exec (.bt j a m) s = exec (.bt j a m) (stepped.setRepeatCount (s.repeatCount - 1)))))

/-- O45. BT completes when every word of the block can be moved, with the count at 0 and P one further (R141, R212). -/
def Obligations.BlockTransferCompletes : Prop :=
  ∀ (j a : BitVec 4) (m : Xhiu) (s t : State) (p : Part), m.i = false → designate s.cfg.qwMode j = .part p →
    Transfers p a m s.repeatCount.toNat s t →
    exec (.bt j a m) s = .next t.advance ∧ t.repeatCount = 0 ∧ t.p = s.p ∧ t.cfg = s.cfg

/-- O46. BT of whole words with increments of 1 copies a block of n words to a block that does not overlap it (R141,
R24, R25, R59). -/
def Obligations.BlockTransferCopiesABlock : Prop :=
  ∀ (a : BitVec 4) (m : Xhiu) (s : State), s.wf → m.i = false → m.h = true → m.x ≠ 0 → m.x ≠ a →
    s.increment m.x = 1 → s.increment a = 1 →
    let n := s.repeatCount.toNat
    let src := m.u.toNat + (s.modifier m.x).toNat
    let dst := m.u.toNat + (s.modifier a).toNat
    0o200 ≤ src → 0o200 ≤ dst → src + n ≤ s.cfg.memWords → dst + n ≤ s.cfg.memWords →
    src + n < 2 ^ 18 - 1 → dst + n < 2 ^ 18 - 1 → src + n ≤ dst ∨ dst + n ≤ src →
    ∃ t, exec (.bt 0 a m) s = .next t ∧ (∀ k < n, t.mem.read (dst + k) = s.mem.read (src + k)) ∧
      (∀ b, b < dst ∨ dst + n ≤ b → t.mem.read b = s.mem.read b) ∧
      (t.modifier m.x).toNat = (s.modifier m.x).toNat + n ∧ (t.modifier a).toNat = (s.modifier a).toNat + n ∧
      t.increment m.x = 1 ∧ t.increment a = 1 ∧ t.repeatCount = 0 ∧
      highHalf (t.reg (rReg 1)) = highHalf (s.reg (rReg 1)) ∧
      (∀ r, r ≠ xReg m.x → r ≠ xReg a → r ≠ rReg 1 → t.reg r = s.reg r) ∧ t.p = s.p + 1 ∧ t.cfg = s.cfg

/-- O47. A double word is a register pair below octal 177, refused at 177, and two storage words above (R66, R52, R58,
R265). The second word at (U + 1) mod 2^18, address 0 at the top of storage, and the address that faults are R52 and
R58 over 00_scope.md R15 (DEDUCED, log 18). -/
def Obligations.DoubleOperandAccesses : Prop :=
  ∀ (u : Addr) (d : DWord) (s : State),
    (u.toNat < 0o177 → opRead2 u s = .ok (s.reg (u.setWidth 7) ++ s.reg ((u + 1).setWidth 7)) s ∧
      opWrite2 u d s = .ok () ((s.setReg (u.setWidth 7) (d.extractLsb' 36 36)).setReg ((u + 1).setWidth 7)
        (d.extractLsb' 0 36))) ∧
    (u.toNat = 0o177 → opRead2 u s = .refused (.doubleWordAcrossGrs s) ∧
      opWrite2 u d s = .refused (.doubleWordAcrossGrs s)) ∧
    (0o177 < u.toNat →
      (u.toNat < s.cfg.memWords → (u + 1).toNat < s.cfg.memWords →
        opRead2 u s = .ok (s.mem.read u.toNat ++ s.mem.read (u + 1).toNat) s ∧
        opWrite2 u d s = .ok () ((s.setWord u (d.extractLsb' 36 36)).setWord (u + 1) (d.extractLsb' 0 36))) ∧
      (s.cfg.memWords ≤ u.toNat →
        opRead2 u s = .raised (.interrupt (.storageFault u .operandRead) s) ∧
        opWrite2 u d s = .raised (.interrupt (.storageFault u .operandWrite) s)) ∧
      (u.toNat < s.cfg.memWords → s.cfg.memWords ≤ (u + 1).toNat →
        opRead2 u s = .raised (.interrupt (.storageFault (u + 1) .operandRead) s) ∧
        opWrite2 u d s = .raised (.interrupt (.storageFault (u + 1) .operandWrite) s)))

/-- O48. DA, DAN, DL, DLN and DLM write the pair A[a], A[a+1] from the double word at U (R231, R232, R234, R235, R236). -/
def Obligations.DoubleLoadsAndAdds : Prop :=
  ∀ (a : BitVec 4) (m : Xhiu) (s s1 : State) (u : Addr) (d : DWord), effAddr m s = .ok u s1 →
    opRead2 u s1 = .ok d s1 → ¬UsesOwn [aReg a, aReg1 a] m → OnlyModifiers s s1 ∧
    let aa : DWord := s1.reg (aReg a) ++ s1.reg (aReg1 a)
    ∀ c ∈ [(Instr.da a m, onesAdd aa d), (.dan a m, onesAdd aa (~~~d)), (.dl a m, d), (.dln a m, ~~~d),
        (.dlm a m, if d.msb then ~~~d else d)],
      ∃ t, exec c.1 s = .next t ∧ t.reg (aReg a) = c.2.extractLsb' 36 36 ∧
        t.reg (aReg1 a) = c.2.extractLsb' 0 36 ∧ ChangesOnly [aReg a, aReg1 a] [] s1 t ∧ t.p = s.p + 1

/-- O49. Where the double word at U faults or is refused, so do DA, DAN, DL, DLN, DLM, DTE and DS, and nothing is
written (R239, R66, R56). -/
def Obligations.DoubleOperandStops : Prop :=
  ∀ (a : BitVec 4) (m : Xhiu) (s s1 : State) (u : Addr), effAddr m s = .ok u s1 →
    ¬UsesOwn [aReg a, aReg1 a] m →
    (∀ i ∈ [Instr.da a m, .dan a m, .dl a m, .dln a m, .dlm a m, .dte a m],
      (∀ f, opRead2 u s1 = .raised f → exec i s = .fault f) ∧
      (∀ r, opRead2 u s1 = .refused r → exec i s = .refused r)) ∧
    (∀ d : DWord, (∀ f, opWrite2 u d s1 = .raised f → exec (.ds a m) s = .fault f) ∧
      (∀ r, opWrite2 u d s1 = .refused r → exec (.ds a m) s = .refused r)) ∧
    ∃ t, exec (.djz a m) s = .next t

/-- O50. DS writes A[a] to U and A[a+1] to U + 1, in registers or in storage, and a faulting DS writes nothing (R233,
R52, R58, R66, R265). The second word at (U + 1) mod 2^18, address 0 at the top of storage, and the address that
faults are R52 and R58 over 00_scope.md R15 (DEDUCED, log 18). -/
def Obligations.DoubleStoreWritesTwoWords : Prop :=
  ∀ (a : BitVec 4) (m : Xhiu) (s s1 : State) (u : Addr), s.mem.wf → effAddr m s = .ok u s1 →
    ¬UsesOwn [aReg a, aReg1 a] m → OnlyModifiers s s1 ∧
    let w := s1.reg (aReg a)
    let w' := s1.reg (aReg1 a)
    (0o177 < u.toNat → u.toNat < s.cfg.memWords → (u + 1).toNat < s.cfg.memWords →
      ∃ t, exec (.ds a m) s = .next t ∧ t.mem.read u.toNat = w ∧ t.mem.read (u + 1).toNat = w' ∧
        ChangesOnly [] [u.toNat, (u + 1).toNat] s1 t ∧ t.p = s.p + 1) ∧
    (u.toNat < 0o177 →
      ∃ t, exec (.ds a m) s = .next t ∧ t.reg (u.setWidth 7) = w ∧ t.reg ((u + 1).setWidth 7) = w' ∧
        ChangesOnly [u.setWidth 7, (u + 1).setWidth 7] [] s1 t ∧ t.p = s.p + 1) ∧
    (0o177 < u.toNat → s.cfg.memWords ≤ u.toNat →
      exec (.ds a m) s = .fault (.interrupt (.storageFault u .operandWrite) s1)) ∧
    (0o177 < u.toNat → u.toNat < s.cfg.memWords → s.cfg.memWords ≤ (u + 1).toNat →
      exec (.ds a m) s = .fault (.interrupt (.storageFault (u + 1) .operandWrite) s1))

/-- O51. DJZ jumps to U when all 72 bits of the pair are equal; DTE skips when the pair equals the double word at U
(R237, R238). -/
def Obligations.DoubleTestAndJump : Prop :=
  ∀ (a : BitVec 4) (m : Xhiu) (s s1 : State) (u : Addr), effAddr m s = .ok u s1 →
    ¬UsesOwn [aReg a, aReg1 a] m → OnlyModifiers s s1 ∧
    let w := s1.reg (aReg a)
    let w' := s1.reg (aReg1 a)
    (∃ t, exec (.djz a m) s = .next t ∧ ChangesOnly [] [] s1 t ∧
      t.p = if (w = 0 ∧ w' = 0) ∨ (w = BitVec.allOnes 36 ∧ w' = BitVec.allOnes 36) then u else s.p + 1) ∧
    (∀ d : DWord, opRead2 u s1 = .ok d s1 → ∃ t, exec (.dte a m) s = .next t ∧ ChangesOnly [] [] s1 t ∧
      t.p = if d = w ++ w' then s.p + 2 else s.p + 1)

/-- O52. JGD decrements the register that j and a name, and jumps to U when it was greater than zero (R230). -/
def Obligations.JgdTestsThenDecrements : Prop :=
  ∀ (j a : BitVec 4) (m : Xhiu) (s s1 : State) (u : Addr), effAddr m s = .ok u s1 →
    let r : RegAddr := BitVec.ofNat 7 ((j.toNat * 16 + a.toNat) % 128)
    ¬UsesOwn [r] m → OnlyModifiers s s1 ∧
    ∃ t, exec (.jgd j a m) s = .next t ∧ t.reg r = onesAdd (s1.reg r) 0o777777777776#36 ∧
      ChangesOnly [r] [] s1 t ∧ t.p = if 0 < (s1.reg r).toInt then u else s.p + 1

/-- O53. SLJ stores P + 1 in the low half of the main-storage word at U and goes on at U + 1 (R240, R265). That the
fault at the read records the kind of SLJ's word is the model's reading (DEDUCED, log 29). -/
def Obligations.SljStoresTheReturnAddress : Prop :=
  ∀ (a : BitVec 4) (m : Xhiu) (s s1 : State) (u : Addr), s.mem.wf → effAddr m s = .ok u s1 →
    OnlyModifiers s s1 ∧
    (u.toNat < s.cfg.memWords → ∃ t, exec (.slj a m) s = .next t ∧
      t.mem.read u.toNat = (s.mem.read u.toNat).extractLsb' 18 18 ++ (s.p + 1) ∧
      ChangesOnly [] [u.toNat] s1 t ∧ t.p = u + 1) ∧
    (s.cfg.memWords ≤ u.toNat → exec (.slj a m) s = .fault (.interrupt (.storageFault u .sljWord) s1))

/-- O54. JPS and JNS rotate A[a] left by one place, jump or not, and jump to U on its old sign (R241, R242). -/
def Obligations.JumpsAndShifts : Prop :=
  ∀ (a : BitVec 4) (m : Xhiu) (s s1 : State) (u : Addr), effAddr m s = .ok u s1 → ¬UsesOwn [aReg a] m →
    OnlyModifiers s s1 ∧
    let w := s1.reg (aReg a)
    ∀ c ∈ [(Instr.jps a m, false), (.jns a m, true)],
      ∃ t, exec c.1 s = .next t ∧
        (∀ k < 36, (t.reg (aReg a)).getLsbD k = w.getLsbD (if k = 0 then 35 else k - 1)) ∧
        ChangesOnly [aReg a] [] s1 t ∧ t.p = if w.getLsbD 35 = c.2 then u else s.p + 1

/-- O55. AH, ANH, AT and ANT add or subtract the halves or the thirds of the word at U, each by itself (R243, R244,
R245, R246). -/
def Obligations.HalvesAndThirdsAddIndependently : Prop :=
  ∀ (a : BitVec 4) (m : Xhiu) (s s1 : State) (u : Addr), effAddr m s = .ok u s1 → ¬UsesOwn [aReg a] m →
    OnlyModifiers s s1 ∧
    let w := s1.reg (aReg a)
    let v := wordAt u s1
    let half := fun k (x : Word) => x.extractLsb' k 18
    let third := fun k (x : Word) => x.extractLsb' k 12
    ∀ c ∈ [(Instr.ah a m, onesAdd (half 18 w) (half 18 v) ++ onesAdd (half 0 w) (half 0 v)),
        (.anh a m, onesAdd (half 18 w) (~~~half 18 v) ++ onesAdd (half 0 w) (~~~half 0 v)),
        (.at_ a m, onesAdd (third 24 w) (third 24 v) ++ onesAdd (third 12 w) (third 12 v) ++
          onesAdd (third 0 w) (third 0 v)),
        (.ant a m, onesAdd (third 24 w) (~~~third 24 v) ++ onesAdd (third 12 w) (~~~third 12 v) ++
          onesAdd (third 0 w) (~~~third 0 v))],
      (u.toNat < 0o200 ∨ u.toNat < s.cfg.memWords →
        ∃ t, exec c.1 s = .next t ∧ t.reg (aReg a) = c.2 ∧ ChangesOnly [aReg a] [] s1 t ∧ t.p = s.p + 1) ∧
      (0o200 ≤ u.toNat → s.cfg.memWords ≤ u.toNat →
        exec c.1 s = .fault (.interrupt (.storageFault u .operandRead) s1))

/-- O56. EX does what the instruction at U does, from the state after U is formed with P still the address of the EX, or
never ends (R247, R265). That a chain that never ends answers the fault endlessExecution is the model's reading
(DEDUCED, log 13). -/
def Obligations.ExRunsTheWordAtU : Prop :=
  (∀ (a : BitVec 4) (m : Xhiu) (s s1 : State) (u : Addr), effAddr m s = .ok u s1 →
    OnlyModifiers s s1 ∧
    (∀ i : Instr, u.toNat < s.cfg.memWords → decode (s.mem.read u.toNat) = some i →
      exec (.ex a m) s = exec i s1) ∧
    (s.cfg.memWords ≤ u.toNat → exec (.ex a m) s = .fault (.interrupt (.storageFault u .exWord) s1))) ∧
  (∀ (a : BitVec 4) (m : Xhiu) (s : State), exec (.ex a m) s = .fault .endlessExecution ↔
    ∀ n, exLoop n m s = .fault .endlessExecution)

/-- O57. EX of LA loads A[a] and leaves P one past the EX (R247, R131, R27). -/
def Obligations.ExOfALoadCompletes : Prop :=
  ∀ (a j b : BitVec 4) (m m' : Xhiu) (s s1 s2 : State) (u : Addr) (v : Word), effAddr m s = .ok u s1 →
    u.toNat < s.cfg.memWords → decode (s.mem.read u.toNat) = some (.la j b m') →
    operand j m' s1 = .ok v s2 → ¬UsesOwn [aReg b] m' →
    ∃ t, exec (.ex a m) s = .next t ∧ t.reg (aReg b) = v ∧ ChangesOnly [aReg b] [] s2 t ∧ t.p = s.p + 1

/-- O58. ER ends in the executive-request interrupt with U as soon as U is formed, and never in a next state (R262,
R248). -/
def Obligations.ErAlwaysRaises : Prop :=
  ∀ (a : BitVec 4) (m : Xhiu) (s : State),
    (∀ u s1, effAddr m s = .ok u s1 →
      exec (.er a m) s = .fault (.interrupt (.executiveRequest u) s1) ∧ OnlyModifiers s s1) ∧
    ∀ t, exec (.er a m) s ≠ .next t

/-- O59. The 23 instructions flagged 1110 are invalid codes on the 1100/20 and refused on the 1110 (R160). -/
def Obligations.FlaggedInstructionsNeverRun : Prop :=
  ∀ (a : BitVec 4) (m : Xhiu) (s : State),
    ∀ c ∈ [(Instr.bm a m, 0o33#6, 0o00#4), (.bmt a m, 0o33#6, 0o01#4), (.btc a m, 0o33#6, 0o03#4),
        (.bc a m, 0o33#6, 0o04#4), (.bpd a m, 0o33#6, 0o05#4), (.pdb a m, 0o33#6, 0o06#4),
        (.edit a m, 0o33#6, 0o07#4), (.bi a m, 0o33#6, 0o10#4), (.bdi a m, 0o33#6, 0o11#4),
        (.ib a m, 0o33#6, 0o12#4), (.dib a m, 0o33#6, 0o13#4), (.bf a m, 0o33#6, 0o14#4),
        (.bdf a m, 0o33#6, 0o15#4), (.fb a m, 0o33#6, 0o16#4), (.dfb a m, 0o33#6, 0o17#4),
        (.qb a m, 0o37#6, 0o00#4), (.bq a m, 0o37#6, 0o01#4), (.qbh a m, 0o37#6, 0o02#4),
        (.bqh a m, 0o37#6, 0o03#4), (.qdb a m, 0o37#6, 0o04#4), (.dbq a m, 0o37#6, 0o05#4),
        (.ba a m, 0o37#6, 0o06#4), (.ban a m, 0o37#6, 0o07#4)],
      (s.cfg.model = .m1100_20 →
        exec c.1 s = .fault (.interrupt (.invalidCode c.2.1 c.2.2 a (packWord c.2.1 c.2.2 a m)) s)) ∧
      (s.cfg.model = .m1110 → exec c.1 s = .refused (.byteInstructionOf1110 s))

/-- O60. LDJ, LIJ, LPD, SPD, LBJ, SRS and LRS refuse, because the source gives them no semantics (R121, R122, R123,
R124, R125, R249, R250). -/
def Obligations.InstructionsWithoutSemanticsRefuse : Prop :=
  ∀ (a : BitVec 4) (m : Xhiu) (s : State),
    (∀ c ∈ [(Instr.ldj a m, "LDJ"), (.lij a m, "LIJ"), (.lpd a m, "LPD"), (.srs a m, "SRS"), (.lrs a m, "LRS")],
      exec c.1 s = .refused (.noSemanticsInSource c.2 s)) ∧
    exec (.spd a m) s = .refused (.spdOrLbj s) ∧ exec (.lbj a m) s = .refused (.spdOrLbj s)

end Statements
end

