-- ==== Sys2Proof/Laws/State.lean ====
section
/-! SUPPORT. One lemma for each field after each update of the state, and the reading of registers after a write. -/

namespace Sys2Proof.Machine

variable (s : State) (r q : RegAddr) (v : Word) (u : Addr) (w : Word) (k : BitVec 4) (c : Bool)

/-! ### setReg -/

@[simp] theorem State.setReg_mem : (s.setReg r v).mem = s.mem := rfl
@[simp] theorem State.setReg_p : (s.setReg r v).p = s.p := rfl
@[simp] theorem State.setReg_cfg : (s.setReg r v).cfg = s.cfg := rfl

@[simp] theorem State.reg_setReg_same : (s.setReg r v).reg r = v := by
  simp [State.reg, State.setReg]

theorem State.reg_setReg_ne (h : q ≠ r) : (s.setReg r v).reg q = s.reg q := by
  have hne : r.toNat ≠ q.toNat := fun e => h (BitVec.eq_of_toNat_eq e.symm)
  simp only [State.reg, State.setReg]
  exact Vector.getElem_set_ne _ _ hne

theorem State.reg_setReg : (s.setReg r v).reg q = if q = r then v else s.reg q := by
  by_cases h : q = r
  · subst h; simp
  · simp [h, State.reg_setReg_ne s r q v h]

/-- Two states with the same registers, storage, P and parameters are the same. -/
theorem State.ext_reg {s t : State} (hr : ∀ r, t.reg r = s.reg r) (hm : t.mem = s.mem) (hp : t.p = s.p)
    (hc : t.cfg = s.cfg) : t = s := by
  obtain ⟨g, m, p, c⟩ := s
  obtain ⟨g', m', p', c'⟩ := t
  simp only at hm hp hc
  subst hm hp hc
  congr 1
  ext i hi
  have := hr (BitVec.ofNat 7 i)
  simp only [State.reg, BitVec.toNat_ofNat] at this
  have e : i % 2 ^ 7 = i := Nat.mod_eq_of_lt hi
  simp only [e] at this
  rw [this]

/-! ### Updates of index registers, of the repeat count and of a pair -/

@[simp] theorem State.bumpIndex_mem : (s.bumpIndex k).mem = s.mem := rfl
@[simp] theorem State.bumpIndex_p : (s.bumpIndex k).p = s.p := rfl
@[simp] theorem State.bumpIndex_cfg : (s.bumpIndex k).cfg = s.cfg := rfl

@[simp] theorem State.setRepeatCount_mem (n : BitVec 18) : (s.setRepeatCount n).mem = s.mem := rfl
@[simp] theorem State.setRepeatCount_p (n : BitVec 18) : (s.setRepeatCount n).p = s.p := rfl
@[simp] theorem State.setRepeatCount_cfg (n : BitVec 18) : (s.setRepeatCount n).cfg = s.cfg := rfl

@[simp] theorem State.setPair_mem (d : DWord) : (s.setPair k d).mem = s.mem := rfl
@[simp] theorem State.setPair_p (d : DWord) : (s.setPair k d).p = s.p := rfl
@[simp] theorem State.setPair_cfg (d : DWord) : (s.setPair k d).cfg = s.cfg := rfl

/-! ### P -/

@[simp] theorem State.advance_grs : s.advance.grs = s.grs := rfl
@[simp] theorem State.advance_mem : s.advance.mem = s.mem := rfl
@[simp] theorem State.advance_p : s.advance.p = s.p + 1 := rfl
@[simp] theorem State.advance_cfg : s.advance.cfg = s.cfg := rfl
@[simp] theorem State.advance_reg : s.advance.reg r = s.reg r := rfl

@[simp] theorem State.skip_grs : s.skip.grs = s.grs := rfl
@[simp] theorem State.skip_mem : s.skip.mem = s.mem := rfl
@[simp] theorem State.skip_p : s.skip.p = s.p + 2 := rfl
@[simp] theorem State.skip_cfg : s.skip.cfg = s.cfg := rfl
@[simp] theorem State.skip_reg : s.skip.reg r = s.reg r := rfl

@[simp] theorem State.jump_grs : (s.jump u).grs = s.grs := rfl
@[simp] theorem State.jump_mem : (s.jump u).mem = s.mem := rfl
@[simp] theorem State.jump_p : (s.jump u).p = u := rfl
@[simp] theorem State.jump_cfg : (s.jump u).cfg = s.cfg := rfl
@[simp] theorem State.jump_reg : (s.jump u).reg r = s.reg r := rfl

@[simp] theorem State.skipIf_grs : (s.skipIf c).grs = s.grs := by cases c <;> rfl
@[simp] theorem State.skipIf_mem : (s.skipIf c).mem = s.mem := by cases c <;> rfl
@[simp] theorem State.skipIf_cfg : (s.skipIf c).cfg = s.cfg := by cases c <;> rfl
@[simp] theorem State.skipIf_reg : (s.skipIf c).reg r = s.reg r := by cases c <;> rfl
@[simp] theorem State.skipIf_p : (s.skipIf c).p = if c then s.p + 2 else s.p + 1 := by cases c <;> rfl

@[simp] theorem State.jumpIf_grs : (s.jumpIf c u).grs = s.grs := by cases c <;> rfl
@[simp] theorem State.jumpIf_mem : (s.jumpIf c u).mem = s.mem := by cases c <;> rfl
@[simp] theorem State.jumpIf_cfg : (s.jumpIf c u).cfg = s.cfg := by cases c <;> rfl
@[simp] theorem State.jumpIf_reg : (s.jumpIf c u).reg r = s.reg r := by cases c <;> rfl
@[simp] theorem State.jumpIf_p : (s.jumpIf c u).p = if c then u else s.p + 1 := by cases c <;> rfl

/-! ### Storage -/

@[simp] theorem State.setWord_grs : (s.setWord u w).grs = s.grs := rfl
@[simp] theorem State.setWord_mem : (s.setWord u w).mem = s.mem.write u.toNat w := rfl
@[simp] theorem State.setWord_p : (s.setWord u w).p = s.p := rfl
@[simp] theorem State.setWord_cfg : (s.setWord u w).cfg = s.cfg := rfl
@[simp] theorem State.setWord_reg : (s.setWord u w).reg r = s.reg r := rfl
@[simp] theorem State.setWord_hasWord (u' : Addr) : (s.setWord u w).hasWord u' = s.hasWord u' := rfl

/-! ### Addresses of registers (R22 to R25) -/

@[simp] theorem xReg_toNat : (xReg k).toNat = k.toNat := by
  simp only [xReg, BitVec.toNat_setWidth]; have := k.isLt; omega

@[simp] theorem aReg_toNat : (aReg k).toNat = 0o14 + k.toNat := by
  simp only [aReg, BitVec.toNat_add, BitVec.toNat_setWidth, BitVec.toNat_ofNat]; have := k.isLt; omega

@[simp] theorem aReg1_toNat : (aReg1 k).toNat = 0o15 + k.toNat := by
  simp only [aReg1, BitVec.toNat_add, BitVec.toNat_setWidth, BitVec.toNat_ofNat]; have := k.isLt; omega

@[simp] theorem rReg_toNat : (rReg k).toNat = 0o100 + k.toNat := by
  simp only [rReg, BitVec.toNat_add, BitVec.toNat_setWidth, BitVec.toNat_ofNat]; have := k.isLt; omega

theorem aReg1_ne_aReg : aReg1 k ≠ aReg k := by
  intro h
  have := congrArg BitVec.toNat h
  simp at this

/-! ### Halves of a word (R51) -/

@[simp] theorem highHalf_ofHalves (a b : BitVec 18) : highHalf (ofHalves a b) = a := by
  ext i hi
  simp only [highHalf, ofHalves, BitVec.getElem_extractLsb', BitVec.getLsbD_append]
  rw [if_neg (by omega), show 18 + i - 18 = i by omega, BitVec.getLsbD_eq_getElem hi]

@[simp] theorem lowHalf_ofHalves (a b : BitVec 18) : lowHalf (ofHalves a b) = b := by
  ext i hi
  simp only [lowHalf, ofHalves, BitVec.getElem_extractLsb', BitVec.getLsbD_append]
  rw [if_pos (by omega), Nat.zero_add, BitVec.getLsbD_eq_getElem hi]

@[simp] theorem upperWord_ofWords (a b : Word) : upperWord (ofWords a b) = a := by
  ext i hi
  simp only [upperWord, ofWords, BitVec.getElem_extractLsb', BitVec.getLsbD_append]
  rw [if_neg (by omega), show 36 + i - 36 = i by omega, BitVec.getLsbD_eq_getElem hi]

@[simp] theorem lowerWord_ofWords (a b : Word) : lowerWord (ofWords a b) = b := by
  ext i hi
  simp only [lowerWord, ofWords, BitVec.getElem_extractLsb', BitVec.getLsbD_append]
  rw [if_pos (by omega), Nat.zero_add, BitVec.getLsbD_eq_getElem hi]

/-! ### The repeat count and the index registers after an update -/

@[simp] theorem State.repeatCount_setRepeatCount (n : BitVec 18) : (s.setRepeatCount n).repeatCount = n := by
  simp [State.repeatCount, State.setRepeatCount]

theorem State.reg_setRepeatCount_ne (n : BitVec 18) (h : q ≠ rReg 1) : (s.setRepeatCount n).reg q = s.reg q :=
  State.reg_setReg_ne s _ q _ h

@[simp] theorem State.modifier_bumpIndex : (s.bumpIndex k).modifier k = onesAdd (s.modifier k) (s.increment k) := by
  simp [State.modifier, State.bumpIndex, State.increment]

theorem State.reg_bumpIndex_ne (h : q ≠ xReg k) : (s.bumpIndex k).reg q = s.reg q :=
  State.reg_setReg_ne s _ q _ h

@[simp] theorem State.increment_bumpIndex (j : BitVec 4) : (s.bumpIndex k).increment j = s.increment j := by
  by_cases h : xReg j = xReg k
  · simp only [State.increment, State.bumpIndex, h]; simp
  · simp only [State.increment, State.reg_bumpIndex_ne s (xReg j) k h]

@[simp] theorem State.reg_setPair_low (d : DWord) : (s.setPair k d).reg (aReg1 k) = lowerWord d := by
  simp [State.setPair]

@[simp] theorem State.reg_setPair_high (d : DWord) : (s.setPair k d).reg (aReg k) = upperWord d := by
  rw [State.setPair, State.reg_setReg_ne _ _ _ _ (aReg1_ne_aReg k).symm, State.reg_setReg_same]

end Sys2Proof.Machine
end

