-- ==== Sys2Proof/Laws/Memory.lean ====
section
/-! SUPPORT. Main storage: what a read gives after a write, and that a write keeps the canonical form. -/

namespace Sys2Proof.Machine

/-! ### One cell in front of the later ones -/

theorem readCells_consCell_ne {a b : Nat} (v : Word) (rest : List (Nat × Word)) (h : b ≠ a) :
    readCells (consCell a v rest) b = readCells rest b := by
  unfold consCell
  split
  · rfl
  · simp [readCells, h]

/-- An address below every listed one reads as an unwritten word. -/
theorem readCells_of_lt {l : List (Nat × Word)} {a : Nat} (h : ∀ c ∈ l, a < c.1) :
    readCells l a = Config.unwrittenWord := by
  induction l with
  | nil => rfl
  | cons c l ih =>
    have hc := h c (by simp)
    rw [readCells, if_neg (by omega)]
    exact ih fun d hd => h d (by simp [hd])

theorem readCells_consCell_same {a : Nat} (v : Word) {rest : List (Nat × Word)} (h : ∀ c ∈ rest, a < c.1) :
    readCells (consCell a v rest) a = v := by
  unfold consCell
  split
  · next e => rw [readCells_of_lt h, e]
  · simp [readCells]

/-! ### Reading after a write -/

theorem readCells_writeCells_ne (l : List (Nat × Word)) {a b : Nat} (v : Word) (h : b ≠ a) :
    readCells (writeCells l a v) b = readCells l b := by
  induction l with
  | nil => exact readCells_consCell_ne v [] h
  | cons c l ih =>
    rw [writeCells]
    split
    · exact readCells_consCell_ne v _ h
    · split
      · next e => rw [readCells_consCell_ne v _ h, readCells, if_neg (by omega)]
      · simp only [readCells, ih]

theorem readCells_writeCells_same {l : List (Nat × Word)} (hl : l.Pairwise fun c d => c.1 < d.1) (a : Nat)
    (v : Word) : readCells (writeCells l a v) a = v := by
  induction l with
  | nil => exact readCells_consCell_same v (by simp)
  | cons c l ih =>
    obtain ⟨hc, hl'⟩ := List.pairwise_cons.1 hl
    rw [writeCells]
    split
    · next h => exact readCells_consCell_same v (by simpa using ⟨h, fun x w hx => h.trans (hc _ hx)⟩)
    · split
      · next e => exact readCells_consCell_same v fun d hd => e ▸ hc d hd
      · next h => rw [readCells, if_neg h, ih hl']

@[simp] theorem Memory.read_write_ne (m : Memory) {a b : Nat} (v : Word) (h : b ≠ a) :
    (m.write a v).read b = m.read b := readCells_writeCells_ne m.cells v h

theorem Memory.read_write_same {m : Memory} (h : m.wf) (a : Nat) (v : Word) : (m.write a v).read a = v :=
  readCells_writeCells_same h.1 a v

/-! ### The canonical form -/

theorem mem_consCell {l : List (Nat × Word)} {a : Nat} {v : Word} {c : Nat × Word} (h : c ∈ consCell a v l) :
    (c = (a, v) ∧ v ≠ Config.unwrittenWord) ∨ c ∈ l := by
  unfold consCell at h
  split at h
  · exact .inr h
  · next hv => exact (List.mem_cons.1 h).imp (fun e => ⟨e, hv⟩) id

/-- A listed cell after a write is the written one, which is no unwritten word, or was listed before. -/
theorem mem_writeCells {l : List (Nat × Word)} {a : Nat} {v : Word} {c : Nat × Word}
    (h : c ∈ writeCells l a v) : (c = (a, v) ∧ v ≠ Config.unwrittenWord) ∨ c ∈ l := by
  induction l with
  | nil => exact mem_consCell h
  | cons d l ih =>
    rw [writeCells] at h
    split at h
    · exact mem_consCell h
    · split at h
      · exact (mem_consCell h).imp id (List.mem_cons_of_mem _)
      · rcases List.mem_cons.1 h with e | e
        · exact .inr (e ▸ List.mem_cons_self)
        · exact (ih e).imp id (List.mem_cons_of_mem _)

theorem pairwise_consCell {l : List (Nat × Word)} {a : Nat} {v : Word} (hl : l.Pairwise fun c d => c.1 < d.1)
    (h : ∀ c ∈ l, a < c.1) : (consCell a v l).Pairwise fun c d => c.1 < d.1 := by
  unfold consCell
  split
  · exact hl
  · exact List.pairwise_cons.2 ⟨h, hl⟩

theorem pairwise_writeCells {l : List (Nat × Word)} {a : Nat} {v : Word} (hl : l.Pairwise fun c d => c.1 < d.1) :
    (writeCells l a v).Pairwise fun c d => c.1 < d.1 := by
  induction l with
  | nil => exact pairwise_consCell hl (by simp)
  | cons c l ih =>
    obtain ⟨hc, hl'⟩ := List.pairwise_cons.1 hl
    rw [writeCells]
    split
    · next h => exact pairwise_consCell hl (by simpa using ⟨h, fun x w hx => h.trans (hc _ hx)⟩)
    · split
      · next e => exact pairwise_consCell hl' fun d hd => e ▸ hc d hd
      · refine List.pairwise_cons.2 ⟨fun d hd => ?_, ih hl'⟩
        rcases mem_writeCells hd with e | e
        · obtain ⟨rfl, -⟩ := e; simp only; omega
        · exact hc d e

/-- The one writing operation over the storage keeps the canonical form. -/
theorem Memory.write_wf {m : Memory} (h : m.wf) (a : Nat) (v : Word) : (m.write a v).wf :=
  ⟨pairwise_writeCells h.1, fun c hc => (mem_writeCells hc).elim (fun e => e.1 ▸ e.2) (h.2 c)⟩

theorem State.reset_mem_wf : State.reset.mem.wf := by decide

/-- A write below `n` lists no address at or above `n`. -/
theorem Memory.write_bound {m : Memory} {n a : Nat} {v : Word} (h : ∀ c ∈ m.cells, c.1 < n) (ha : a < n) :
    ∀ c ∈ (m.write a v).cells, c.1 < n := fun c hc =>
  (mem_writeCells hc).elim (fun e => e.1 ▸ ha) (h c)

/-- A store at an address that exists keeps a well-formed state well-formed. -/
theorem State.setWord_wf {s : State} {u : Addr} (h : s.wf) (hu : s.hasWord u = true) (v : Word) :
    (s.setWord u v).wf :=
  ⟨Memory.write_wf h.1 _ _, Memory.write_bound h.2.1 (by simpa [State.hasWord] using hu), h.2.2⟩

/-- Whether a state is well-formed depends on its storage and its parameters. -/
theorem State.wf_congr {s t : State} (hm : t.mem = s.mem) (hc : t.cfg = s.cfg) (h : s.wf) : t.wf := by
  simpa only [State.wf, hm, hc] using h

end Sys2Proof.Machine
end

