-- ==== Sys2Proof/Laws/Ops.lean ====
section
/-! SUPPORT. For each operation of Machine/Ops.lean, once, what it can answer. -/

namespace Sys2Proof.Machine

/-! ### Operations put together -/

section Compose

variable {α β : Type}

@[simp] theorem Res.bind_ok (v : α) (s : State) (k : α → State → Res β) : (Res.ok v s).bind k = k v s := rfl
@[simp] theorem Res.bind_raised (f : Fault) (k : α → State → Res β) : (Res.raised f).bind k = .raised f := rfl
@[simp] theorem Res.bind_refused (f : Refusal) (k : α → State → Res β) : (Res.refused f).bind k = .refused f := rfl
@[simp] theorem Res.andThen_ok (v : α) (s : State) (k : α → State → Answer) : (Res.ok v s).andThen k = k v s := rfl
@[simp] theorem Res.andThen_raised (f : Fault) (k : α → State → Answer) :
    (Res.raised f).andThen k = .fault f := rfl
@[simp] theorem Res.andThen_refused (f : Refusal) (k : α → State → Answer) :
    (Res.refused f).andThen k = .refused f := rfl
@[simp] theorem Res.toNext_ok (v : α) (s : State) (k : α → State → State) :
    (Res.ok v s).toNext k = .next (k v s) := rfl
@[simp] theorem Res.toNext_raised (f : Fault) (k : α → State → State) : (Res.raised f).toNext k = .fault f := rfl
@[simp] theorem Res.toNext_refused (f : Refusal) (k : α → State → State) :
    (Res.refused f).toNext k = .refused f := rfl

theorem Res.bind_eq_ok {r : Res α} {k : α → State → Res β} {w : β} {t : State} :
    r.bind k = .ok w t ↔ ∃ v s1, r = .ok v s1 ∧ k v s1 = .ok w t := by
  cases r <;> simp

theorem Res.bind_eq_raised {r : Res α} {k : α → State → Res β} {f : Fault} :
    r.bind k = .raised f ↔ r = .raised f ∨ ∃ v s1, r = .ok v s1 ∧ k v s1 = .raised f := by
  cases r <;> simp

theorem Res.bind_eq_refused {r : Res α} {k : α → State → Res β} {f : Refusal} :
    r.bind k = .refused f ↔ r = .refused f ∨ ∃ v s1, r = .ok v s1 ∧ k v s1 = .refused f := by
  cases r <;> simp

theorem Res.andThen_eq_next {r : Res α} {k : α → State → Answer} {t : State} :
    r.andThen k = .next t ↔ ∃ v s1, r = .ok v s1 ∧ k v s1 = .next t := by
  cases r <;> simp

theorem Res.andThen_eq_fault {r : Res α} {k : α → State → Answer} {f : Fault} :
    r.andThen k = .fault f ↔ r = .raised f ∨ ∃ v s1, r = .ok v s1 ∧ k v s1 = .fault f := by
  cases r <;> simp

theorem Res.andThen_eq_refused {r : Res α} {k : α → State → Answer} {f : Refusal} :
    r.andThen k = .refused f ↔ r = .refused f ∨ ∃ v s1, r = .ok v s1 ∧ k v s1 = .refused f := by
  cases r <;> simp

theorem Res.toNext_eq_next {r : Res α} {k : α → State → State} {t : State} :
    r.toNext k = .next t ↔ ∃ v s1, r = .ok v s1 ∧ t = k v s1 := by
  cases r <;> simp [eq_comm]

theorem Res.toNext_eq_fault {r : Res α} {k : α → State → State} {f : Fault} :
    r.toNext k = .fault f ↔ r = .raised f := by
  cases r <;> simp

theorem Res.toNext_eq_refused {r : Res α} {k : α → State → State} {f : Refusal} :
    r.toNext k = .refused f ↔ r = .refused f := by
  cases r <;> simp

end Compose

/-! ### What address formation may change -/

theorem OnlyModifiers.refl (s : State) : OnlyModifiers s s := ⟨rfl, rfl, rfl, fun _ _ => rfl, fun _ => rfl⟩

theorem OnlyModifiers.trans {s t u : State} (h : OnlyModifiers s t) (h' : OnlyModifiers t u) :
    OnlyModifiers s u :=
  ⟨h'.mem.trans h.mem, h'.p.trans h.p, h'.cfg.trans h.cfg, fun r hr => (h'.reg r hr).trans (h.reg r hr),
    fun k => (h'.increment k).trans (h.increment k)⟩

theorem OnlyModifiers.wf {s t : State} (h : OnlyModifiers s t) (hs : s.wf) : t.wf :=
  State.wf_congr h.mem h.cfg hs

theorem OnlyModifiers.hasWord {s t : State} (h : OnlyModifiers s t) (u : Addr) : t.hasWord u = s.hasWord u := by
  simp only [State.hasWord, h.cfg]

theorem State.bumpIndex_onlyModifiers (s : State) {k : BitVec 4} (hk : k ≠ 0) :
    OnlyModifiers s (s.bumpIndex k) := by
  refine ⟨rfl, rfl, rfl, fun r hr => State.reg_bumpIndex_ne s r k fun e => ?_, fun j =>
    State.increment_bumpIndex s k j⟩
  have h := congrArg BitVec.toNat e
  rw [xReg_toNat] at h
  have h0 : k.toNat ≠ 0 := fun h0 => hk (BitVec.eq_of_toNat_eq (by simpa using h0))
  have := k.isLt
  omega

/-! ### Main storage -/

theorem memRead_of_hasWord {kind : AccessKind} {u : Addr} {s : State} (h : s.hasWord u = true) :
    memRead kind u s = .ok (s.mem.read u.toNat) s := if_pos h

theorem memRead_of_not {kind : AccessKind} {u : Addr} {s : State} (h : s.hasWord u = false) :
    memRead kind u s = .raised (storageFault kind u s) := if_neg (by simp [h])

theorem memRead_eq_ok {kind : AccessKind} {u : Addr} {s t : State} {w : Word} :
    memRead kind u s = .ok w t ↔ s.hasWord u = true ∧ w = s.mem.read u.toNat ∧ t = s := by
  unfold memRead; split <;> grind

theorem memRead_eq_raised {kind : AccessKind} {u : Addr} {s : State} {f : Fault} :
    memRead kind u s = .raised f ↔ s.hasWord u = false ∧ f = storageFault kind u s := by
  unfold memRead; split <;> grind

@[simp] theorem memRead_ne_refused {kind : AccessKind} {u : Addr} {s : State} {f : Refusal} :
    memRead kind u s ≠ .refused f := by
  unfold memRead; split <;> simp

theorem memWrite_of_hasWord {kind : AccessKind} {u : Addr} {v : Word} {s : State} (h : s.hasWord u = true) :
    memWrite kind u v s = .ok () (s.setWord u v) := if_pos h

theorem memWrite_of_not {kind : AccessKind} {u : Addr} {v : Word} {s : State} (h : s.hasWord u = false) :
    memWrite kind u v s = .raised (storageFault kind u s) := if_neg (by simp [h])

theorem memWrite_eq_ok {kind : AccessKind} {u : Addr} {v : Word} {s t : State} {x : Unit} :
    memWrite kind u v s = .ok x t ↔ s.hasWord u = true ∧ t = s.setWord u v := by
  unfold memWrite; split <;> grind

theorem memWrite_eq_raised {kind : AccessKind} {u : Addr} {v : Word} {s : State} {f : Fault} :
    memWrite kind u v s = .raised f ↔ s.hasWord u = false ∧ f = storageFault kind u s := by
  unfold memWrite; split <;> grind

@[simp] theorem memWrite_ne_refused {kind : AccessKind} {u : Addr} {v : Word} {s : State} {f : Refusal} :
    memWrite kind u v s ≠ .refused f := by
  unfold memWrite; split <;> simp

theorem memRead2_eq_ok {kind : AccessKind} {u : Addr} {s t : State} {d : DWord} :
    memRead2 kind u s = .ok d t ↔ s.hasWord u = true ∧ s.hasWord (u + 1) = true ∧ t = s ∧
      d = ofWords (s.mem.read u.toNat) (s.mem.read (u + 1).toNat) := by
  unfold memRead2 memRead
  grind [Res.bind]

/-- The two accesses of a double word: the fault names the first address that is out of range. -/
theorem memRead2_eq_raised {kind : AccessKind} {u : Addr} {s : State} {f : Fault} :
    memRead2 kind u s = .raised f ↔ (s.hasWord u = false ∧ f = storageFault kind u s) ∨
      (s.hasWord u = true ∧ s.hasWord (u + 1) = false ∧ f = storageFault kind (u + 1) s) := by
  unfold memRead2 memRead
  grind [Res.bind]

theorem memWrite2_eq_ok {kind : AccessKind} {u : Addr} {d : DWord} {s t : State} {x : Unit} :
    memWrite2 kind u d s = .ok x t ↔ s.hasWord u = true ∧ s.hasWord (u + 1) = true ∧
      t = (s.setWord u (upperWord d)).setWord (u + 1) (lowerWord d) := by
  unfold memWrite2
  grind

theorem memWrite2_eq_raised {kind : AccessKind} {u : Addr} {d : DWord} {s : State} {f : Fault} :
    memWrite2 kind u d s = .raised f ↔ (s.hasWord u = false ∧ f = storageFault kind u s) ∨
      (s.hasWord u = true ∧ s.hasWord (u + 1) = false ∧ f = storageFault kind (u + 1) s) := by
  unfold memWrite2
  grind

/-! ### Operand accesses -/

theorem opRead_reg {u : Addr} {s : State} (h : isRegAddr u = true) : opRead u s = .ok (s.reg (u.setWidth 7)) s :=
  if_pos h

theorem opRead_storage {u : Addr} {s : State} (h : isRegAddr u = false) (hw : s.hasWord u = true) :
    opRead u s = .ok (s.mem.read u.toNat) s := by
  rw [opRead, if_neg (by simp [h]), memRead_of_hasWord hw]

/-- An operand read changes no state, and answers the register or the storage word. -/
theorem opRead_eq_ok {u : Addr} {s t : State} {w : Word} :
    opRead u s = .ok w t ↔ t = s ∧ ((isRegAddr u = true ∧ w = s.reg (u.setWidth 7)) ∨
      (isRegAddr u = false ∧ s.hasWord u = true ∧ w = s.mem.read u.toNat)) := by
  unfold opRead
  split
  · grind
  · rw [memRead_eq_ok]; grind

theorem opRead_eq_raised {u : Addr} {s : State} {f : Fault} :
    opRead u s = .raised f ↔ isRegAddr u = false ∧ s.hasWord u = false ∧ f = storageFault .operandRead u s := by
  unfold opRead
  split
  · simp_all
  · rw [memRead_eq_raised]; simp_all

@[simp] theorem opRead_ne_refused {u : Addr} {s : State} {f : Refusal} : opRead u s ≠ .refused f := by
  unfold opRead; split <;> simp

theorem opWrite_reg {u : Addr} {v : Word} {s : State} (h : isRegAddr u = true) :
    opWrite u v s = .ok () (s.setReg (u.setWidth 7) v) := if_pos h

theorem opWrite_storage {u : Addr} {v : Word} {s : State} (h : isRegAddr u = false) (hw : s.hasWord u = true) :
    opWrite u v s = .ok () (s.setWord u v) := by
  rw [opWrite, if_neg (by simp [h]), memWrite_of_hasWord hw]

/-- An operand write changes the one register or the one storage word it names. -/
theorem opWrite_eq_ok {u : Addr} {v : Word} {s t : State} {x : Unit} :
    opWrite u v s = .ok x t ↔ (isRegAddr u = true ∧ t = s.setReg (u.setWidth 7) v) ∨
      (isRegAddr u = false ∧ s.hasWord u = true ∧ t = s.setWord u v) := by
  unfold opWrite
  split
  · grind
  · rw [memWrite_eq_ok]; grind

theorem opWrite_eq_raised {u : Addr} {v : Word} {s : State} {f : Fault} :
    opWrite u v s = .raised f ↔ isRegAddr u = false ∧ s.hasWord u = false ∧
      f = storageFault .operandWrite u s := by
  unfold opWrite
  split
  · simp_all
  · rw [memWrite_eq_raised]; simp_all

@[simp] theorem opWrite_ne_refused {u : Addr} {v : Word} {s : State} {f : Refusal} :
    opWrite u v s ≠ .refused f := by
  unfold opWrite; split <;> simp

theorem opWrite_ok_p {u : Addr} {v : Word} {s t : State} {x : Unit} (h : opWrite u v s = .ok x t) :
    t.p = s.p ∧ t.cfg = s.cfg := by
  rcases opWrite_eq_ok.1 h with ⟨-, rfl⟩ | ⟨-, -, rfl⟩ <;> exact ⟨rfl, rfl⟩

theorem opWrite_ok_wf {u : Addr} {v : Word} {s t : State} {x : Unit} (h : opWrite u v s = .ok x t) (hs : s.wf) :
    t.wf := by
  rcases opWrite_eq_ok.1 h with ⟨-, rfl⟩ | ⟨-, hw, rfl⟩
  · exact State.wf_congr rfl rfl hs
  · exact State.setWord_wf hs hw v

theorem opRead2_eq_ok {u : Addr} {s t : State} {d : DWord} :
    opRead2 u s = .ok d t ↔ t = s ∧
      ((u.toNat < 0o177 ∧ d = ofWords (s.reg (u.setWidth 7)) (s.reg ((u + 1).setWidth 7))) ∨
        (0o177 < u.toNat ∧ s.hasWord u = true ∧ s.hasWord (u + 1) = true ∧
          d = ofWords (s.mem.read u.toNat) (s.mem.read (u + 1).toNat))) := by
  unfold opRead2
  split
  · grind
  · split
    · next h => simp [h]
    · next h h' =>
      rw [memRead2_eq_ok]
      have : 127 < u.toNat := by omega
      simp [h, this]; tauto

theorem opRead2_eq_raised {u : Addr} {s : State} {f : Fault} :
    opRead2 u s = .raised f ↔ 0o177 < u.toNat ∧
      ((s.hasWord u = false ∧ f = storageFault .operandRead u s) ∨
        (s.hasWord u = true ∧ s.hasWord (u + 1) = false ∧ f = storageFault .operandRead (u + 1) s)) := by
  unfold opRead2
  split
  · simp; omega
  · split
    · next h => simp [h]
    · next h h' =>
      rw [memRead2_eq_raised]
      have : 127 < u.toNat := by omega
      simp [this]

theorem opRead2_eq_refused {u : Addr} {s : State} {f : Refusal} :
    opRead2 u s = .refused f ↔ u.toNat = 0o177 ∧ f = .doubleWordAcrossGrs s := by
  unfold opRead2
  split
  · simp; omega
  · split
    · next h => simp [h, eq_comm]
    · next h h' =>
      have : memRead2 .operandRead u s ≠ .refused f := by
        unfold memRead2 memRead; split <;> simp; split <;> simp
      simp [this, h']

theorem opWrite2_eq_ok {u : Addr} {d : DWord} {s t : State} {x : Unit} :
    opWrite2 u d s = .ok x t ↔
      (u.toNat < 0o177 ∧
        t = (s.setReg (u.setWidth 7) (upperWord d)).setReg ((u + 1).setWidth 7) (lowerWord d)) ∨
      (0o177 < u.toNat ∧ s.hasWord u = true ∧ s.hasWord (u + 1) = true ∧
        t = (s.setWord u (upperWord d)).setWord (u + 1) (lowerWord d)) := by
  unfold opWrite2
  split
  · grind
  · split
    · next h => simp [h]
    · next h h' =>
      rw [memWrite2_eq_ok]
      have : 127 < u.toNat := by omega
      simp [h, this]

theorem opWrite2_eq_raised {u : Addr} {d : DWord} {s : State} {f : Fault} :
    opWrite2 u d s = .raised f ↔ 0o177 < u.toNat ∧
      ((s.hasWord u = false ∧ f = storageFault .operandWrite u s) ∨
        (s.hasWord u = true ∧ s.hasWord (u + 1) = false ∧ f = storageFault .operandWrite (u + 1) s)) := by
  unfold opWrite2
  split
  · simp; omega
  · split
    · next h => simp [h]
    · next h h' =>
      rw [memWrite2_eq_raised]
      have : 127 < u.toNat := by omega
      simp [this]

theorem opWrite2_eq_refused {u : Addr} {d : DWord} {s : State} {f : Refusal} :
    opWrite2 u d s = .refused f ↔ u.toNat = 0o177 ∧ f = .doubleWordAcrossGrs s := by
  unfold opWrite2
  split
  · simp; omega
  · split
    · next h => simp [h, eq_comm]
    · next h h' =>
      have : memWrite2 .operandWrite u d s ≠ .refused f := by
        unfold memWrite2; split <;> simp; split <;> simp
      simp [this, h']

theorem opWrite2_ok_p {u : Addr} {d : DWord} {s t : State} {x : Unit} (h : opWrite2 u d s = .ok x t) :
    t.p = s.p ∧ t.cfg = s.cfg := by
  rcases opWrite2_eq_ok.1 h with ⟨-, rfl⟩ | ⟨-, -, -, rfl⟩ <;> exact ⟨rfl, rfl⟩

theorem opWrite2_ok_wf {u : Addr} {d : DWord} {s t : State} {x : Unit} (h : opWrite2 u d s = .ok x t)
    (hs : s.wf) : t.wf := by
  rcases opWrite2_eq_ok.1 h with ⟨-, rfl⟩ | ⟨-, hw, hw', rfl⟩
  · exact State.wf_congr rfl rfl hs
  · exact State.setWord_wf (State.setWord_wf hs hw _) hw' _

/-! ### Fetch -/

theorem fetch_eq_ok {s t : State} {w : Word} :
    fetch s = .ok w t ↔ s.hasWord s.p = true ∧ w = s.mem.read s.p.toNat ∧ t = s := memRead_eq_ok

theorem fetch_eq_raised {s : State} {f : Fault} :
    fetch s = .raised f ↔ s.hasWord s.p = false ∧ f = storageFault .fetch s.p s := memRead_eq_raised

end Sys2Proof.Machine
end

