-- ==== Sys2Proof/Laws/Operands.lean ====
section
/-! SUPPORT. For each operation of Machine/Operands.lean, once, what it can answer. -/

namespace Sys2Proof.Machine

/-! ### Index sum and incrementation -/

theorem stepIndex_onlyModifiers (m : Xhiu) (s : State) : OnlyModifiers s (stepIndex m s) := by
  unfold stepIndex
  split
  · next h => exact State.bumpIndex_onlyModifiers s h.1
  · exact .refl s

@[simp] theorem stepIndex_mem (m : Xhiu) (s : State) : (stepIndex m s).mem = s.mem :=
  (stepIndex_onlyModifiers m s).mem
@[simp] theorem stepIndex_p (m : Xhiu) (s : State) : (stepIndex m s).p = s.p := (stepIndex_onlyModifiers m s).p
@[simp] theorem stepIndex_cfg (m : Xhiu) (s : State) : (stepIndex m s).cfg = s.cfg :=
  (stepIndex_onlyModifiers m s).cfg
@[simp] theorem stepIndex_hasWord (m : Xhiu) (s : State) (u : Addr) :
    (stepIndex m s).hasWord u = s.hasWord u := (stepIndex_onlyModifiers m s).hasWord u

theorem stepIndex_reg_ne (m : Xhiu) (s : State) {r : RegAddr} (h : r ≠ xReg m.x) :
    (stepIndex m s).reg r = s.reg r := by
  unfold stepIndex
  split
  · exact State.reg_bumpIndex_ne s r m.x h
  · rfl

theorem stepIndex_of_x_zero {m : Xhiu} (s : State) (h : m.x = 0) : stepIndex m s = s := if_neg (by simp [h])

theorem stepIndex_of_h_false {m : Xhiu} (s : State) (h : m.h = false) : stepIndex m s = s := if_neg (by simp [h])

theorem indexSum_of_x_zero {m : Xhiu} (s : State) (h : m.x = 0) : indexSum m s = m.u.setWidth 18 := if_pos h

/-! ### Effective address -/

theorem chainBound_pos : 0 < Config.chainBound := by unfold Config.chainBound; positivity

theorem effAddrLoop_direct {n : Nat} (hn : 0 < n) {m : Xhiu} (s : State) (h : m.i = false) :
    effAddrLoop n m s = .ok (indexSum m s) (stepIndex m s) := by
  obtain ⟨k, rfl⟩ := Nat.exists_eq_succ_of_ne_zero hn.ne'
  simp [effAddrLoop, h]

/-- One level of an indirect chain. -/
theorem effAddrLoop_indirect {n : Nat} {m : Xhiu} {s : State} (h : m.i = true)
    (hr : isRegAddr (indexSum m s) = false) (hw : s.hasWord (indexSum m s) = true) :
    effAddrLoop (n + 1) m s =
      effAddrLoop n (xhiuOf (s.mem.read (indexSum m s).toNat)) (stepIndex m s) := by
  rw [effAddrLoop, if_pos h, if_neg (by simp [hr]), memRead_of_hasWord (by simpa using hw)]
  simp

theorem effAddrLoop_indirect_reg {n : Nat} {m : Xhiu} {s : State} (h : m.i = true)
    (hr : isRegAddr (indexSum m s) = true) :
    effAddrLoop (n + 1) m s = .refused (.indirectWordAtGrs (stepIndex m s)) := by
  rw [effAddrLoop, if_pos h, if_pos hr]

theorem effAddrLoop_indirect_fault {n : Nat} {m : Xhiu} {s : State} (h : m.i = true)
    (hr : isRegAddr (indexSum m s) = false) (hw : s.hasWord (indexSum m s) = false) :
    effAddrLoop (n + 1) m s = .raised (storageFault .indirectWord (indexSum m s) (stepIndex m s)) := by
  rw [effAddrLoop, if_pos h, if_neg (by simp [hr]), memRead_of_not (by simpa using hw)]
  rfl

/-- The cases of one level: the chain ends, is refused, faults or goes on. -/
theorem effAddrLoop_cases (n : Nat) (m : Xhiu) (s : State) :
    (m.i = false ∧ effAddrLoop (n + 1) m s = .ok (indexSum m s) (stepIndex m s)) ∨
    (m.i = true ∧ isRegAddr (indexSum m s) = true ∧
      effAddrLoop (n + 1) m s = .refused (.indirectWordAtGrs (stepIndex m s))) ∨
    (m.i = true ∧ isRegAddr (indexSum m s) = false ∧ s.hasWord (indexSum m s) = false ∧
      effAddrLoop (n + 1) m s = .raised (storageFault .indirectWord (indexSum m s) (stepIndex m s))) ∨
    (m.i = true ∧ isRegAddr (indexSum m s) = false ∧ s.hasWord (indexSum m s) = true ∧
      effAddrLoop (n + 1) m s = effAddrLoop n (xhiuOf (s.mem.read (indexSum m s).toNat)) (stepIndex m s)) := by
  cases hi : m.i
  · exact .inl ⟨rfl, effAddrLoop_direct (by omega) s hi⟩
  · cases hr : isRegAddr (indexSum m s)
    · cases hw : s.hasWord (indexSum m s)
      · exact .inr (.inr (.inl ⟨rfl, rfl, rfl, effAddrLoop_indirect_fault hi hr hw⟩))
      · exact .inr (.inr (.inr ⟨rfl, rfl, rfl, effAddrLoop_indirect hi hr hw⟩))
    · exact .inr (.inl ⟨rfl, rfl, effAddrLoop_indirect_reg hi hr⟩)

theorem effAddrLoop_ok {n : Nat} {m : Xhiu} {s t : State} {u : Addr} (h : effAddrLoop n m s = .ok u t) :
    OnlyModifiers s t := by
  induction n generalizing m s with
  | zero => simp [effAddrLoop] at h
  | succ n ih =>
    rcases effAddrLoop_cases n m s with ⟨-, e⟩ | ⟨-, -, e⟩ | ⟨-, -, -, e⟩ | ⟨-, -, -, e⟩ <;> rw [e] at h
    · cases h; exact stepIndex_onlyModifiers m s
    · cases h
    · cases h
    · exact (stepIndex_onlyModifiers m s).trans (ih h)

theorem effAddrLoop_raised {n : Nat} {m : Xhiu} {s : State} {f : Fault} (h : effAddrLoop n m s = .raised f) :
    f = .endlessIndirection ∨ ∃ u t, OnlyModifiers s t ∧ isRegAddr u = false ∧ s.hasWord u = false ∧
      f = storageFault .indirectWord u t := by
  induction n generalizing m s with
  | zero => simp only [effAddrLoop, Res.raised.injEq] at h; exact .inl h.symm
  | succ n ih =>
    rcases effAddrLoop_cases n m s with ⟨-, e⟩ | ⟨-, -, e⟩ | ⟨-, hr, hw, e⟩ | ⟨-, -, -, e⟩ <;> rw [e] at h
    · cases h
    · cases h
    · cases h; exact .inr ⟨_, _, stepIndex_onlyModifiers m s, hr, hw, rfl⟩
    · refine (ih h).imp id ?_
      rintro ⟨u, t, ht, hr, hw, e⟩
      exact ⟨u, t, (stepIndex_onlyModifiers m s).trans ht, hr, by simpa using hw, e⟩

theorem effAddrLoop_refused {n : Nat} {m : Xhiu} {s : State} {f : Refusal}
    (h : effAddrLoop n m s = .refused f) : ∃ t, OnlyModifiers s t ∧ f = .indirectWordAtGrs t := by
  induction n generalizing m s with
  | zero => simp [effAddrLoop] at h
  | succ n ih =>
    rcases effAddrLoop_cases n m s with ⟨-, e⟩ | ⟨-, -, e⟩ | ⟨-, -, -, e⟩ | ⟨-, -, -, e⟩ <;> rw [e] at h
    · cases h
    · cases h; exact ⟨_, stepIndex_onlyModifiers m s, rfl⟩
    · cases h
    · obtain ⟨t, ht, e⟩ := ih h
      exact ⟨t, (stepIndex_onlyModifiers m s).trans ht, e⟩

/-- More links than a chain needs change nothing. -/
theorem effAddrLoop_mono {n k : Nat} (hk : n ≤ k) {m : Xhiu} {s : State}
    (h : effAddrLoop n m s ≠ .raised .endlessIndirection) : effAddrLoop k m s = effAddrLoop n m s := by
  induction n generalizing k m s with
  | zero => exact absurd rfl h
  | succ n ih =>
    obtain ⟨k, rfl⟩ := Nat.exists_eq_add_of_lt (Nat.lt_of_succ_le hk)
    rcases effAddrLoop_cases n m s with ⟨hi, e⟩ | ⟨hi, hr, e⟩ | ⟨hi, hr, hw, e⟩ | ⟨hi, hr, hw, e⟩
    · rw [e, effAddrLoop_direct (by omega) s hi]
    · rw [e, effAddrLoop_indirect_reg hi hr]
    · rw [e, effAddrLoop_indirect_fault hi hr hw]
    · rw [e] at h ⊢
      rw [effAddrLoop_indirect hi hr hw]
      exact ih (by omega) h

theorem effAddr_direct {m : Xhiu} (s : State) (h : m.i = false) :
    effAddr m s = .ok (indexSum m s) (stepIndex m s) := effAddrLoop_direct chainBound_pos s h

theorem effAddr_ok {m : Xhiu} {s t : State} {u : Addr} (h : effAddr m s = .ok u t) : OnlyModifiers s t :=
  effAddrLoop_ok h

theorem effAddr_raised {m : Xhiu} {s : State} {f : Fault} (h : effAddr m s = .raised f) :
    f = .endlessIndirection ∨ ∃ u t, OnlyModifiers s t ∧ isRegAddr u = false ∧ s.hasWord u = false ∧
      f = storageFault .indirectWord u t := effAddrLoop_raised h

theorem effAddr_refused {m : Xhiu} {s : State} {f : Refusal} (h : effAddr m s = .refused f) :
    ∃ t, OnlyModifiers s t ∧ f = .indirectWordAtGrs t := effAddrLoop_refused h

/-- A chain of few links gives the effective address. -/
theorem effAddr_of_loop {n : Nat} {m : Xhiu} {s : State} (hn : n ≤ Config.chainBound)
    (h : effAddrLoop n m s ≠ .raised .endlessIndirection) : effAddr m s = effAddrLoop n m s :=
  effAddrLoop_mono hn h

/-! ### The instruction's own registers -/

theorem checkOwn_of_not {own : List RegAddr} {m : Xhiu} {s : State} (h : ¬UsesOwn own m) :
    checkOwn own m s = .ok () s := if_neg h

theorem checkOwn_of {own : List RegAddr} {m : Xhiu} {s : State} (h : UsesOwn own m) :
    checkOwn own m s = .refused (.ownIndexIncrement s) := if_pos h

@[simp] theorem checkOwn_nil (m : Xhiu) (s : State) : checkOwn [] m s = .ok () s :=
  checkOwn_of_not (by simp [UsesOwn])

theorem checkOwn_eq_ok {own : List RegAddr} {m : Xhiu} {s t : State} {x : Unit} :
    checkOwn own m s = .ok x t ↔ ¬UsesOwn own m ∧ t = s := by
  unfold checkOwn UsesOwn; split <;> grind

@[simp] theorem checkOwn_ne_raised {own : List RegAddr} {m : Xhiu} {s : State} {f : Fault} :
    checkOwn own m s ≠ .raised f := by
  unfold checkOwn; split <;> simp

theorem checkOwn_eq_refused {own : List RegAddr} {m : Xhiu} {s : State} {f : Refusal} :
    checkOwn own m s = .refused f ↔ UsesOwn own m ∧ f = .ownIndexIncrement s := by
  unfold checkOwn UsesOwn; split <;> grind

theorem ownAddr_of_not {own : List RegAddr} {m : Xhiu} {s : State} (h : ¬UsesOwn own m) :
    ownAddr own m s = effAddr m s := by rw [ownAddr, checkOwn_of_not h]; rfl

@[simp] theorem ownAddr_nil (m : Xhiu) (s : State) : ownAddr [] m s = effAddr m s :=
  ownAddr_of_not (by simp [UsesOwn])

theorem ownAddr_eq_ok {own : List RegAddr} {m : Xhiu} {s t : State} {u : Addr} :
    ownAddr own m s = .ok u t ↔ ¬UsesOwn own m ∧ effAddr m s = .ok u t := by
  by_cases h : UsesOwn own m
  · simp [ownAddr, checkOwn_of h, h]
  · rw [ownAddr_of_not h]; simp only [h, not_false_eq_true, true_and]

theorem ownAddr_ok {own : List RegAddr} {m : Xhiu} {s t : State} {u : Addr} (h : ownAddr own m s = .ok u t) :
    OnlyModifiers s t := effAddr_ok (ownAddr_eq_ok.1 h).2

theorem ownAddr_eq_raised {own : List RegAddr} {m : Xhiu} {s : State} {f : Fault} :
    ownAddr own m s = .raised f ↔ ¬UsesOwn own m ∧ effAddr m s = .raised f := by
  by_cases h : UsesOwn own m
  · simp [ownAddr, checkOwn_of h, h]
  · rw [ownAddr_of_not h]; simp only [h, not_false_eq_true, true_and]

theorem ownAddr_eq_refused {own : List RegAddr} {m : Xhiu} {s : State} {f : Refusal} :
    ownAddr own m s = .refused f ↔ (UsesOwn own m ∧ f = .ownIndexIncrement s) ∨
      (¬UsesOwn own m ∧ effAddr m s = .refused f) := by
  by_cases h : UsesOwn own m
  · simp only [ownAddr, checkOwn_of h, h]; grind [Res.bind]
  · rw [ownAddr_of_not h]; simp only [h, not_false_eq_true, true_and, false_and, false_or]

/-! ### Immediates -/

theorem immediate_eq_ok {e : BitVec 18 → Word} {m : Xhiu} {s t : State} {v : Word} :
    immediate e m s = .ok v t ↔ ¬(m.x ≠ 0 ∧ m.i = true) ∧ v = e (immediateBits m s) ∧ t = stepIndex m s := by
  unfold immediate; split <;> grind

@[simp] theorem immediate_ne_raised {e : BitVec 18 → Word} {m : Xhiu} {s : State} {f : Fault} :
    immediate e m s ≠ .raised f := by
  unfold immediate; split <;> simp

theorem immediate_eq_refused {e : BitVec 18 → Word} {m : Xhiu} {s : State} {f : Refusal} :
    immediate e m s = .refused f ↔ (m.x ≠ 0 ∧ m.i = true) ∧ f = .immediateIndexedIndirect s := by
  unfold immediate; split <;> grind

/-! ### Partial words -/

theorem partRead_eq_ok {p : Part} {u : Addr} {s t : State} {v : Word} :
    partRead p u s = .ok v t ↔ ¬(isRegAddr u = true ∧ p ≠ .w) ∧ ∃ w, opRead u s = .ok w t ∧ v = fieldGet p w := by
  unfold partRead
  split
  · grind
  · rw [Res.bind_eq_ok]; grind

theorem partRead_ok_state {p : Part} {u : Addr} {s t : State} {v : Word} (h : partRead p u s = .ok v t) :
    t = s := by
  obtain ⟨-, w, hw, -⟩ := partRead_eq_ok.1 h
  exact (opRead_eq_ok.1 hw).1

theorem partRead_eq_raised {p : Part} {u : Addr} {s : State} {f : Fault} :
    partRead p u s = .raised f ↔ isRegAddr u = false ∧ s.hasWord u = false ∧ f = storageFault .operandRead u s := by
  unfold partRead
  split
  · simp_all
  · rw [Res.bind_eq_raised, opRead_eq_raised]; simp

theorem partRead_eq_refused {p : Part} {u : Addr} {s : State} {f : Refusal} :
    partRead p u s = .refused f ↔ (isRegAddr u = true ∧ p ≠ .w) ∧ f = .partialWordOfRegister s := by
  unfold partRead
  split
  · grind
  · rw [Res.bind_eq_refused]; simp; grind

/-- What a store of a partial word does: the register as a whole word, or the storage word with the field replaced. -/
theorem partWrite_eq_ok {p : Part} {u : Addr} {v : Word} {s t : State} {x : Unit} :
    partWrite p u v s = .ok x t ↔
      (isRegAddr u = true ∧ p = .w ∧ t = s.setReg (u.setWidth 7) v) ∨
      (isRegAddr u = false ∧ s.hasWord u = true ∧ t = s.setWord u (fieldPut p (s.mem.read u.toNat) v)) := by
  unfold partWrite
  split
  · next h => subst h; rw [opWrite_eq_ok]; simp [fieldPut]
  · split
    · grind
    · rw [Res.bind_eq_ok]
      constructor
      · rintro ⟨w, s1, hr, hw⟩
        obtain ⟨rfl, h⟩ := opRead_eq_ok.1 hr
        rcases opWrite_eq_ok.1 hw with h' | h' <;> grind
      · rintro (h | ⟨h1, h2, h3⟩)
        · grind
        · exact ⟨_, _, opRead_storage h1 h2, by rw [opWrite_storage h1 h2, h3]⟩

theorem partWrite_ok_p {p : Part} {u : Addr} {v : Word} {s t : State} {x : Unit}
    (h : partWrite p u v s = .ok x t) : t.p = s.p ∧ t.cfg = s.cfg := by
  rcases partWrite_eq_ok.1 h with ⟨-, -, rfl⟩ | ⟨-, -, rfl⟩ <;> exact ⟨rfl, rfl⟩

theorem partWrite_ok_wf {p : Part} {u : Addr} {v : Word} {s t : State} {x : Unit}
    (h : partWrite p u v s = .ok x t) (hs : s.wf) : t.wf := by
  rcases partWrite_eq_ok.1 h with ⟨-, -, rfl⟩ | ⟨-, hw, rfl⟩
  · exact State.wf_congr rfl rfl hs
  · exact State.setWord_wf hs hw _

/-- A store that faults has changed nothing. -/
theorem partWrite_eq_raised {p : Part} {u : Addr} {v : Word} {s : State} {f : Fault} :
    partWrite p u v s = .raised f ↔ isRegAddr u = false ∧ s.hasWord u = false ∧
      f = storageFault (if p = .w then .operandWrite else .operandRead) u s := by
  unfold partWrite
  split
  · rw [opWrite_eq_raised]
  · split
    · simp_all
    · rw [Res.bind_eq_raised, opRead_eq_raised]
      constructor
      · rintro (h | ⟨w, s1, hr, hw⟩)
        · exact h
        · have := opRead_eq_ok.1 hr
          have := opWrite_eq_raised.1 hw
          grind
      · exact .inl

theorem partWrite_eq_refused {p : Part} {u : Addr} {v : Word} {s : State} {f : Refusal} :
    partWrite p u v s = .refused f ↔ (isRegAddr u = true ∧ p ≠ .w) ∧ f = .partialWordOfRegister s := by
  unfold partWrite
  split
  · simp_all
  · split
    · grind
    · rw [Res.bind_eq_refused]; simp; grind

/-! ### Operands -/

theorem operand_part {p : Part} {j : BitVec 4} {m : Xhiu} {s : State} (h : designate s.cfg.qwMode j = .part p) :
    operand j m s = (effAddr m s).bind fun u s1 => partRead p u s1 := by rw [operand, h]

theorem operand_u {j : BitVec 4} {m : Xhiu} {s : State} (h : designate s.cfg.qwMode j = .u) :
    operand j m s = immediate (fun v => v.setWidth 36) m s := by rw [operand, h]

theorem operand_xu {j : BitVec 4} {m : Xhiu} {s : State} (h : designate s.cfg.qwMode j = .xu) :
    operand j m s = immediate (fun v => v.signExtend 36) m s := by rw [operand, h]

theorem operand_ok {j : BitVec 4} {m : Xhiu} {s t : State} {v : Word} (h : operand j m s = .ok v t) :
    OnlyModifiers s t := by
  unfold operand at h
  split at h
  · obtain ⟨u, s1, hu, hr⟩ := Res.bind_eq_ok.1 h
    exact partRead_ok_state hr ▸ effAddr_ok hu
  all_goals
    obtain ⟨-, -, rfl⟩ := immediate_eq_ok.1 h
    exact stepIndex_onlyModifiers m s

/-- The ways an operand faults. -/
theorem operand_raised {j : BitVec 4} {m : Xhiu} {s : State} {f : Fault} (h : operand j m s = .raised f) :
    f = .endlessIndirection ∨ ∃ k u t, (k = .indirectWord ∨ k = .operandRead) ∧ OnlyModifiers s t ∧
      isRegAddr u = false ∧ s.hasWord u = false ∧ f = storageFault k u t := by
  unfold operand at h
  split at h
  · rcases Res.bind_eq_raised.1 h with h | ⟨u, s1, hu, hr⟩
    · exact (effAddr_raised h).imp id fun ⟨u, t, ht⟩ => ⟨_, u, t, .inl rfl, ht⟩
    · obtain ⟨h1, h2, h3⟩ := partRead_eq_raised.1 hr
      exact .inr ⟨_, u, s1, .inr rfl, effAddr_ok hu, h1, (effAddr_ok hu).hasWord u ▸ h2, h3⟩
  all_goals exact absurd h immediate_ne_raised

/-- What an operand with i = 0 answers, and the state its address formation leaves. -/
theorem operand_direct (j : BitVec 4) {m : Xhiu} (s : State) (h : m.i = false) :
    (∃ v, operand j m s = .ok v (stepIndex m s)) ∨
      operand j m s = .raised (storageFault .operandRead (indexSum m s) (stepIndex m s)) ∨
      operand j m s = .refused (.partialWordOfRegister (stepIndex m s)) := by
  unfold operand
  split
  · next p _ =>
    rw [effAddr_direct s h, Res.bind_ok]
    cases hr : partRead p (indexSum m s) (stepIndex m s) with
    | ok v t => exact .inl ⟨v, by rw [partRead_ok_state hr]⟩
    | raised f => exact .inr (.inl (by rw [(partRead_eq_raised.1 hr).2.2]))
    | refused f => exact .inr (.inr (by rw [(partRead_eq_refused.1 hr).2]))
  all_goals exact .inl ⟨_, immediate_eq_ok.2 ⟨by simp [h], rfl, rfl⟩⟩

theorem ownOperand_of_not {own : List RegAddr} {j : BitVec 4} {m : Xhiu} {s : State} (h : ¬UsesOwn own m) :
    ownOperand own j m s = operand j m s := by rw [ownOperand, checkOwn_of_not h]; rfl

theorem ownOperand_of {own : List RegAddr} {j : BitVec 4} {m : Xhiu} {s : State} (h : UsesOwn own m) :
    ownOperand own j m s = .refused (.ownIndexIncrement s) := by rw [ownOperand, checkOwn_of h]; rfl

theorem ownOperand_eq_ok {own : List RegAddr} {j : BitVec 4} {m : Xhiu} {s t : State} {v : Word} :
    ownOperand own j m s = .ok v t ↔ ¬UsesOwn own m ∧ operand j m s = .ok v t := by
  by_cases h : UsesOwn own m
  · rw [ownOperand_of h]; simp [h]
  · rw [ownOperand_of_not h]; simp only [h, not_false_eq_true, true_and]

theorem ownOperand_ok {own : List RegAddr} {j : BitVec 4} {m : Xhiu} {s t : State} {v : Word}
    (h : ownOperand own j m s = .ok v t) : OnlyModifiers s t := operand_ok (ownOperand_eq_ok.1 h).2

theorem ownOperand_eq_raised {own : List RegAddr} {j : BitVec 4} {m : Xhiu} {s : State} {f : Fault} :
    ownOperand own j m s = .raised f ↔ ¬UsesOwn own m ∧ operand j m s = .raised f := by
  by_cases h : UsesOwn own m
  · rw [ownOperand_of h]; simp [h]
  · rw [ownOperand_of_not h]; simp only [h, not_false_eq_true, true_and]

/-- What a store does: it forms the address, then writes the value the register holds by then. -/
theorem storeOperand_eq_ok {own : List RegAddr} {j : BitVec 4} {m : Xhiu} {v : State → Word} {s t : State}
    {x : Unit} : storeOperand own j m v s = .ok x t ↔
      ∃ p u s1, designate s.cfg.qwMode j = .part p ∧ ¬UsesOwn own m ∧ effAddr m s = .ok u s1 ∧
        partWrite p u (v s1) s1 = .ok x t := by
  unfold storeOperand
  split
  · next p hp =>
    rw [Res.bind_eq_ok]
    simp only [ownAddr_eq_ok]
    constructor
    · rintro ⟨u, s1, ⟨h1, h2⟩, h3⟩; exact ⟨p, u, s1, hp, h1, h2, h3⟩
    · rintro ⟨p', u, s1, hp', h1, h2, h3⟩
      rw [hp] at hp'; cases hp'; exact ⟨u, s1, ⟨h1, h2⟩, h3⟩
  · next hp => simp [hp]
  · next hp => simp [hp]

end Sys2Proof.Machine
end

