-- ==== Sys2Proof/Laws/Families.lean ====
section
/-! SUPPORT. For each shared operation of the instruction families, once, when it answers a next state and which. -/

namespace Sys2Proof.Machine

/-! ### Stores -/

theorem storeValue_next {own : List RegAddr} {j : BitVec 4} {m : Xhiu} {v : State → Word} {s t : State} :
    storeValue own j m v s = .next t ↔
      ∃ p u s1 s2, designate s.cfg.qwMode j = .part p ∧ ¬UsesOwn own m ∧ effAddr m s = .ok u s1 ∧
        partWrite p u (v s1) s1 = .ok () s2 ∧ t = s2.advance := by
  rw [storeValue, Res.toNext_eq_next]
  constructor
  · rintro ⟨x, s2, h, rfl⟩
    obtain ⟨p, u, s1, h⟩ := storeOperand_eq_ok.1 h
    exact ⟨p, u, s1, s2, h.1, h.2.1, h.2.2.1, h.2.2.2, rfl⟩
  · rintro ⟨p, u, s1, s2, h1, h2, h3, h4, rfl⟩
    exact ⟨(), s2, storeOperand_eq_ok.2 ⟨p, u, s1, h1, h2, h3, h4⟩, rfl⟩

theorem storeValue_wf {own : List RegAddr} {j : BitVec 4} {m : Xhiu} {v : State → Word} {s t : State}
    (h : storeValue own j m v s = .next t) (hs : s.wf) : t.wf := by
  obtain ⟨p, u, s1, s2, -, -, h1, h2, rfl⟩ := storeValue_next.1 h
  exact State.wf_congr (s := s2) rfl rfl (partWrite_ok_wf h2 ((effAddr_ok h1).wf hs))

theorem storeConst_next {j : BitVec 4} {m : Xhiu} {v : Word} {s t : State} :
    storeConst j m v s = .next t ↔
      ∃ p u s1 s2, designate s.cfg.qwMode j = .part p ∧ effAddr m s = .ok u s1 ∧
        partWrite p u v s1 = .ok () s2 ∧ t = s2.advance := by
  rw [storeConst, storeValue_next]
  simp [UsesOwn]

/-- The write of f = 05 arithmetic, and where P goes. -/
theorem f05At_next {a : BitVec 4} {p : Part} {u : Addr} {k : Word} {s t : State} :
    f05At a p u k s = .next t ↔ ¬(isRegAddr u = true ∧ p ≠ .w) ∧ ∃ w s2, opRead u s = .ok w s ∧
      opWrite u (fieldPut p w (onesAdd (fieldGet p w) k)) s = .ok () s2 ∧
      t = s2.skipIf (Config.f05Skip a (fieldGet p w) (onesAdd (fieldGet p w) k)) := by
  unfold f05At
  split
  · grind
  · rw [Res.andThen_eq_next]
    constructor
    · rintro ⟨w, s1, hr, hw⟩
      obtain ⟨rfl, -⟩ := opRead_eq_ok.1 hr
      obtain ⟨x, s2, hw', rfl⟩ := Res.toNext_eq_next.1 hw
      exact ⟨by assumption, w, s2, hr, hw', rfl⟩
    · rintro ⟨-, w, s2, hr, hw, rfl⟩
      exact ⟨w, s, hr, Res.toNext_eq_next.2 ⟨(), s2, hw, rfl⟩⟩

theorem f05Arith_next {a j : BitVec 4} {m : Xhiu} {k : Word} {s t : State} :
    f05Arith a j m k s = .next t ↔ ∃ p u s1, designate s.cfg.qwMode j = .part p ∧ effAddr m s = .ok u s1 ∧
      f05At a p u k s1 = .next t := by
  unfold f05Arith
  split
  · next p hp => rw [Res.andThen_eq_next]; grind
  · next hp => simp [hp]
  · next hp => simp [hp]

theorem f05Arith_wf {a j : BitVec 4} {m : Xhiu} {k : Word} {s t : State} (h : f05Arith a j m k s = .next t)
    (hs : s.wf) : t.wf := by
  obtain ⟨p, u, s1, -, h1, h2⟩ := f05Arith_next.1 h
  obtain ⟨-, w, s2, -, h3, rfl⟩ := f05At_next.1 h2
  exact State.wf_congr (by simp) (by simp) (opWrite_ok_wf h3 ((effAddr_ok h1).wf hs))

/-! ### Loads, multiplications, divisions, logical instructions, tests -/

theorem loadWith_next {own : List RegAddr} {j : BitVec 4} {m : Xhiu} {k : Word → State → State} {s t : State} :
    loadWith own j m k s = .next t ↔
      ∃ v s1, ¬UsesOwn own m ∧ operand j m s = .ok v s1 ∧ t = (k v s1).advance := by
  rw [loadWith, Res.toNext_eq_next]; simp only [ownOperand_eq_ok, and_assoc]

theorem multiply_next {own : List RegAddr} {j : BitVec 4} {m : Xhiu} {k : Word → State → State} {s t : State} :
    multiply own j m k s = .next t ↔
      ∃ v s1, ¬UsesOwn own m ∧ operand j m s = .ok v s1 ∧ t = (k v s1).advance := by
  rw [multiply, Res.toNext_eq_next]; simp only [ownOperand_eq_ok, and_assoc]

theorem divide_next {i : Instr} {own : List RegAddr} {j : BitVec 4} {m : Xhiu} {n : State → Bool × Nat}
    {k : Word → Word → State → State} {s t : State} :
    divide i own j m n k s = .next t ↔ ∃ v s1 q r, ¬UsesOwn own m ∧ operand j m s = .ok v s1 ∧
      quotRem (n s1).1 (n s1).2 v = some (q, r) ∧ t = (k q r s1).advance := by
  rw [divide, Res.andThen_eq_next]
  simp only [ownOperand_eq_ok]
  constructor
  · rintro ⟨v, s1, ⟨h1, h2⟩, h3⟩
    split at h3
    · cases h3
    · next q r hq => cases h3; exact ⟨v, s1, q, r, h1, h2, hq, rfl⟩
  · rintro ⟨v, s1, q, r, h1, h2, h3, rfl⟩
    exact ⟨v, s1, ⟨h1, h2⟩, by rw [h3]⟩

/-- A division faults where its operand does, or with the divide fault and no register changed. -/
theorem divide_fault {i : Instr} {own : List RegAddr} {j : BitVec 4} {m : Xhiu} {n : State → Bool × Nat}
    {k : Word → Word → State → State} {s : State} {f : Fault} :
    divide i own j m n k s = .fault f ↔ ¬UsesOwn own m ∧ (operand j m s = .raised f ∨
      ∃ v s1, operand j m s = .ok v s1 ∧ quotRem (n s1).1 (n s1).2 v = none ∧
        f = .interrupt (.divideFault (encode i)) s1) := by
  rw [divide, Res.andThen_eq_fault]
  simp only [ownOperand_eq_ok, ownOperand_eq_raised]
  constructor
  · rintro (⟨h1, h2⟩ | ⟨v, s1, ⟨h1, h2⟩, h3⟩)
    · exact ⟨h1, .inl h2⟩
    · split at h3
      · next hq => cases h3; exact ⟨h1, .inr ⟨v, s1, h2, hq, rfl⟩⟩
      · cases h3
  · rintro ⟨h1, h2 | ⟨v, s1, h2, h3, rfl⟩⟩
    · exact .inl ⟨h1, h2⟩
    · exact .inr ⟨v, s1, ⟨h1, h2⟩, by rw [h3]; rfl⟩

theorem logical_next {j a : BitVec 4} {m : Xhiu} {op : Word → Word → State → Word} {s t : State} :
    logical j a m op s = .next t ↔ ∃ v s1, ¬UsesOwn [aReg a, aReg1 a] m ∧ operand j m s = .ok v s1 ∧
      t = (s1.setReg (aReg1 a) (op (s1.reg (aReg a)) v s1)).advance := by
  rw [logical, Res.toNext_eq_next]; simp only [ownOperand_eq_ok, and_assoc]

theorem testSkip_next {own : List RegAddr} {j : BitVec 4} {m : Xhiu} {c : Word → State → Bool} {s t : State} :
    testSkip own j m c s = .next t ↔
      ∃ v s1, ¬UsesOwn own m ∧ operand j m s = .ok v s1 ∧ t = s1.skipIf (c v s1) := by
  rw [testSkip, Res.toNext_eq_next]; simp only [ownOperand_eq_ok, and_assoc]

/-! ### Double words, jumps, halves and thirds -/

theorem doubleOperand_eq_ok {a : BitVec 4} {m : Xhiu} {s t : State} {d : DWord} :
    doubleOperand a m s = .ok d t ↔ ¬UsesOwn [aReg a, aReg1 a] m ∧ ∃ u, effAddr m s = .ok u t ∧
      opRead2 u t = .ok d t := by
  rw [doubleOperand, Res.bind_eq_ok]
  simp only [ownAddr_eq_ok]
  constructor
  · rintro ⟨u, s1, ⟨h1, h2⟩, h3⟩
    obtain ⟨rfl, -⟩ := opRead2_eq_ok.1 h3
    exact ⟨h1, u, h2, h3⟩
  · rintro ⟨h1, u, h2, h3⟩; exact ⟨u, t, ⟨h1, h2⟩, h3⟩

theorem doubleOperand_ok {a : BitVec 4} {m : Xhiu} {s t : State} {d : DWord}
    (h : doubleOperand a m s = .ok d t) : OnlyModifiers s t := by
  obtain ⟨-, u, hu, -⟩ := doubleOperand_eq_ok.1 h
  exact effAddr_ok hu

theorem doubleLoad_next {a : BitVec 4} {m : Xhiu} {op : DWord → DWord → DWord} {s t : State} :
    doubleLoad a m op s = .next t ↔ ∃ d s1, doubleOperand a m s = .ok d s1 ∧
      t = (s1.setPair a (op (s1.pair a) d)).advance := by
  rw [doubleLoad, Res.toNext_eq_next]

theorem jumpAndShift_next {a : BitVec 4} {m : Xhiu} {c : Word → Bool} {s t : State} :
    jumpAndShift a m c s = .next t ↔ ∃ u s1, ¬UsesOwn [aReg a] m ∧ effAddr m s = .ok u s1 ∧
      t = (s1.setReg (aReg a) ((s1.reg (aReg a)).rotateLeft 1)).jumpIf (c (s1.reg (aReg a))) u := by
  rw [jumpAndShift, Res.toNext_eq_next]; simp only [ownAddr_eq_ok, and_assoc]

theorem addParts_next {a : BitVec 4} {m : Xhiu} {op : Word → Word → Word} {s t : State} :
    addParts a m op s = .next t ↔ ∃ u v s1, ¬UsesOwn [aReg a] m ∧ effAddr m s = .ok u s1 ∧
      opRead u s1 = .ok v s1 ∧ t = (s1.setReg (aReg a) (op (s1.reg (aReg a)) v)).advance := by
  rw [addParts, Res.toNext_eq_next]
  constructor
  · rintro ⟨v, s2, h, rfl⟩
    obtain ⟨u, s1, h1, h2⟩ := Res.bind_eq_ok.1 h
    obtain ⟨rfl, -⟩ := opRead_eq_ok.1 h2
    obtain ⟨h3, h4⟩ := ownAddr_eq_ok.1 h1
    exact ⟨u, v, s2, h3, h4, h2, rfl⟩
  · rintro ⟨u, v, s1, h1, h2, h3, rfl⟩
    exact ⟨v, s1, Res.bind_eq_ok.2 ⟨u, s1, ownAddr_eq_ok.2 ⟨h1, h2⟩, h3⟩, rfl⟩

/-! ### Block transfer -/

/-- One word of a block transfer: what it reads and where the field goes. -/
theorem btMove_eq_ok {p : Part} {a : BitVec 4} {m : Xhiu} {s t : State} {x : Unit} :
    btMove p a m s = .ok x t ↔
      ¬((isRegAddr (indexSum m s) = true ∨ isRegAddr (btTarget a m s) = true) ∧ p ≠ .w) ∧
      ∃ w, opRead (indexSum m s) s = .ok w s ∧ partWrite p (btTarget a m s) (fieldGet p w) s = .ok x t := by
  unfold btMove
  split
  · grind
  · rw [Res.bind_eq_ok]
    constructor
    · rintro ⟨w, s1, hr, hw⟩
      obtain ⟨rfl, -⟩ := opRead_eq_ok.1 hr
      exact ⟨by assumption, w, hr, hw⟩
    · rintro ⟨-, w, hr, hw⟩; exact ⟨w, s, hr, hw⟩

@[simp] theorem btIndex_mem (a : BitVec 4) (m : Xhiu) (s : State) : (btIndex a m s).mem = s.mem := by
  unfold btIndex; split
  · split <;> rfl
  · rfl
@[simp] theorem btIndex_p (a : BitVec 4) (m : Xhiu) (s : State) : (btIndex a m s).p = s.p := by
  unfold btIndex; split
  · split <;> rfl
  · rfl
@[simp] theorem btIndex_cfg (a : BitVec 4) (m : Xhiu) (s : State) : (btIndex a m s).cfg = s.cfg := by
  unfold btIndex; split
  · split <;> rfl
  · rfl

theorem btLoop_zero (p : Part) (a : BitVec 4) (m : Xhiu) (s : State) : btLoop p a m 0 s = .next s.advance := rfl

/-- One repetition, then the rest. -/
theorem btLoop_succ_next {p : Part} {a : BitVec 4} {m : Xhiu} {n : Nat} {s t : State} :
    btLoop p a m (n + 1) s = .next t ↔ ∃ s1, btMove p a m s = .ok () s1 ∧
      btLoop p a m n ((btIndex a m s1).setRepeatCount (BitVec.ofNat 18 n)) = .next t := by
  rw [btLoop, Res.andThen_eq_next]
  constructor
  · rintro ⟨x, s1, h⟩; exact ⟨s1, h⟩
  · rintro ⟨s1, h⟩; exact ⟨(), s1, h⟩

/-- A block transfer faults at the start of a repetition, where its move does. -/
theorem btLoop_succ_fault {p : Part} {a : BitVec 4} {m : Xhiu} {n : Nat} {s : State} {f : Fault} :
    btLoop p a m (n + 1) s = .fault f ↔ btMove p a m s = .raised f ∨ ∃ s1, btMove p a m s = .ok () s1 ∧
      btLoop p a m n ((btIndex a m s1).setRepeatCount (BitVec.ofNat 18 n)) = .fault f := by
  rw [btLoop, Res.andThen_eq_fault]
  exact or_congr_right ⟨fun ⟨_, s1, h⟩ => ⟨s1, h⟩, fun ⟨s1, h⟩ => ⟨(), s1, h⟩⟩

/-- A move faults at its source or at its destination, with nothing changed. -/
theorem btMove_raised {p : Part} {a : BitVec 4} {m : Xhiu} {s : State} {f : Fault} (h : btMove p a m s = .raised f) :
    ∃ k u, f = storageFault k u s := by
  unfold btMove at h
  split at h
  · cases h
  · rcases Res.bind_eq_raised.1 h with h | ⟨w, s1, hr, hw⟩
    · exact ⟨_, _, (opRead_eq_raised.1 h).2.2⟩
    · obtain ⟨rfl, -⟩ := opRead_eq_ok.1 hr
      exact ⟨_, _, (partWrite_eq_raised.1 hw).2.2⟩

theorem btLoop_wf {p : Part} {a : BitVec 4} {m : Xhiu} {n : Nat} {s t : State}
    (h : btLoop p a m n s = .next t) (hs : s.wf) : t.wf := by
  induction n generalizing s with
  | zero => cases h; exact hs
  | succ n ih =>
    obtain ⟨s1, h1, h2⟩ := btLoop_succ_next.1 h
    obtain ⟨-, w, -, hw⟩ := btMove_eq_ok.1 h1
    exact ih h2 (State.wf_congr (by simp) (by simp) (partWrite_ok_wf hw hs))

/-- What a whole block transfer leaves: P one further and the parameters. -/
theorem btLoop_p_cfg {p : Part} {a : BitVec 4} {m : Xhiu} {n : Nat} {s t : State}
    (h : btLoop p a m n s = .next t) : t.p = s.p + 1 ∧ t.cfg = s.cfg := by
  induction n generalizing s with
  | zero => cases h; exact ⟨rfl, rfl⟩
  | succ n ih =>
    obtain ⟨s1, h1, h2⟩ := btLoop_succ_next.1 h
    obtain ⟨-, w, -, hw⟩ := btMove_eq_ok.1 h1
    have := partWrite_ok_p hw
    simpa [this.1, this.2] using ih h2

/-! ### Searches -/

theorem searchLoop_zero (next : State → Res Word) (c : Word → State → Bool) (s : State) :
    searchLoop next c 0 s = .next s.advance := rfl

/-- One repetition: the search ends, or goes on with the count one less. -/
theorem searchLoop_succ_next {next : State → Res Word} {c : Word → State → Bool} {n : Nat} {s t : State} :
    searchLoop next c (n + 1) s = .next t ↔ ∃ v s1, next s = .ok v s1 ∧
      ((c v s1 = true ∧ t = (s1.setRepeatCount (BitVec.ofNat 18 n)).skip) ∨
        (c v s1 = false ∧ searchLoop next c n (s1.setRepeatCount (BitVec.ofNat 18 n)) = .next t)) := by
  rw [searchLoop, Res.andThen_eq_next]
  constructor
  · rintro ⟨v, s1, h1, h2⟩
    cases hc : c v s1
    · exact ⟨v, s1, h1, .inr ⟨hc, by simpa [hc] using h2⟩⟩
    · rw [hc, if_pos rfl] at h2; cases h2
      exact ⟨v, s1, h1, .inl ⟨hc, rfl⟩⟩
  · rintro ⟨v, s1, h1, ⟨hc, rfl⟩ | ⟨hc, h2⟩⟩
    · exact ⟨v, s1, h1, by rw [hc, if_pos rfl]⟩
    · exact ⟨v, s1, h1, by rw [hc]; exact h2⟩

/-- A search faults where the forming or the reading of an operand does. -/
theorem searchLoop_succ_fault {next : State → Res Word} {c : Word → State → Bool} {n : Nat} {s : State} {f : Fault} :
    searchLoop next c (n + 1) s = .fault f ↔ next s = .raised f ∨ ∃ v s1, next s = .ok v s1 ∧ c v s1 = false ∧
      searchLoop next c n (s1.setRepeatCount (BitVec.ofNat 18 n)) = .fault f := by
  rw [searchLoop, Res.andThen_eq_fault]
  refine or_congr_right (exists_congr fun v => exists_congr fun s1 => and_congr_right fun _ => ?_)
  cases c v s1 <;> simp

/-- A search is refused where the forming or the reading of an operand is. -/
theorem searchLoop_succ_refused {next : State → Res Word} {c : Word → State → Bool} {n : Nat} {s : State}
    {f : Refusal} : searchLoop next c (n + 1) s = .refused f ↔ next s = .refused f ∨
      ∃ v s1, next s = .ok v s1 ∧ c v s1 = false ∧
        searchLoop next c n (s1.setRepeatCount (BitVec.ofNat 18 n)) = .refused f := by
  rw [searchLoop, Res.andThen_eq_refused]
  refine or_congr_right (exists_congr fun v => exists_congr fun s1 => and_congr_right fun _ => ?_)
  cases c v s1 <;> simp

/-- What a search leaves: the storage, the parameters, and every register but the modifiers and the count. -/
theorem searchLoop_frame {next : State → Res Word} {c : Word → State → Bool}
    (hn : ∀ s v t, next s = .ok v t → OnlyModifiers s t) {n : Nat} {s t : State}
    (h : searchLoop next c n s = .next t) :
    t.mem = s.mem ∧ t.cfg = s.cfg ∧ (t.p = s.p + 1 ∨ t.p = s.p + 2) ∧
      (∀ r : RegAddr, r.toNat = 0 ∨ 0o17 < r.toNat → r ≠ rReg 1 → t.reg r = s.reg r) ∧
      highHalf (t.reg (rReg 1)) = highHalf (s.reg (rReg 1)) := by
  induction n generalizing s with
  | zero => cases h; simp
  | succ n ih =>
    obtain ⟨v, s1, h1, h2⟩ := searchLoop_succ_next.1 h
    have hs := hn s v s1 h1
    have hr : ∀ r : RegAddr, r.toNat = 0 ∨ 0o17 < r.toNat → r ≠ rReg 1 →
        (s1.setRepeatCount (BitVec.ofNat 18 n)).reg r = s.reg r := fun r hr hne => by
      rw [State.reg_setRepeatCount_ne _ _ _ hne, hs.reg r hr]
    have hh : highHalf ((s1.setRepeatCount (BitVec.ofNat 18 n)).reg (rReg 1)) = highHalf (s.reg (rReg 1)) := by
      simp only [State.setRepeatCount, State.reg_setReg_same, highHalf_ofHalves]
      rw [hs.reg (rReg 1) (.inr (by rw [rReg_toNat]; decide))]
    rcases h2 with ⟨-, rfl⟩ | ⟨-, h2⟩
    · exact ⟨hs.mem, hs.cfg, .inr (by simp [hs.p]), hr, hh⟩
    · obtain ⟨g1, g2, g3, g4, g5⟩ := ih h2
      refine ⟨g1.trans hs.mem, g2.trans hs.cfg, by simpa [hs.p] using g3, fun r hr' hne => ?_, g5.trans hh⟩
      rw [g4 r hr' hne, hr r hr' hne]

theorem search_next {own : List RegAddr} {m : Xhiu} {next : State → Res Word} {c : Word → State → Bool}
    {s t : State} : search own m next c s = .next t ↔ m.i = false ∧ ¬UsesOwn own m ∧
      searchLoop next c s.repeatCount.toNat s = .next t := by
  unfold search
  split
  · next h => simp [h]
  · next h =>
    rw [Res.andThen_eq_next]
    simp only [checkOwn_eq_ok]
    constructor
    · rintro ⟨x, s1, ⟨h1, rfl⟩, h2⟩; exact ⟨by simpa using h, h1, h2⟩
    · rintro ⟨-, h1, h2⟩; exact ⟨(), s, ⟨h1, rfl⟩, h2⟩

/-- A search that R93 and R97 do not refuse is its loop. -/
theorem search_of_not {own : List RegAddr} {m : Xhiu} (next : State → Res Word) (c : Word → State → Bool) (s : State)
    (hi : m.i = false) (hn : ¬UsesOwn own m) : search own m next c s = searchLoop next c s.repeatCount.toNat s := by
  rw [search, if_neg (by simp [hi]), checkOwn_of_not hn, Res.andThen_ok]

/-- Only a search that R93 and R97 do not refuse faults. -/
theorem search_fault {own : List RegAddr} {m : Xhiu} {next : State → Res Word} {c : Word → State → Bool} {s : State}
    {f : Fault} : search own m next c s = .fault f ↔ m.i = false ∧ ¬UsesOwn own m ∧
      searchLoop next c s.repeatCount.toNat s = .fault f := by
  by_cases hi : m.i = false
  · by_cases hn : UsesOwn own m
    · rw [search, if_neg (by simp [hi]), checkOwn_of hn, Res.andThen_refused]; simp [hn]
    · rw [search_of_not next c s hi hn]; simp [hi, hn]
  · rw [search, if_pos (by simpa using hi)]; simp [hi]

/-- What the operand of a masked search answers when i = 0, and the state its address formation leaves. -/
theorem wholeOperand_direct {m : Xhiu} (s : State) (h : m.i = false) :
    (∃ v, wholeOperand m s = .ok v (stepIndex m s)) ∨
      wholeOperand m s = .raised (storageFault .operandRead (indexSum m s) (stepIndex m s)) := by
  rw [wholeOperand, effAddr_direct s h, Res.bind_ok]
  cases hr : opRead (indexSum m s) (stepIndex m s) with
  | ok v t => exact .inl ⟨v, by rw [(opRead_eq_ok.1 hr).1]⟩
  | raised f => exact .inr (by rw [(opRead_eq_raised.1 hr).2.2])
  | refused f => exact absurd hr opRead_ne_refused

theorem wholeOperand_ok {m : Xhiu} {s t : State} {v : Word} (h : wholeOperand m s = .ok v t) :
    OnlyModifiers s t := by
  obtain ⟨u, s1, hu, hr⟩ := Res.bind_eq_ok.1 h
  exact (opRead_eq_ok.1 hr).1 ▸ effAddr_ok hu

/-! What a repetition of a search keeps. -/

theorem SearchFrame.refl (m : Xhiu) (s : State) : SearchFrame m s s := ⟨rfl, rfl, rfl, fun _ _ _ => rfl, rfl, rfl⟩

theorem SearchFrame.trans {m : Xhiu} {s t u : State} (h : SearchFrame m s t) (h' : SearchFrame m t u) :
    SearchFrame m s u :=
  ⟨h'.mem.trans h.mem, h'.p.trans h.p, h'.cfg.trans h.cfg, fun r h1 h2 => (h'.reg r h1 h2).trans (h.reg r h1 h2),
    h'.increment.trans h.increment, h'.upper.trans h.upper⟩

theorem xReg_ne_rReg (k i : BitVec 4) : xReg k ≠ rReg i := fun h => by
  have := congrArg BitVec.toNat h
  rw [xReg_toNat, rReg_toNat] at this
  omega

theorem stepIndex_searchFrame (m : Xhiu) (s : State) : SearchFrame m s (stepIndex m s) where
  mem := stepIndex_mem m s
  p := stepIndex_p m s
  cfg := stepIndex_cfg m s
  reg r _ h := by
    rcases h with h | h | h
    · exact stepIndex_reg_ne m s h
    · rw [stepIndex_of_x_zero s h]
    · rw [stepIndex_of_h_false s h]
  increment := (stepIndex_onlyModifiers m s).increment m.x
  upper := by rw [stepIndex_reg_ne m s (xReg_ne_rReg _ _).symm]

theorem setRepeatCount_searchFrame (m : Xhiu) (s : State) (n : BitVec 18) : SearchFrame m s (s.setRepeatCount n) where
  mem := rfl
  p := rfl
  cfg := rfl
  reg r h _ := State.reg_setRepeatCount_ne s r n h
  increment := by rw [State.increment, State.reg_setRepeatCount_ne s _ n (xReg_ne_rReg _ _)]; rfl
  upper := by simp [State.setRepeatCount]

@[simp] theorem stepIndex_repeatCount (m : Xhiu) (s : State) : (stepIndex m s).repeatCount = s.repeatCount := by
  rw [State.repeatCount, stepIndex_reg_ne m s (xReg_ne_rReg _ _).symm]; rfl

/-! ### EX and the step -/

/-- EX aside, `exec` and the meanings that EX runs are the same; EX is `execEx` in both. -/
theorem exec_eq_execWith (i : Instr) (s : State) : exec i s = execWith execEx i s := by cases i <;> rfl

/-- What EX runs is its own meaning, unless it is another EX. -/
theorem execWith_of_not_ex {onEx : BitVec 4 → Xhiu → State → Answer} {i : Instr} (s : State)
    (h : ∀ a m, i ≠ .ex a m) : execWith onEx i s = exec i s := by
  cases i
  case ex a m => exact absurd rfl (h a m)
  all_goals rfl

/-- One link of a chain of EX. -/
theorem exLoop_next {n : Nat} {m : Xhiu} {s t : State} :
    exLoop (n + 1) m s = .next t ↔ ∃ u s1, effAddr m s = .ok u s1 ∧ s1.hasWord u = true ∧
      execWordWith (execWith fun _ m' s' => exLoop n m' s') (s1.mem.read u.toNat) s1 = .next t := by
  rw [exLoop, Res.andThen_eq_next]
  constructor
  · rintro ⟨w, s2, h1, h2⟩
    obtain ⟨u, s1, hu, hr⟩ := Res.bind_eq_ok.1 h1
    obtain ⟨hw, rfl, rfl⟩ := memRead_eq_ok.1 hr
    exact ⟨u, s2, hu, hw, h2⟩
  · rintro ⟨u, s1, hu, hw, h⟩
    exact ⟨_, s1, Res.bind_eq_ok.2 ⟨u, s1, hu, memRead_of_hasWord hw⟩, h⟩

theorem execWordWith_of_decode {run : Instr → State → Answer} {w : Word} {i : Instr} (s : State)
    (h : decode w = some i) : execWordWith run w s = run i s := by rw [execWordWith, h]

theorem execWordWith_of_invalid {run : Instr → State → Answer} {w : Word} (s : State) (h : decode w = none) :
    execWordWith run w s = .fault (.interrupt (invalidCode w) s) := by
  rw [execWordWith, h]; rfl

end Sys2Proof.Machine
end

