-- ==== Sys2Proof/Laws/Chains.lean ====
section
/-! SUPPORT. The chain bound is exact (logs 12 and 13): an indirect chain or a chain of EX that has not ended after
`Config.chainBound` links never ends, because it has come back to a state it was in. -/

namespace Sys2Proof.Machine

/-! ### Chains in general -/

/-- `n` links of a chain, where `f` answers none at the end of the chain. -/
def links {α : Type} (f : α → Option α) : Nat → α → Option α
  | 0, c => some c
  | n + 1, c => (f c).bind (links f n)

theorem links_add {α : Type} (f : α → Option α) (n k : Nat) (c : α) :
    links f (n + k) c = (links f n c).bind (links f k) := by
  induction n generalizing c with
  | zero => simp [links]
  | succ n ih =>
    rw [Nat.succ_add, links, links]
    cases f c with
    | none => rfl
    | some d => simpa using ih d

theorem links_isSome_of_le {α : Type} {f : α → Option α} {n k : Nat} (h : k ≤ n) {c : α}
    (hn : (links f n c).isSome) : (links f k c).isSome := by
  obtain ⟨d, rfl⟩ := Nat.exists_eq_add_of_le h
  rw [links_add] at hn
  cases hk : links f k c with
  | none => rw [hk] at hn; exact absurd hn (by simp)
  | some d => rfl

theorem links_mul {α : Type} {f : α → Option α} {k : Nat} {c : α} (h : links f k c = some c) (n : Nat) :
    links f (n * k) c = some c := by
  induction n with
  | zero => simp [links]
  | succ n ih => rw [Nat.succ_mul, links_add, ih]; exact h

/-- A chain over at most `N` places that has `N` links has any number of links. -/
theorem links_forever {α T : Type} [Fintype T] {f : α → Option α} (φ : α → T) (I : α → Prop)
    (hI : ∀ c d, I c → f c = some d → I d) (hφ : ∀ c d, I c → I d → φ c = φ d → c = d) {N : Nat}
    (hN : Fintype.card T ≤ N) {c : α} (hc : I c) (h : (links f N c).isSome) (n : Nat) :
    (links f n c).isSome := by
  have hI' : ∀ k c d, I c → links f k c = some d → I d := by
    intro k
    induction k with
    | zero => intro c d hc hd; cases hd; exact hc
    | succ k ih =>
      intro c d hc hd
      rw [links] at hd
      cases hf : f c with
      | none => simp [hf] at hd
      | some e => rw [hf] at hd; exact ih e d (hI c e hc hf) hd
  have hk : ∀ k : Fin (N + 1), ∃ d, links f k c = some d := fun k =>
    Option.isSome_iff_exists.1 (links_isSome_of_le (Nat.lt_succ_iff.1 k.isLt) h)
  choose g hg using hk
  obtain ⟨i, j, hij, he⟩ := Fintype.exists_ne_map_eq_of_card_lt (fun k => φ (g k)) (by simpa using by omega)
  wlog hlt : i < j generalizing i j
  · exact this j i hij.symm he.symm (lt_of_le_of_ne (not_lt.1 hlt) hij.symm)
  have hgg : g i = g j := hφ _ _ (hI' _ _ _ hc (hg i)) (hI' _ _ _ hc (hg j)) he
  obtain ⟨p, hp⟩ := Nat.exists_eq_add_of_lt (show (i : Nat) < j from hlt)
  have hloop : links f (p + 1) (g i) = some (g i) := by
    have := hg j
    rw [show (j : Nat) = i + (p + 1) by omega, links_add, hg i] at this
    rw [hgg] at this ⊢
    exact this
  have hmany : (links f (i + n * (p + 1)) c).isSome := by
    rw [links_add, hg i]
    simp [links_mul hloop n]
  refine links_isSome_of_le ?_ hmany
  calc n ≤ n * (p + 1) := Nat.le_mul_of_pos_right n (Nat.succ_pos p)
    _ ≤ i + n * (p + 1) := Nat.le_add_left _ _

/-! ### The places of an indirect chain -/

/-- What can differ between two links: x, h, i, u and the sixteen modifiers. -/
abbrev Place := (Fin (2 ^ 4) × Bool × Bool × Fin (2 ^ 16)) × (Fin 16 → Fin (2 ^ 18))

theorem card_place : Fintype.card Place = Config.chainBound := by
  rw [Fintype.card_prod, Fintype.card_prod, Fintype.card_prod, Fintype.card_prod, Fintype.card_fin,
    Fintype.card_fin, Fintype.card_bool, Fintype.card_fun, Fintype.card_fin, Fintype.card_fin]
  unfold Config.chainBound
  rw [show (2 ^ 4 * (2 * (2 * 2 ^ 16)) : Nat) = 2 ^ 22 by norm_num]

def placeOf (c : Xhiu × State) : Place :=
  ((c.1.x.toFin, c.1.h, c.1.i, c.1.u.toFin), fun k => (c.2.modifier (BitVec.ofFin k)).toFin)

theorem halves_ext {v w : Word} (h1 : highHalf v = highHalf w) (h2 : lowHalf v = lowHalf w) : v = w := by
  have e : ∀ x : Word, x = ofHalves (highHalf x) (lowHalf x) := fun x => by
    ext i hi
    simp only [ofHalves, highHalf, lowHalf, ← BitVec.getLsbD_eq_getElem, BitVec.getLsbD_append,
      BitVec.getLsbD_extractLsb']
    grind
  rw [e v, e w, h1, h2]

/-- Two states reached from one by address formation are equal when their modifiers are. -/
theorem OnlyModifiers.ext {s t t' : State} (h : OnlyModifiers s t) (h' : OnlyModifiers s t')
    (hm : ∀ k, t.modifier k = t'.modifier k) : t = t' := by
  refine State.ext_reg (fun r => ?_) (h.mem.trans h'.mem.symm) (h.p.trans h'.p.symm) (h.cfg.trans h'.cfg.symm)
  by_cases hr : r.toNat = 0 ∨ 0o17 < r.toNat
  · rw [h.reg r hr, h'.reg r hr]
  · have e : r = xReg (r.setWidth 4) := BitVec.eq_of_toNat_eq (by rw [xReg_toNat, BitVec.toNat_setWidth]; omega)
    rw [e]
    exact halves_ext ((h.increment _).trans (h'.increment _).symm) (hm _)

theorem placeOf_inj {s : State} {c d : Xhiu × State} (hc : OnlyModifiers s c.2) (hd : OnlyModifiers s d.2)
    (h : placeOf c = placeOf d) : c = d := by
  obtain ⟨⟨x, hh, i, u⟩, t⟩ := c
  obtain ⟨⟨x', hh', i', u'⟩, t'⟩ := d
  simp only [placeOf, Prod.mk.injEq] at h
  obtain ⟨⟨h1, h2, h3, h4⟩, h5⟩ := h
  have ht : t = t' := OnlyModifiers.ext hc hd fun k => by
    have := congrFun h5 k.toFin
    exact BitVec.toFin_inj.1 this
  rw [BitVec.toFin_inj.1 h1, h2, h3, BitVec.toFin_inj.1 h4, ht]

/-! ### Indirect chains -/

/-- One link of an indirect chain, none at its end. -/
def indirectLink (c : Xhiu × State) : Option (Xhiu × State) :=
  if c.1.i = true ∧ isRegAddr (indexSum c.1 c.2) = false ∧ c.2.hasWord (indexSum c.1 c.2) = true then
    some (xhiuOf (c.2.mem.read (indexSum c.1 c.2).toNat), stepIndex c.1 c.2)
  else none

theorem effAddrLoop_endless_iff (n : Nat) (m : Xhiu) (s : State) :
    effAddrLoop n m s = .raised .endlessIndirection ↔ (links indirectLink n (m, s)).isSome := by
  induction n generalizing m s with
  | zero => simp [effAddrLoop, links]
  | succ n ih =>
    rw [links]
    rcases effAddrLoop_cases n m s with ⟨h1, e⟩ | ⟨h1, h2, e⟩ | ⟨h1, h2, h3, e⟩ | ⟨h1, h2, h3, e⟩
    · simp [e, indirectLink, h1]
    · simp [e, indirectLink, h2]
    · simp [e, indirectLink, h3, storageFault, takeInterrupt]
    · rw [e, ih]; simp [indirectLink, h1, h2, h3]

theorem indirectLink_onlyModifiers {s : State} {c d : Xhiu × State} (hc : OnlyModifiers s c.2)
    (h : indirectLink c = some d) : OnlyModifiers s d.2 := by
  unfold indirectLink at h
  split at h
  · cases h; exact hc.trans (stepIndex_onlyModifiers _ _)
  · cases h

/-- An effective address without a result never comes to one, however many links are followed. -/
theorem effAddr_endless {m : Xhiu} {s : State} (h : effAddr m s = .raised .endlessIndirection) (n : Nat) :
    effAddrLoop n m s = .raised .endlessIndirection := by
  rw [effAddrLoop_endless_iff]
  exact links_forever placeOf (fun c => OnlyModifiers s c.2) (fun _ _ hc hd => indirectLink_onlyModifiers hc hd)
    (fun _ _ hc hd h => placeOf_inj hc hd h) (card_place.le) (.refl s)
    ((effAddrLoop_endless_iff _ m s).1 h) n

/-- At or above the bound the number of links makes no difference. -/
theorem effAddrLoop_of_bound_le {n : Nat} (hn : Config.chainBound ≤ n) (m : Xhiu) (s : State) :
    effAddrLoop n m s = effAddr m s := by
  by_cases h : effAddr m s = .raised .endlessIndirection
  · rw [effAddr_endless h n, h]
  · exact effAddrLoop_mono hn h

/-! ### Chains of EX -/

/-- One link of a chain of EX, none at its end. -/
def exLink (c : Xhiu × State) : Option (Xhiu × State) :=
  match effAddr c.1 c.2 with
  | .ok u s1 =>
    if s1.hasWord u = true then
      match decode (s1.mem.read u.toNat) with
      | some (.ex _ m) => some (m, s1)
      | _ => none
    else none
  | .raised _ => none
  | .refused _ => none

theorem exLink_onlyModifiers {s : State} {c d : Xhiu × State} (hc : OnlyModifiers s c.2)
    (h : exLink c = some d) : OnlyModifiers s d.2 := by
  unfold exLink at h
  split at h
  · next u s1 he =>
    split at h
    · split at h
      · cases h; exact hc.trans (effAddr_ok he)
      · cases h
    · cases h
  · cases h
  · cases h

theorem exLoop_of_link {n : Nat} {m : Xhiu} {s : State} {d : Xhiu × State} (h : exLink (m, s) = some d) :
    exLoop (n + 1) m s = exLoop n d.1 d.2 := by
  unfold exLink at h
  split at h
  · next u s1 he =>
    split at h
    · next hw =>
      split at h
      · next a m' hd =>
        cases h
        rw [exLoop, he, Res.bind_ok, memRead_of_hasWord hw, Res.andThen_ok, execWordWith_of_decode _ hd]
        rfl
      · cases h
    · cases h
  · cases h
  · cases h

/-- Where the chain ends the number of links left makes no difference. -/
theorem exLoop_of_end {m : Xhiu} {s : State} (h : exLink (m, s) = none) (n k : Nat) :
    exLoop (n + 1) m s = exLoop (k + 1) m s := by
  unfold exLink at h
  rw [exLoop, exLoop]
  cases he : effAddr m s with
  | raised f => rfl
  | refused f => rfl
  | ok u s1 =>
    simp only [he] at h
    cases hw : s1.hasWord u with
    | false => rw [Res.bind_ok, memRead_of_not hw]; rfl
    | true =>
      rw [if_pos hw] at h
      rw [Res.bind_ok, memRead_of_hasWord hw, Res.andThen_ok, Res.andThen_ok]
      unfold execWordWith
      cases hd : decode (s1.mem.read u.toNat) with
      | none => rfl
      | some i =>
        have hi : ∀ a m, i ≠ .ex a m := fun a m e => by subst e; simp [hd] at h
        simp only [execWith_of_not_ex _ hi]

theorem exLoop_endless_of_links {n : Nat} {m : Xhiu} {s : State} (h : (links exLink n (m, s)).isSome) :
    exLoop n m s = .fault .endlessExecution := by
  induction n generalizing m s with
  | zero => rfl
  | succ n ih =>
    rw [links] at h
    cases hl : exLink (m, s) with
    | none => simp [hl] at h
    | some d => rw [exLoop_of_link hl]; exact ih (by simpa [hl] using h)

/-- The number of links allowed makes no difference beyond the end of the chain. -/
theorem exLoop_stable {n k : Nat} {m : Xhiu} {s : State} (h : links exLink n (m, s) = none) (hk : n ≤ k) :
    exLoop k m s = exLoop n m s := by
  induction n generalizing k m s with
  | zero => simp [links] at h
  | succ n ih =>
    obtain ⟨k, rfl⟩ := Nat.exists_eq_add_of_lt (Nat.lt_of_succ_le hk)
    cases hl : exLink (m, s) with
    | none => exact exLoop_of_end hl _ _
    | some d =>
      rw [exLoop_of_link hl, exLoop_of_link hl]
      rw [links, hl] at h
      exact ih h (by omega)

theorem exLink_forever {m : Xhiu} {s : State} (h : (links exLink Config.chainBound (m, s)).isSome) (n : Nat) :
    (links exLink n (m, s)).isSome :=
  links_forever placeOf (fun c => OnlyModifiers s c.2) (fun _ _ hc hd => exLink_onlyModifiers hc hd)
    (fun _ _ hc hd h => placeOf_inj hc hd h) (card_place.le) (.refl s) h n

/-- At or above the bound the number of links makes no difference. -/
theorem exLoop_of_bound_le {n : Nat} (hn : Config.chainBound ≤ n) (m : Xhiu) (s : State) :
    exLoop n m s = exLoop Config.chainBound m s := by
  cases h : links exLink Config.chainBound (m, s) with
  | none => exact exLoop_stable h hn
  | some d =>
    have hf : ∀ k, exLoop k m s = .fault .endlessExecution := fun k =>
      exLoop_endless_of_links (exLink_forever (by simp [h]) k)
    rw [hf, hf]

end Sys2Proof.Machine
end

