-- ==== Sys2Proof/Laws/Encoding.lean ====
section
/-! SUPPORT. The fields of a packed word are the fields it was packed from, and a word is packed from its fields. -/

namespace Sys2Proof

variable (f : BitVec 6) (j a : BitVec 4) (m : Xhiu) (w : Word)

@[simp] theorem fieldF_packWord : fieldF (packWord f j a m) = f := by
  ext k hk
  simp only [fieldF, packWord, BitVec.getElem_extractLsb', BitVec.getLsbD_append, BitVec.getLsbD_ofBool]
  grind

@[simp] theorem fieldJ_packWord : fieldJ (packWord f j a m) = j := by
  ext k hk
  simp only [fieldJ, packWord, BitVec.getElem_extractLsb', BitVec.getLsbD_append, BitVec.getLsbD_ofBool]
  grind

@[simp] theorem fieldA_packWord : fieldA (packWord f j a m) = a := by
  ext k hk
  simp only [fieldA, packWord, BitVec.getElem_extractLsb', BitVec.getLsbD_append, BitVec.getLsbD_ofBool]
  grind

theorem Xhiu.ext_fields {m n : Xhiu} (hx : m.x = n.x) (hh : m.h = n.h) (hi : m.i = n.i) (hu : m.u = n.u) :
    m = n := by
  cases m; cases n; simp_all

@[simp] theorem xhiuOf_packWord : xhiuOf (packWord f j a m) = m := by
  refine Xhiu.ext_fields ?_ ?_ ?_ ?_
  · ext k hk
    simp only [xhiuOf, packWord, BitVec.getElem_extractLsb', BitVec.getLsbD_append, BitVec.getLsbD_ofBool]
    grind
  · simp only [xhiuOf, packWord, BitVec.getLsbD_append, BitVec.getLsbD_ofBool]
    grind
  · simp only [xhiuOf, packWord, BitVec.getLsbD_append, BitVec.getLsbD_ofBool]
    grind
  · ext k hk
    simp only [xhiuOf, packWord, BitVec.getElem_extractLsb', BitVec.getLsbD_append, BitVec.getLsbD_ofBool]
    grind

@[simp] theorem packWord_fields : packWord (fieldF w) (fieldJ w) (fieldA w) (xhiuOf w) = w := by
  ext k hk
  simp only [fieldF, fieldJ, fieldA, xhiuOf, packWord, ← BitVec.getLsbD_eq_getElem, BitVec.getLsbD_append,
    BitVec.getLsbD_ofBool, BitVec.getLsbD_extractLsb']
  grind

theorem decode_packWord : decode (packWord f j a m) = decodeFields f j a m := by simp [decode]

/-- The encoded word, field by field. -/
theorem fields_encode (i : Instr) : fieldF (encode i) = i.code.1 ∧ fieldJ (encode i) = i.code.2.1 ∧
    fieldA (encode i) = i.code.2.2 ∧ xhiuOf (encode i) = i.xhiu := by simp [encode]

end Sys2Proof
end

