-- ==== Sys2Proof/Laws/PerInstr.lean ====
section
/-! SUPPORT. The family `EncodedFields`, instruction by instruction: the fields of the encoded word are the f, j and a
of the instruction's line and its own x, h, i and u. -/

namespace Sys2Proof.Laws.EncodedFields

/-- The encoded word has the instruction's fields at the positions of R79 and R80. -/
def Statement (i : Instr) : Prop :=
  fieldF (encode i) = i.code.1 ∧ fieldJ (encode i) = i.code.2.1 ∧ fieldA (encode i) = i.code.2.2 ∧
    xhiuOf (encode i) = i.xhiu

theorem sa (j : BitVec 4) (a : BitVec 4) (m : Xhiu) : Statement (.sa j a m) := fields_encode _
theorem sna (j : BitVec 4) (a : BitVec 4) (m : Xhiu) : Statement (.sna j a m) := fields_encode _
theorem sma (j : BitVec 4) (a : BitVec 4) (m : Xhiu) : Statement (.sma j a m) := fields_encode _
theorem sr (j : BitVec 4) (a : BitVec 4) (m : Xhiu) : Statement (.sr j a m) := fields_encode _
theorem sz (j : BitVec 4) (m : Xhiu) : Statement (.sz j m) := fields_encode _
theorem snz (j : BitVec 4) (m : Xhiu) : Statement (.snz j m) := fields_encode _
theorem sp1 (j : BitVec 4) (m : Xhiu) : Statement (.sp1 j m) := fields_encode _
theorem sn1 (j : BitVec 4) (m : Xhiu) : Statement (.sn1 j m) := fields_encode _
theorem sfs (j : BitVec 4) (m : Xhiu) : Statement (.sfs j m) := fields_encode _
theorem sfz (j : BitVec 4) (m : Xhiu) : Statement (.sfz j m) := fields_encode _
theorem sas (j : BitVec 4) (m : Xhiu) : Statement (.sas j m) := fields_encode _
theorem inc (j : BitVec 4) (m : Xhiu) : Statement (.inc j m) := fields_encode _
theorem dec (j : BitVec 4) (m : Xhiu) : Statement (.dec j m) := fields_encode _
theorem inc2 (j : BitVec 4) (m : Xhiu) : Statement (.inc2 j m) := fields_encode _
theorem dec2 (j : BitVec 4) (m : Xhiu) : Statement (.dec2 j m) := fields_encode _
theorem enz (j : BitVec 4) (a : BitVec 4) (m : Xhiu) : Statement (.enz j a m) := fields_encode _
theorem sx (j : BitVec 4) (a : BitVec 4) (m : Xhiu) : Statement (.sx j a m) := fields_encode _
theorem ldj (a : BitVec 4) (m : Xhiu) : Statement (.ldj a m) := fields_encode _
theorem lij (a : BitVec 4) (m : Xhiu) : Statement (.lij a m) := fields_encode _
theorem lpd (a : BitVec 4) (m : Xhiu) : Statement (.lpd a m) := fields_encode _
theorem spd (a : BitVec 4) (m : Xhiu) : Statement (.spd a m) := fields_encode _
theorem lbj (a : BitVec 4) (m : Xhiu) : Statement (.lbj a m) := fields_encode _
theorem la (j : BitVec 4) (a : BitVec 4) (m : Xhiu) : Statement (.la j a m) := fields_encode _
theorem lna (j : BitVec 4) (a : BitVec 4) (m : Xhiu) : Statement (.lna j a m) := fields_encode _
theorem lma (j : BitVec 4) (a : BitVec 4) (m : Xhiu) : Statement (.lma j a m) := fields_encode _
theorem lnma (j : BitVec 4) (a : BitVec 4) (m : Xhiu) : Statement (.lnma j a m) := fields_encode _
theorem aa (j : BitVec 4) (a : BitVec 4) (m : Xhiu) : Statement (.aa j a m) := fields_encode _
theorem ana (j : BitVec 4) (a : BitVec 4) (m : Xhiu) : Statement (.ana j a m) := fields_encode _
theorem ama (j : BitVec 4) (a : BitVec 4) (m : Xhiu) : Statement (.ama j a m) := fields_encode _
theorem anma (j : BitVec 4) (a : BitVec 4) (m : Xhiu) : Statement (.anma j a m) := fields_encode _
theorem au (j : BitVec 4) (a : BitVec 4) (m : Xhiu) : Statement (.au j a m) := fields_encode _
theorem anu (j : BitVec 4) (a : BitVec 4) (m : Xhiu) : Statement (.anu j a m) := fields_encode _
theorem bt (j : BitVec 4) (a : BitVec 4) (m : Xhiu) : Statement (.bt j a m) := fields_encode _
theorem lr (j : BitVec 4) (a : BitVec 4) (m : Xhiu) : Statement (.lr j a m) := fields_encode _
theorem ax (j : BitVec 4) (a : BitVec 4) (m : Xhiu) : Statement (.ax j a m) := fields_encode _
theorem anx (j : BitVec 4) (a : BitVec 4) (m : Xhiu) : Statement (.anx j a m) := fields_encode _
theorem lxm (j : BitVec 4) (a : BitVec 4) (m : Xhiu) : Statement (.lxm j a m) := fields_encode _
theorem lx (j : BitVec 4) (a : BitVec 4) (m : Xhiu) : Statement (.lx j a m) := fields_encode _
theorem mi (j : BitVec 4) (a : BitVec 4) (m : Xhiu) : Statement (.mi j a m) := fields_encode _
theorem msi (j : BitVec 4) (a : BitVec 4) (m : Xhiu) : Statement (.msi j a m) := fields_encode _
theorem mf (j : BitVec 4) (a : BitVec 4) (m : Xhiu) : Statement (.mf j a m) := fields_encode _
theorem bm (a : BitVec 4) (m : Xhiu) : Statement (.bm a m) := fields_encode _
theorem bmt (a : BitVec 4) (m : Xhiu) : Statement (.bmt a m) := fields_encode _
theorem btc (a : BitVec 4) (m : Xhiu) : Statement (.btc a m) := fields_encode _
theorem bc (a : BitVec 4) (m : Xhiu) : Statement (.bc a m) := fields_encode _
theorem bpd (a : BitVec 4) (m : Xhiu) : Statement (.bpd a m) := fields_encode _
theorem pdb (a : BitVec 4) (m : Xhiu) : Statement (.pdb a m) := fields_encode _
theorem edit (a : BitVec 4) (m : Xhiu) : Statement (.edit a m) := fields_encode _
theorem bi (a : BitVec 4) (m : Xhiu) : Statement (.bi a m) := fields_encode _
theorem bdi (a : BitVec 4) (m : Xhiu) : Statement (.bdi a m) := fields_encode _
theorem ib (a : BitVec 4) (m : Xhiu) : Statement (.ib a m) := fields_encode _
theorem dib (a : BitVec 4) (m : Xhiu) : Statement (.dib a m) := fields_encode _
theorem bf (a : BitVec 4) (m : Xhiu) : Statement (.bf a m) := fields_encode _
theorem bdf (a : BitVec 4) (m : Xhiu) : Statement (.bdf a m) := fields_encode _
theorem fb (a : BitVec 4) (m : Xhiu) : Statement (.fb a m) := fields_encode _
theorem dfb (a : BitVec 4) (m : Xhiu) : Statement (.dfb a m) := fields_encode _
theorem di (j : BitVec 4) (a : BitVec 4) (m : Xhiu) : Statement (.di j a m) := fields_encode _
theorem dsf (j : BitVec 4) (a : BitVec 4) (m : Xhiu) : Statement (.dsf j a m) := fields_encode _
theorem df (j : BitVec 4) (a : BitVec 4) (m : Xhiu) : Statement (.df j a m) := fields_encode _
theorem qb (a : BitVec 4) (m : Xhiu) : Statement (.qb a m) := fields_encode _
theorem bq (a : BitVec 4) (m : Xhiu) : Statement (.bq a m) := fields_encode _
theorem qbh (a : BitVec 4) (m : Xhiu) : Statement (.qbh a m) := fields_encode _
theorem bqh (a : BitVec 4) (m : Xhiu) : Statement (.bqh a m) := fields_encode _
theorem qdb (a : BitVec 4) (m : Xhiu) : Statement (.qdb a m) := fields_encode _
theorem dbq (a : BitVec 4) (m : Xhiu) : Statement (.dbq a m) := fields_encode _
theorem ba (a : BitVec 4) (m : Xhiu) : Statement (.ba a m) := fields_encode _
theorem ban (a : BitVec 4) (m : Xhiu) : Statement (.ban a m) := fields_encode _
theorem or (j : BitVec 4) (a : BitVec 4) (m : Xhiu) : Statement (.or j a m) := fields_encode _
theorem xor (j : BitVec 4) (a : BitVec 4) (m : Xhiu) : Statement (.xor j a m) := fields_encode _
theorem and (j : BitVec 4) (a : BitVec 4) (m : Xhiu) : Statement (.and j a m) := fields_encode _
theorem mlu (j : BitVec 4) (a : BitVec 4) (m : Xhiu) : Statement (.mlu j a m) := fields_encode _
theorem tep (j : BitVec 4) (a : BitVec 4) (m : Xhiu) : Statement (.tep j a m) := fields_encode _
theorem top (j : BitVec 4) (a : BitVec 4) (m : Xhiu) : Statement (.top j a m) := fields_encode _
theorem xli (j : BitVec 4) (a : BitVec 4) (m : Xhiu) : Statement (.xli j a m) := fields_encode _
theorem tlem (j : BitVec 4) (a : BitVec 4) (m : Xhiu) : Statement (.tlem j a m) := fields_encode _
theorem tz (j : BitVec 4) (a : BitVec 4) (m : Xhiu) : Statement (.tz j a m) := fields_encode _
theorem tnz (j : BitVec 4) (a : BitVec 4) (m : Xhiu) : Statement (.tnz j a m) := fields_encode _
theorem te (j : BitVec 4) (a : BitVec 4) (m : Xhiu) : Statement (.te j a m) := fields_encode _
theorem tne (j : BitVec 4) (a : BitVec 4) (m : Xhiu) : Statement (.tne j a m) := fields_encode _
theorem tle (j : BitVec 4) (a : BitVec 4) (m : Xhiu) : Statement (.tle j a m) := fields_encode _
theorem tg (j : BitVec 4) (a : BitVec 4) (m : Xhiu) : Statement (.tg j a m) := fields_encode _
theorem tw (j : BitVec 4) (a : BitVec 4) (m : Xhiu) : Statement (.tw j a m) := fields_encode _
theorem tnw (j : BitVec 4) (a : BitVec 4) (m : Xhiu) : Statement (.tnw j a m) := fields_encode _
theorem tp (j : BitVec 4) (a : BitVec 4) (m : Xhiu) : Statement (.tp j a m) := fields_encode _
theorem tn (j : BitVec 4) (a : BitVec 4) (m : Xhiu) : Statement (.tn j a m) := fields_encode _
theorem se (j : BitVec 4) (a : BitVec 4) (m : Xhiu) : Statement (.se j a m) := fields_encode _
theorem sne (j : BitVec 4) (a : BitVec 4) (m : Xhiu) : Statement (.sne j a m) := fields_encode _
theorem sle (j : BitVec 4) (a : BitVec 4) (m : Xhiu) : Statement (.sle j a m) := fields_encode _
theorem sg (j : BitVec 4) (a : BitVec 4) (m : Xhiu) : Statement (.sg j a m) := fields_encode _
theorem sw (j : BitVec 4) (a : BitVec 4) (m : Xhiu) : Statement (.sw j a m) := fields_encode _
theorem snw (j : BitVec 4) (a : BitVec 4) (m : Xhiu) : Statement (.snw j a m) := fields_encode _
theorem jgd (j : BitVec 4) (a : BitVec 4) (m : Xhiu) : Statement (.jgd j a m) := fields_encode _
theorem mse (a : BitVec 4) (m : Xhiu) : Statement (.mse a m) := fields_encode _
theorem msne (a : BitVec 4) (m : Xhiu) : Statement (.msne a m) := fields_encode _
theorem msle (a : BitVec 4) (m : Xhiu) : Statement (.msle a m) := fields_encode _
theorem msg (a : BitVec 4) (m : Xhiu) : Statement (.msg a m) := fields_encode _
theorem msw (a : BitVec 4) (m : Xhiu) : Statement (.msw a m) := fields_encode _
theorem msnw (a : BitVec 4) (m : Xhiu) : Statement (.msnw a m) := fields_encode _
theorem masl (a : BitVec 4) (m : Xhiu) : Statement (.masl a m) := fields_encode _
theorem masg (a : BitVec 4) (m : Xhiu) : Statement (.masg a m) := fields_encode _
theorem da (a : BitVec 4) (m : Xhiu) : Statement (.da a m) := fields_encode _
theorem dan (a : BitVec 4) (m : Xhiu) : Statement (.dan a m) := fields_encode _
theorem ds (a : BitVec 4) (m : Xhiu) : Statement (.ds a m) := fields_encode _
theorem dl (a : BitVec 4) (m : Xhiu) : Statement (.dl a m) := fields_encode _
theorem dln (a : BitVec 4) (m : Xhiu) : Statement (.dln a m) := fields_encode _
theorem dlm (a : BitVec 4) (m : Xhiu) : Statement (.dlm a m) := fields_encode _
theorem djz (a : BitVec 4) (m : Xhiu) : Statement (.djz a m) := fields_encode _
theorem dte (a : BitVec 4) (m : Xhiu) : Statement (.dte a m) := fields_encode _
theorem slj (a : BitVec 4) (m : Xhiu) : Statement (.slj a m) := fields_encode _
theorem jps (a : BitVec 4) (m : Xhiu) : Statement (.jps a m) := fields_encode _
theorem jns (a : BitVec 4) (m : Xhiu) : Statement (.jns a m) := fields_encode _
theorem ah (a : BitVec 4) (m : Xhiu) : Statement (.ah a m) := fields_encode _
theorem anh (a : BitVec 4) (m : Xhiu) : Statement (.anh a m) := fields_encode _
theorem at_ (a : BitVec 4) (m : Xhiu) : Statement (.at_ a m) := fields_encode _
theorem ant (a : BitVec 4) (m : Xhiu) : Statement (.ant a m) := fields_encode _
theorem ex (a : BitVec 4) (m : Xhiu) : Statement (.ex a m) := fields_encode _
theorem er (a : BitVec 4) (m : Xhiu) : Statement (.er a m) := fields_encode _
theorem srs (a : BitVec 4) (m : Xhiu) : Statement (.srs a m) := fields_encode _
theorem lrs (a : BitVec 4) (m : Xhiu) : Statement (.lrs a m) := fields_encode _

end Sys2Proof.Laws.EncodedFields
end

