-- ==== Sys2Proof/Tests/Slice0.lean ====
section
/-! SUPPORT. The model's own tests: ill-formed terms refused, every row's word decoded, one step of every instruction
that has one, and for each statement with hypotheses a state and operands that meet them. Expected values come from
the spec: the words of the instruction rules, and the rows of 96_test_vectors_families_1.md and
97_test_vectors_families_2.md. -/

namespace Sys2Proof.Tests

open Sys2Proof Sys2Proof.Machine

/-! ### Helpers -/

/-- Every word decodes to the instruction beside it. -/
def decodesTo (l : List (Word × Instr)) : Bool := l.all fun c => decode c.1 == some c.2

/-- P = 2000 octal with the word `w` there, and the registers and the storage words given. -/
def start (w : Word) (grs mem : List (Nat × Word)) : State :=
  let s := mem.foldl (fun s c => s.setWord (BitVec.ofNat 18 c.1) c.2) { State.reset with p := 0o2000#18 }
  (grs.foldl (fun s c => s.setReg (BitVec.ofNat 7 c.1) c.2) s).setWord 0o2000#18 w

/-- The six words the search rows of the spec's vectors look through. -/
def searched : List (Nat × Word) :=
  [(0o3000, 0o000000000001#36), (0o3001, 0o000000000005#36), (0o3002, 0o777777777775#36),
   (0o3003, 0o000000000077#36), (0o3004, 0o000000000005#36), (0o3005, 0o000000001000#36)]

/-- The answer is a next state with this P, these registers and these storage words. -/
def after (o : Answer) (p : Nat) (grs mem : List (Nat × Word)) : Bool :=
  match o with
  | .next t => t.p == BitVec.ofNat 18 p && grs.all (fun c => t.reg (BitVec.ofNat 7 c.1) == c.2) &&
      mem.all fun c => t.mem.read c.1 == c.2
  | .fault _ => false
  | .refused _ => false

/-- The answer is an interrupt, and `f` holds of its event and its state. -/
def interruptWith (o : Answer) (f : Event → State → Bool) : Bool :=
  match o with
  | .next _ => false
  | .fault (.interrupt e t) => f e t
  | .fault .endlessIndirection => false
  | .fault .endlessExecution => false
  | .refused _ => false

/-- The answer is this interrupt, with P = 2000 octal in the state that goes with it. -/
def interrupts (o : Answer) (e : Event) : Bool := interruptWith o fun e' t => e' == e && t.p == 0o2000#18

theorem interrupt_of_with {o : Answer} {f : Event → State → Bool} (h : interruptWith o f = true) :
    ∃ e t, o = .fault (.interrupt e t) := by
  cases o with
  | next _ => cases h
  | fault g => cases g with
    | interrupt e t => exact ⟨e, t, rfl⟩
    | endlessIndirection => cases h
    | endlessExecution => cases h
  | refused _ => cases h

/-- The answer is the refusal that `r` makes of the state. -/
def refuses (o : Answer) (r : State → Refusal) (s : State) : Bool :=
  match o with
  | .next _ => false
  | .fault _ => false
  | .refused r' => r' == r s

/-- The operation answers a value and a state for which `f` holds. -/
def okWith {α : Type} (r : Res α) (f : α → State → Bool) : Bool :=
  match r with
  | .ok v s => f v s
  | .raised _ => false
  | .refused _ => false

theorem ok_of_okWith {α : Type} {r : Res α} {f : α → State → Bool} (h : okWith r f = true) :
    ∃ v s1, r = .ok v s1 ∧ f v s1 = true := by
  cases r with
  | ok v s => exact ⟨v, s, rfl, h⟩
  | raised _ => cases h
  | refused _ => cases h

/-- The operation answers a value at all. -/
theorem ok_of_isOk {α : Type} {r : Res α} (h : okWith r (fun _ _ => true) = true) : ∃ v s1, r = .ok v s1 :=
  let ⟨v, s1, h, _⟩ := ok_of_okWith h
  ⟨v, s1, h⟩

def isNext (o : Answer) : Bool :=
  match o with
  | .next _ => true
  | .fault _ => false
  | .refused _ => false

theorem next_of_isNext {o : Answer} (h : isNext o = true) : ∃ t, o = .next t := by
  cases o with
  | next t => exact ⟨t, rfl⟩
  | fault _ => cases h
  | refused _ => cases h

/-! ### Well-formedness: an ill-formed term for each check, refused -/

theorem test_wellFormed_j : [Instr.sa 14 0 ⟨0, false, false, 0⟩, .sna 15 0 ⟨0, false, false, 0⟩,
    .sma 14 0 ⟨0, false, false, 0⟩, .sr 15 0 ⟨0, false, false, 0⟩, .sx 14 0 ⟨0, false, false, 0⟩,
    .bt 15 0 ⟨0, false, false, 0⟩].all (fun i => !i.wellFormed) = true := by decide

theorem test_wellFormed_a : (Instr.enz 0 0o13 ⟨0, false, false, 0⟩).wellFormed = false := by decide

theorem test_wellFormed_bounds : [Instr.sa 13 0 ⟨0, false, false, 0⟩, .bt 13 15 ⟨15, true, true, 0⟩,
    .enz 15 0o14 ⟨0, false, false, 0⟩, .sz 15 ⟨0, false, false, 0⟩].all Instr.wellFormed = true := by decide

theorem test_decodes_lbj : (Instr.lbj 0 ⟨0, false, false, 0⟩).decodes = false := by decide

/-! ### Decoding: a word of every row, from the examples of the instruction rules (SNA and SMA by R80) -/

theorem test_decode_stores : decodesTo
    [(0o010000001000#36, .sa 0o0 0o0 ⟨0, false, false, 0o1000⟩),
     (0o020020001000#36, .sna 0o0 0o1 ⟨0, false, false, 0o1000⟩),
     (0o030040001000#36, .sma 0o0 0o2 ⟨0, false, false, 0o1000⟩),
     (0o040020001000#36, .sr 0o0 0o1 ⟨0, false, false, 0o1000⟩),
     (0o051000001000#36, .sz 0o2 ⟨0, false, false, 0o1000⟩),
     (0o050020001000#36, .snz 0o0 ⟨0, false, false, 0o1000⟩),
     (0o050040001000#36, .sp1 0o0 ⟨0, false, false, 0o1000⟩),
     (0o050060001000#36, .sn1 0o0 ⟨0, false, false, 0o1000⟩),
     (0o050100001000#36, .sfs 0o0 ⟨0, false, false, 0o1000⟩),
     (0o050120001000#36, .sfz 0o0 ⟨0, false, false, 0o1000⟩),
     (0o050140001000#36, .sas 0o0 ⟨0, false, false, 0o1000⟩),
     (0o050200001000#36, .inc 0o0 ⟨0, false, false, 0o1000⟩),
     (0o050220001000#36, .dec 0o0 ⟨0, false, false, 0o1000⟩),
     (0o050240001000#36, .inc2 0o0 ⟨0, false, false, 0o1000⟩),
     (0o050260001000#36, .dec2 0o0 ⟨0, false, false, 0o1000⟩),
     (0o050300001000#36, .enz 0o0 0o14 ⟨0, false, false, 0o1000⟩),
     (0o060120001000#36, .sx 0o0 0o5 ⟨0, false, false, 0o1000⟩)] = true := by decide

theorem test_decode_bank : decodesTo
    [(0o075000001000#36, .ldj 0o0 ⟨0, false, false, 0o1000⟩),
     (0o076000001000#36, .lij 0o0 ⟨0, false, false, 0o1000⟩),
     (0o076400001000#36, .lpd 0o0 ⟨0, false, false, 0o1000⟩),
     (0o077400001000#36, .spd 0o0 ⟨0, false, false, 0o1000⟩),
     (0o077420001000#36, .spd 0o1 ⟨0, false, false, 0o1000⟩)] = true := by decide

theorem test_decode_loads : decodesTo
    [(0o107420777776#36, .la 0o17 0o1 ⟨0, true, true, 0o177776⟩),
     (0o100000001000#36, .la 0o0 0o0 ⟨0, false, false, 0o1000⟩),
     (0o110000001000#36, .lna 0o0 0o0 ⟨0, false, false, 0o1000⟩),
     (0o120000001000#36, .lma 0o0 0o0 ⟨0, false, false, 0o1000⟩),
     (0o130000001000#36, .lnma 0o0 0o0 ⟨0, false, false, 0o1000⟩),
     (0o140000001000#36, .aa 0o0 0o0 ⟨0, false, false, 0o1000⟩),
     (0o150000001000#36, .ana 0o0 0o0 ⟨0, false, false, 0o1000⟩),
     (0o160000001000#36, .ama 0o0 0o0 ⟨0, false, false, 0o1000⟩),
     (0o170000001000#36, .anma 0o0 0o0 ⟨0, false, false, 0o1000⟩),
     (0o200100001000#36, .au 0o0 0o4 ⟨0, false, false, 0o1000⟩),
     (0o210100001000#36, .anu 0o0 0o4 ⟨0, false, false, 0o1000⟩),
     (0o220041400000#36, .bt 0o0 0o2 ⟨1, true, false, 0o0⟩),
     (0o237020000005#36, .lr 0o16 0o1 ⟨0, false, false, 0o5⟩),
     (0o247060000020#36, .ax 0o16 0o3 ⟨0, false, false, 0o20⟩),
     (0o257060000020#36, .anx 0o16 0o3 ⟨0, false, false, 0o20⟩),
     (0o267060003000#36, .lxm 0o16 0o3 ⟨0, false, false, 0o3000⟩),
     (0o270060001000#36, .lx 0o0 0o3 ⟨0, false, false, 0o1000⟩)] = true := by decide

theorem test_decode_multiply : decodesTo
    [(0o300100001000#36, .mi 0o0 0o4 ⟨0, false, false, 0o1000⟩),
     (0o310100001000#36, .msi 0o0 0o4 ⟨0, false, false, 0o1000⟩),
     (0o320100001000#36, .mf 0o0 0o4 ⟨0, false, false, 0o1000⟩),
     (0o340100001000#36, .di 0o0 0o4 ⟨0, false, false, 0o1000⟩),
     (0o350100001000#36, .dsf 0o0 0o4 ⟨0, false, false, 0o1000⟩),
     (0o360100001000#36, .df 0o0 0o4 ⟨0, false, false, 0o1000⟩)] = true := by decide

theorem test_decode_flagged : decodesTo
    [(0o330000001000#36, .bm 0o0 ⟨0, false, false, 0o1000⟩),
     (0o330400001000#36, .bmt 0o0 ⟨0, false, false, 0o1000⟩),
     (0o331400001000#36, .btc 0o0 ⟨0, false, false, 0o1000⟩),
     (0o332000001000#36, .bc 0o0 ⟨0, false, false, 0o1000⟩),
     (0o332400001000#36, .bpd 0o0 ⟨0, false, false, 0o1000⟩),
     (0o333000001000#36, .pdb 0o0 ⟨0, false, false, 0o1000⟩),
     (0o333400001000#36, .edit 0o0 ⟨0, false, false, 0o1000⟩),
     (0o334000001000#36, .bi 0o0 ⟨0, false, false, 0o1000⟩),
     (0o334400001000#36, .bdi 0o0 ⟨0, false, false, 0o1000⟩),
     (0o335000001000#36, .ib 0o0 ⟨0, false, false, 0o1000⟩),
     (0o335400001000#36, .dib 0o0 ⟨0, false, false, 0o1000⟩),
     (0o336000001000#36, .bf 0o0 ⟨0, false, false, 0o1000⟩),
     (0o336400001000#36, .bdf 0o0 ⟨0, false, false, 0o1000⟩),
     (0o337000001000#36, .fb 0o0 ⟨0, false, false, 0o1000⟩),
     (0o337400001000#36, .dfb 0o0 ⟨0, false, false, 0o1000⟩),
     (0o370000001000#36, .qb 0o0 ⟨0, false, false, 0o1000⟩),
     (0o370400001000#36, .bq 0o0 ⟨0, false, false, 0o1000⟩),
     (0o371000001000#36, .qbh 0o0 ⟨0, false, false, 0o1000⟩),
     (0o371400001000#36, .bqh 0o0 ⟨0, false, false, 0o1000⟩),
     (0o372000001000#36, .qdb 0o0 ⟨0, false, false, 0o1000⟩),
     (0o372400001000#36, .dbq 0o0 ⟨0, false, false, 0o1000⟩),
     (0o373000001000#36, .ba 0o0 ⟨0, false, false, 0o1000⟩),
     (0o373400001000#36, .ban 0o0 ⟨0, false, false, 0o1000⟩)] = true := by decide

theorem test_decode_logical : decodesTo
    [(0o400100001000#36, .or 0o0 0o4 ⟨0, false, false, 0o1000⟩),
     (0o410100001000#36, .xor 0o0 0o4 ⟨0, false, false, 0o1000⟩),
     (0o420100001000#36, .and 0o0 0o4 ⟨0, false, false, 0o1000⟩),
     (0o430100001000#36, .mlu 0o0 0o4 ⟨0, false, false, 0o1000⟩),
     (0o440100001000#36, .tep 0o0 0o4 ⟨0, false, false, 0o1000⟩),
     (0o450100001000#36, .top 0o0 0o4 ⟨0, false, false, 0o1000⟩),
     (0o467060000002#36, .xli 0o16 0o3 ⟨0, false, false, 0o2⟩),
     (0o470060001000#36, .tlem 0o0 0o3 ⟨0, false, false, 0o1000⟩)] = true := by decide

theorem test_decode_tests : decodesTo
    [(0o500000001000#36, .tz 0o0 0o0 ⟨0, false, false, 0o1000⟩),
     (0o510000001000#36, .tnz 0o0 0o0 ⟨0, false, false, 0o1000⟩),
     (0o520100001000#36, .te 0o0 0o4 ⟨0, false, false, 0o1000⟩),
     (0o530100001000#36, .tne 0o0 0o4 ⟨0, false, false, 0o1000⟩),
     (0o540100001000#36, .tle 0o0 0o4 ⟨0, false, false, 0o1000⟩),
     (0o550100001000#36, .tg 0o0 0o4 ⟨0, false, false, 0o1000⟩),
     (0o560100001000#36, .tw 0o0 0o4 ⟨0, false, false, 0o1000⟩),
     (0o570100001000#36, .tnw 0o0 0o4 ⟨0, false, false, 0o1000⟩),
     (0o600000001000#36, .tp 0o0 0o0 ⟨0, false, false, 0o1000⟩),
     (0o610000001000#36, .tn 0o0 0o0 ⟨0, false, false, 0o1000⟩)] = true := by decide

theorem test_decode_searches : decodesTo
    [(0o620101400000#36, .se 0o0 0o4 ⟨1, true, false, 0o0⟩),
     (0o630101400000#36, .sne 0o0 0o4 ⟨1, true, false, 0o0⟩),
     (0o640101400000#36, .sle 0o0 0o4 ⟨1, true, false, 0o0⟩),
     (0o650101400000#36, .sg 0o0 0o4 ⟨1, true, false, 0o0⟩),
     (0o660101400000#36, .sw 0o0 0o4 ⟨1, true, false, 0o0⟩),
     (0o670101400000#36, .snw 0o0 0o4 ⟨1, true, false, 0o0⟩), (0o710101400000#36, .mse 0o4 ⟨1, true, false, 0o0⟩),
     (0o710501400000#36, .msne 0o4 ⟨1, true, false, 0o0⟩), (0o711101400000#36, .msle 0o4 ⟨1, true, false, 0o0⟩),
     (0o711501400000#36, .msg 0o4 ⟨1, true, false, 0o0⟩), (0o712101400000#36, .msw 0o4 ⟨1, true, false, 0o0⟩),
     (0o712501400000#36, .msnw 0o4 ⟨1, true, false, 0o0⟩), (0o713101400000#36, .masl 0o4 ⟨1, true, false, 0o0⟩),
     (0o713501400000#36, .masg 0o4 ⟨1, true, false, 0o0⟩)] = true := by decide

theorem test_decode_double : decodesTo
    [(0o700120003000#36, .jgd 0o0 0o5 ⟨0, false, false, 0o3000⟩),
     (0o702020003000#36, .jgd 0o4 0o1 ⟨0, false, false, 0o3000⟩),
     (0o714100001000#36, .da 0o4 ⟨0, false, false, 0o1000⟩),
     (0o714500001000#36, .dan 0o4 ⟨0, false, false, 0o1000⟩),
     (0o715100001000#36, .ds 0o4 ⟨0, false, false, 0o1000⟩),
     (0o715500001000#36, .dl 0o4 ⟨0, false, false, 0o1000⟩),
     (0o716100001000#36, .dln 0o4 ⟨0, false, false, 0o1000⟩),
     (0o716500001000#36, .dlm 0o4 ⟨0, false, false, 0o1000⟩),
     (0o717100003000#36, .djz 0o4 ⟨0, false, false, 0o3000⟩),
     (0o717500001000#36, .dte 0o4 ⟨0, false, false, 0o1000⟩)] = true := by decide

theorem test_decode_f72 : decodesTo
    [(0o720400003000#36, .slj 0o0 ⟨0, false, false, 0o3000⟩),
     (0o721100003000#36, .jps 0o4 ⟨0, false, false, 0o3000⟩),
     (0o721500003000#36, .jns 0o4 ⟨0, false, false, 0o3000⟩),
     (0o722100001000#36, .ah 0o4 ⟨0, false, false, 0o1000⟩),
     (0o722500001000#36, .anh 0o4 ⟨0, false, false, 0o1000⟩),
     (0o723100001000#36, .at_ 0o4 ⟨0, false, false, 0o1000⟩),
     (0o723500001000#36, .ant 0o4 ⟨0, false, false, 0o1000⟩),
     (0o724000003000#36, .ex 0o0 ⟨0, false, false, 0o3000⟩), (0o724400000017#36, .er 0o0 ⟨0, false, false, 0o17⟩),
     (0o727000001000#36, .srs 0o0 ⟨0, false, false, 0o1000⟩),
     (0o727400001000#36, .lrs 0o0 ⟨0, false, false, 0o1000⟩)] = true := by decide

/-- Codes R86 does not list: f = 00, 01 with j = 16, 05 with a = 07, 07 with j = 13, 33 with j = 02, 37 with j = 10,
72 with j = 00 and 12, 73. -/
theorem test_decode_invalid : [0o000000000000#36, 0o017000001000#36, 0o050160001000#36, 0o075400000000#36,
    0o331000000000#36, 0o374000000000#36, 0o720000000000#36, 0o725000000000#36, 0o730000000000#36].all
    (fun w => (decode w).isNone) = true := by decide

theorem test_decode_table_word : decodeTableWord 36 0o010000001000 = some (.sa 0 0 ⟨0, false, false, 0o1000⟩) ∧
    decodeTableWord 36 (2 ^ 36) = none := by decide

/-! ### One step -/

/-- Row ST6: `SA A15,0o1000,*X3`. -/
theorem test_step_sa : after (step (start 0o010363401000#36
    [(0o3, 0o000010000020#36), (0o33, 0o000000000042#36)]
    [])) 0o2001
    [(0o3, 0o000010000030#36)]
    [(0o1020, 0o000000000042#36)] = true := by decide

/-- Row ST8: `SNA A0,0o1000`. -/
theorem test_step_sna : after (step (start 0o020000001000#36
    [(0o14, 0o000000000000#36)]
    [])) 0o2001
    []
    [(0o1000, 0o777777777777#36)] = true := by decide

/-- Row ST10: `SMA A0,0o1000`. -/
theorem test_step_sma : after (step (start 0o030000001000#36
    [(0o14, 0o777777777772#36)]
    [])) 0o2001
    []
    [(0o1000, 0o000000000005#36)] = true := by decide

/-- Row ST12: `SR R1,0o1000`. -/
theorem test_step_sr : after (step (start 0o040020001000#36
    [(0o101, 0o000000000003#36)]
    [])) 0o2001
    []
    [(0o1000, 0o000000000003#36)] = true := by decide

/-- Row ST16: `SZ,H1 0o1000`. -/
theorem test_step_sz : after (step (start 0o051000001000#36
    []
    [(0o1000, 0o707070707070#36)])) 0o2001
    []
    [(0o1000, 0o000000707070#36)] = true := by decide

/-- Row ST18: `SNZ,S6 0o1000`. -/
theorem test_step_snz : after (step (start 0o054020001000#36
    []
    [(0o1000, 0o000000000000#36)])) 0o2001
    []
    [(0o1000, 0o000000000077#36)] = true := by decide

/-- Row ST20: `SP1,H1 0o1000`. -/
theorem test_step_sp1 : after (step (start 0o051040001000#36
    []
    [(0o1000, 0o707070707070#36)])) 0o2001
    []
    [(0o1000, 0o000001707070#36)] = true := by decide

/-- Row ST22: `SN1,T3 0o1000`. -/
theorem test_step_sn1 : after (step (start 0o052460001000#36
    []
    [(0o1000, 0o000000000000#36)])) 0o2001
    []
    [(0o1000, 0o000000007776#36)] = true := by decide

/-- Row ST27: `SFS,S1 0o1000`. -/
theorem test_step_sfs : after (step (start 0o056500001000#36
    []
    [(0o1000, 0o000000000000#36)])) 0o2001
    []
    [(0o1000, 0o050000000000#36)] = true := by decide

/-- Row ST24: `SFZ 0o1000`. -/
theorem test_step_sfz : after (step (start 0o050120001000#36
    []
    [])) 0o2001
    []
    [(0o1000, 0o606060606060#36)] = true := by decide

/-- Row ST25: `SAS 0o1000`. -/
theorem test_step_sas : after (step (start 0o050140001000#36
    []
    [])) 0o2001
    []
    [(0o1000, 0o040040040040#36)] = true := by decide

/-- Row ST14: `SX,H2 X12,0o1000`. -/
theorem test_step_sx : after (step (start 0o060700001000#36
    [(0o14, 0o123456701234#36)]
    [(0o1000, 0o707070707070#36)])) 0o2001
    []
    [(0o1000, 0o707070701234#36)] = true := by decide

/-- Row AD6: `LA A0,*0o1000`. -/
theorem test_step_la : after (step (start 0o100000201000#36
    [(0o2, 0o000001000004#36)]
    [(0o1000, 0o765422603000#36), (0o3004, 0o000000004000#36), (0o4000, 0o000000000707#36)])) 0o2001
    [(0o2, 0o000001000005#36), (0o14, 0o000000000707#36)]
    [] = true := by decide

/-- Row LD2: `LNA A0,0o1000`. -/
theorem test_step_lna : after (step (start 0o110000001000#36
    []
    [(0o1000, 0o000000000000#36)])) 0o2001
    [(0o14, 0o777777777777#36)]
    [] = true := by decide

/-- Row LD4: `LMA A0,0o1000`. -/
theorem test_step_lma : after (step (start 0o120000001000#36
    []
    [(0o1000, 0o777777777772#36)])) 0o2001
    [(0o14, 0o000000000005#36)]
    [] = true := by decide

/-- Row LD6: `LNMA A0,0o1000`. -/
theorem test_step_lnma : after (step (start 0o130000001000#36
    []
    [(0o1000, 0o000000000005#36)])) 0o2001
    [(0o14, 0o777777777772#36)]
    [] = true := by decide

/-- Row LD10: `AA A0,0o1000`. -/
theorem test_step_aa : after (step (start 0o140000001000#36
    [(0o14, 0o000000000005#36)]
    [(0o1000, 0o777777777772#36)])) 0o2001
    [(0o14, 0o000000000000#36)]
    [] = true := by decide

/-- Row LD16: `ANA A0,0o1000`. -/
theorem test_step_ana : after (step (start 0o150000001000#36
    [(0o14, 0o000000000005#36)]
    [(0o1000, 0o000000000005#36)])) 0o2001
    [(0o14, 0o000000000000#36)]
    [] = true := by decide

/-- Row LD19: `AMA A0,0o1000`. -/
theorem test_step_ama : after (step (start 0o160000001000#36
    [(0o14, 0o000000000004#36)]
    [(0o1000, 0o777777777774#36)])) 0o2001
    [(0o14, 0o000000000007#36)]
    [] = true := by decide

/-- Row LD20: `ANMA A0,0o1000`. -/
theorem test_step_anma : after (step (start 0o170000001000#36
    [(0o14, 0o000000000004#36)]
    [(0o1000, 0o777777777774#36)])) 0o2001
    [(0o14, 0o000000000001#36)]
    [] = true := by decide

/-- Row LD21: `AU A4,0o1000`. -/
theorem test_step_au : after (step (start 0o200100001000#36
    [(0o20, 0o000000000030#36)]
    [(0o1000, 0o000000000007#36)])) 0o2001
    [(0o21, 0o000000000037#36)]
    [] = true := by decide

/-- Row LD23: `ANU A4,0o1000`. -/
theorem test_step_anu : after (step (start 0o210100001000#36
    [(0o20, 0o000000000030#36)]
    [(0o1000, 0o000000000007#36)])) 0o2001
    [(0o21, 0o000000000021#36)]
    [] = true := by decide

/-- Row LD33: `BT X2,0o0,*X1`. -/
theorem test_step_bt : after (step (start 0o220041400000#36
    [(0o1, 0o000001003000#36), (0o2, 0o000001004000#36), (0o101, 0o000000000003#36)]
    [(0o3000, 0o000000000011#36), (0o3001, 0o000000000022#36), (0o3002, 0o000000000033#36)])) 0o2001
    [(0o1, 0o000001003003#36), (0o2, 0o000001004003#36), (0o101, 0o000000000000#36)]
    [(0o4000, 0o000000000011#36), (0o4001, 0o000000000022#36), (0o4002, 0o000000000033#36)] = true := by decide

/-- Row LD25: `LR R2,0o1000`. -/
theorem test_step_lr : after (step (start 0o230040001000#36
    []
    [(0o1000, 0o777000777000#36)])) 0o2001
    [(0o102, 0o777000777000#36)]
    [] = true := by decide

/-- Row LD29: `AX X2,0o1000`. -/
theorem test_step_ax : after (step (start 0o240040001000#36
    [(0o2, 0o000001003000#36)]
    [(0o1000, 0o000001000001#36)])) 0o2001
    [(0o2, 0o000002003001#36)]
    [] = true := by decide

/-- Row LD31: `ANX X2,0o1000`. -/
theorem test_step_anx : after (step (start 0o250040001000#36
    [(0o2, 0o000001003000#36)]
    [(0o1000, 0o000000000001#36)])) 0o2001
    [(0o2, 0o000001002777#36)]
    [] = true := by decide

/-- Row LD28: `LXM X2,0o1000`. -/
theorem test_step_lxm : after (step (start 0o260040001000#36
    [(0o2, 0o000001003000#36)]
    [(0o1000, 0o555555666666#36)])) 0o2001
    [(0o2, 0o000001666666#36)]
    [] = true := by decide

/-- Row LD26: `LX X2,0o1000`. -/
theorem test_step_lx : after (step (start 0o270040001000#36
    []
    [(0o1000, 0o000001003000#36)])) 0o2001
    [(0o2, 0o000001003000#36)]
    [] = true := by decide

/-- Row MD1: `MI A4,0o1000`. -/
theorem test_step_mi : after (step (start 0o300100001000#36
    [(0o20, 0o000000000006#36)]
    [(0o1000, 0o777777777770#36)])) 0o2001
    [(0o20, 0o777777777777#36), (0o21, 0o777777777725#36)]
    [] = true := by decide

/-- Row MD5: `MSI A4,0o1000`. -/
theorem test_step_msi : after (step (start 0o310100001000#36
    [(0o20, 0o000000000006#36)]
    [(0o1000, 0o777777777770#36)])) 0o2001
    [(0o20, 0o777777777725#36)]
    [] = true := by decide

/-- Row MD7: `MF A4,0o1000`. -/
theorem test_step_mf : after (step (start 0o320100001000#36
    [(0o20, 0o200000000000#36)]
    [(0o1000, 0o200000000000#36)])) 0o2001
    [(0o20, 0o100000000000#36), (0o21, 0o000000000000#36)]
    [] = true := by decide

/-- Row MD9: `DI A4,0o1000`. -/
theorem test_step_di : after (step (start 0o340100001000#36
    [(0o20, 0o000000000000#36), (0o21, 0o000000000053#36)]
    [(0o1000, 0o777777777772#36)])) 0o2001
    [(0o20, 0o777777777767#36), (0o21, 0o000000000003#36)]
    [] = true := by decide

/-- Row MD17: `DSF A4,0o1000`. -/
theorem test_step_dsf : after (step (start 0o350100001000#36
    [(0o20, 0o100000000000#36)]
    [(0o1000, 0o200000000000#36)])) 0o2001
    [(0o21, 0o200000000000#36)]
    [] = true := by decide

/-- Row MD20: `DF A4,0o1000`. -/
theorem test_step_df : after (step (start 0o360100001000#36
    [(0o20, 0o000000000000#36), (0o21, 0o000000000026#36)]
    [(0o1000, 0o777777777774#36)])) 0o2001
    [(0o20, 0o777777777774#36), (0o21, 0o000000000002#36)]
    [] = true := by decide

/-- Row LG1: `OR A4,0o1000`. -/
theorem test_step_or : after (step (start 0o400100001000#36
    [(0o20, 0o707070000123#36)]
    [(0o1000, 0o070707000531#36)])) 0o2001
    [(0o21, 0o777777000533#36)]
    [] = true := by decide

/-- Row LG2: `XOR A4,0o1000`. -/
theorem test_step_xor : after (step (start 0o410100001000#36
    [(0o20, 0o707070000123#36)]
    [(0o1000, 0o070707000531#36)])) 0o2001
    [(0o21, 0o777777000412#36)]
    [] = true := by decide

/-- Row LG3: `AND A4,0o1000`. -/
theorem test_step_and : after (step (start 0o420100001000#36
    [(0o20, 0o707070000123#36)]
    [(0o1000, 0o070707000531#36)])) 0o2001
    [(0o21, 0o000000000121#36)]
    [] = true := by decide

/-- Row LG5: `MLU A4,0o1000`. -/
theorem test_step_mlu : after (step (start 0o430100001000#36
    [(0o20, 0o222222222222#36), (0o102, 0o777777000000#36)]
    [(0o1000, 0o111111111111#36)])) 0o2001
    [(0o21, 0o111111222222#36)]
    [] = true := by decide

/-- Row LG6: `TEP A4,0o1000`. -/
theorem test_step_tep : after (step (start 0o440100001000#36
    [(0o20, 0o000000000005#36)]
    [(0o1000, 0o000000000007#36)])) 0o2002
    []
    [] = true := by decide

/-- Row LG9: `TOP A4,0o1000`. -/
theorem test_step_top : after (step (start 0o450100001000#36
    [(0o20, 0o000000000001#36)]
    [(0o1000, 0o000000000007#36)])) 0o2002
    []
    [] = true := by decide

/-- Row LG12: `XLI X2,0o1000`. -/
theorem test_step_xli : after (step (start 0o460040001000#36
    [(0o2, 0o000000003000#36)]
    [(0o1000, 0o555555777776#36)])) 0o2001
    [(0o2, 0o777776003000#36)]
    [] = true := by decide

/-- Row LG15: `TLEM X2,0o1000`. -/
theorem test_step_tlem : after (step (start 0o470040001000#36
    [(0o2, 0o000001000005#36)]
    [(0o1000, 0o777777777776#36)])) 0o2002
    [(0o2, 0o000001000006#36)]
    [] = true := by decide

/-- Row TS1: `TZ 0o1000`. -/
theorem test_step_tz : after (step (start 0o500000001000#36
    []
    [(0o1000, 0o000000000000#36)])) 0o2002
    []
    [] = true := by decide

/-- Row TS6: `TNZ 0o1000`. -/
theorem test_step_tnz : after (step (start 0o510000001000#36
    []
    [(0o1000, 0o000000000001#36)])) 0o2002
    []
    [] = true := by decide

/-- Row TS8: `TE A4,0o1000`. -/
theorem test_step_te : after (step (start 0o520100001000#36
    [(0o20, 0o000000000123#36)]
    [(0o1000, 0o000000000123#36)])) 0o2002
    []
    [] = true := by decide

/-- Row TS10: `TNE A4,0o1000`. -/
theorem test_step_tne : after (step (start 0o530100001000#36
    [(0o20, 0o000000000000#36)]
    [(0o1000, 0o777777777777#36)])) 0o2002
    []
    [] = true := by decide

/-- Row TS12: `TLE A4,0o1000`. -/
theorem test_step_tle : after (step (start 0o540100001000#36
    [(0o20, 0o000000000005#36)]
    [(0o1000, 0o000000000005#36)])) 0o2002
    []
    [] = true := by decide

/-- Row TS17: `TG A4,0o1000`. -/
theorem test_step_tg : after (step (start 0o550100001000#36
    [(0o20, 0o000000000005#36)]
    [(0o1000, 0o000000000006#36)])) 0o2002
    []
    [] = true := by decide

/-- Row TS19: `TW A4,0o1000`. -/
theorem test_step_tw : after (step (start 0o560100001000#36
    [(0o20, 0o000000000005#36), (0o21, 0o000000000012#36)]
    [(0o1000, 0o000000000007#36)])) 0o2002
    []
    [] = true := by decide

/-- Row TS22: `TNW A4,0o1000`. -/
theorem test_step_tnw : after (step (start 0o570100001000#36
    [(0o20, 0o000000000005#36), (0o21, 0o000000000012#36)]
    [(0o1000, 0o000000000005#36)])) 0o2002
    []
    [] = true := by decide

/-- Row TS24: `TP 0o1000`. -/
theorem test_step_tp : after (step (start 0o600000001000#36
    []
    [(0o1000, 0o000000000000#36)])) 0o2002
    []
    [] = true := by decide

/-- Row TS26: `TN 0o1000`. -/
theorem test_step_tn : after (step (start 0o610000001000#36
    []
    [(0o1000, 0o777777777777#36)])) 0o2002
    []
    [] = true := by decide

/-- Row SR1: `SE A4,0o0,*X2`. -/
theorem test_step_se : after (step (start 0o620102400000#36
    [(0o2, 0o000001003000#36), (0o20, 0o000000000077#36), (0o101, 0o000000000006#36)]
    searched)) 0o2002
    [(0o2, 0o000001003004#36), (0o101, 0o000000000002#36)]
    [] = true := by decide

/-- Row SR5: `SNE A4,0o0,*X2`. -/
theorem test_step_sne : after (step (start 0o630102400000#36
    [(0o2, 0o000001003000#36), (0o20, 0o000000000001#36), (0o101, 0o000000000006#36)]
    searched)) 0o2002
    [(0o2, 0o000001003002#36), (0o101, 0o000000000004#36)]
    [] = true := by decide

/-- Row SR6: `SLE A4,0o0,*X2`. -/
theorem test_step_sle : after (step (start 0o640102400000#36
    [(0o2, 0o000001003000#36), (0o20, 0o000000000000#36), (0o101, 0o000000000006#36)]
    searched)) 0o2002
    [(0o2, 0o000001003003#36), (0o101, 0o000000000003#36)]
    [] = true := by decide

/-- Row SR7: `SG A4,0o0,*X2`. -/
theorem test_step_sg : after (step (start 0o650102400000#36
    [(0o2, 0o000001003000#36), (0o20, 0o000000000005#36), (0o101, 0o000000000006#36)]
    searched)) 0o2002
    [(0o2, 0o000001003004#36), (0o101, 0o000000000002#36)]
    [] = true := by decide

/-- Row SR8: `SW A4,0o0,*X2`. -/
theorem test_step_sw : after (step (start 0o660102400000#36
    [(0o2, 0o000001003000#36), (0o20, 0o000000000005#36), (0o21, 0o000000000100#36), (0o101, 0o000000000006#36)]
    searched)) 0o2002
    [(0o2, 0o000001003004#36), (0o101, 0o000000000002#36)]
    [] = true := by decide

/-- Row SR9: `SNW A4,0o0,*X2`. -/
theorem test_step_snw : after (step (start 0o670102400000#36
    [(0o2, 0o000001003000#36), (0o20, 0o000000000000#36), (0o21, 0o000000000005#36), (0o101, 0o000000000006#36)]
    searched)) 0o2002
    [(0o2, 0o000001003003#36), (0o101, 0o000000000003#36)]
    [] = true := by decide

/-- Row SR11: `MSE A4,0o0,*X2`. -/
theorem test_step_mse : after (step (start 0o710102400000#36
    [(0o2, 0o000001003000#36), (0o20, 0o000000007705#36), (0o101, 0o000000000006#36), (0o102, 0o000000000077#36)]
    searched)) 0o2002
    [(0o2, 0o000001003002#36), (0o101, 0o000000000004#36)]
    [] = true := by decide

/-- Row SR12: `MSNE A4,0o0,*X2`. -/
theorem test_step_msne : after (step (start 0o710502400000#36
    [(0o2, 0o000001003000#36), (0o20, 0o000000007701#36), (0o101, 0o000000000006#36), (0o102, 0o000000000077#36)]
    searched)) 0o2002
    [(0o2, 0o000001003002#36), (0o101, 0o000000000004#36)]
    [] = true := by decide

/-- Row SR13: `MSLE A4,0o0,*X2`. -/
theorem test_step_msle : after (step (start 0o711102400000#36
    [(0o2, 0o000001003000#36), (0o20, 0o000000000000#36), (0o101, 0o000000000006#36), (0o102, 0o777777777777#36)]
    searched)) 0o2002
    [(0o2, 0o000001003003#36), (0o101, 0o000000000003#36)]
    [] = true := by decide

/-- Row SR14: `MSG A4,0o0,*X2`. -/
theorem test_step_msg : after (step (start 0o711502400000#36
    [(0o2, 0o000001003000#36), (0o20, 0o000000000005#36), (0o101, 0o000000000006#36), (0o102, 0o000000000777#36)]
    searched)) 0o2002
    [(0o2, 0o000001003003#36), (0o101, 0o000000000003#36)]
    [] = true := by decide

/-- Row SR15: `MSW A4,0o0,*X2`. -/
theorem test_step_msw : after (step (start 0o712102400000#36
    [(0o2, 0o000001003000#36), (0o20, 0o000000000005#36), (0o21, 0o000000000100#36), (0o101, 0o000000000006#36),
     (0o102, 0o000000000777#36)]
    searched)) 0o2002
    [(0o2, 0o000001003004#36), (0o101, 0o000000000002#36)]
    [] = true := by decide

/-- Row SR16: `MSNW A4,0o0,*X2`. -/
theorem test_step_msnw : after (step (start 0o712502400000#36
    [(0o2, 0o000001003000#36), (0o20, 0o000000000000#36), (0o21, 0o000000000005#36), (0o101, 0o000000000006#36),
     (0o102, 0o000000000777#36)]
    searched)) 0o2002
    [(0o2, 0o000001003003#36), (0o101, 0o000000000003#36)]
    [] = true := by decide

/-- Row SR17: `MASL A4,0o0,*X2`. -/
theorem test_step_masl : after (step (start 0o713102400000#36
    [(0o2, 0o000001003000#36), (0o20, 0o000000000000#36), (0o101, 0o000000000006#36), (0o102, 0o777777777777#36)]
    searched)) 0o2001
    [(0o2, 0o000001003006#36), (0o101, 0o000000000000#36)]
    [] = true := by decide

/-- Row SR18: `MASG A4,0o0,*X2`. -/
theorem test_step_masg : after (step (start 0o713502400000#36
    [(0o2, 0o000001003000#36), (0o20, 0o000000001000#36), (0o101, 0o000000000006#36), (0o102, 0o777777777777#36)]
    searched)) 0o2002
    [(0o2, 0o000001003003#36), (0o101, 0o000000000003#36)]
    [] = true := by decide

/-- Row DW7: `JGD GRS[0o177],0o100,X2`. -/
theorem test_step_jgd : after (step (start 0o703762000100#36
    [(0o2, 0o000000002000#36), (0o177, 0o000000000003#36)]
    [])) 0o2100
    [(0o177, 0o000000000002#36)]
    [] = true := by decide

/-- Row DW8: `DA A4,0o1000`. -/
theorem test_step_da : after (step (start 0o714100001000#36
    [(0o20, 0o000000000000#36), (0o21, 0o000000000001#36)]
    [(0o1000, 0o000000000001#36), (0o1001, 0o777777777777#36)])) 0o2001
    [(0o20, 0o000000000002#36), (0o21, 0o000000000000#36)]
    [] = true := by decide

/-- Row DW11: `DAN A4,0o1000`. -/
theorem test_step_dan : after (step (start 0o714500001000#36
    [(0o20, 0o000000000001#36), (0o21, 0o000000000000#36)]
    [(0o1000, 0o000000000000#36), (0o1001, 0o000000000001#36)])) 0o2001
    [(0o20, 0o000000000000#36), (0o21, 0o777777777777#36)]
    [] = true := by decide

/-- Row DW12: `DS A4,0o1000`. -/
theorem test_step_ds : after (step (start 0o715100001000#36
    [(0o20, 0o000000000111#36), (0o21, 0o000000000222#36)]
    [])) 0o2001
    []
    [(0o1000, 0o000000000111#36), (0o1001, 0o000000000222#36)] = true := by decide

/-- Row DW15: `DL A4,0o1000`. -/
theorem test_step_dl : after (step (start 0o715500001000#36
    []
    [(0o1000, 0o000000000001#36), (0o1001, 0o777777777777#36)])) 0o2001
    [(0o20, 0o000000000001#36), (0o21, 0o777777777777#36)]
    [] = true := by decide

/-- Row DW20: `DLN A4,0o1000`. -/
theorem test_step_dln : after (step (start 0o716100001000#36
    []
    [(0o1000, 0o000000000001#36), (0o1001, 0o777777777777#36)])) 0o2001
    [(0o20, 0o777777777776#36), (0o21, 0o000000000000#36)]
    [] = true := by decide

/-- Row DW21: `DLM A4,0o1000`. -/
theorem test_step_dlm : after (step (start 0o716500001000#36
    []
    [(0o1000, 0o777777777777#36), (0o1001, 0o777777777772#36)])) 0o2001
    [(0o20, 0o000000000000#36), (0o21, 0o000000000005#36)]
    [] = true := by decide

/-- Row DW26: `DJZ A4,*0o1000`. -/
theorem test_step_djz : after (step (start 0o717100201000#36
    [(0o20, 0o000000000000#36), (0o21, 0o000000000000#36)]
    [(0o1000, 0o000000003000#36)])) 0o3000
    []
    [] = true := by decide

/-- Row DW27: `DTE A4,0o1000`. -/
theorem test_step_dte : after (step (start 0o717500001000#36
    [(0o20, 0o000000000001#36), (0o21, 0o777777777777#36)]
    [(0o1000, 0o000000000001#36), (0o1001, 0o777777777777#36)])) 0o2002
    []
    [] = true := by decide

/-- Row FJ3: `SLJ *0o1000`. -/
theorem test_step_slj : after (step (start 0o720400201000#36
    []
    [(0o1000, 0o000000003000#36), (0o3000, 0o000000000000#36)])) 0o3001
    []
    [(0o3000, 0o000000002001#36)] = true := by decide

/-- Row FJ4: `JPS A4,0o3000`. -/
theorem test_step_jps : after (step (start 0o721100003000#36
    [(0o20, 0o200000000001#36)]
    [])) 0o3000
    [(0o20, 0o400000000002#36)]
    [] = true := by decide

/-- Row FJ6: `JNS A4,0o3000`. -/
theorem test_step_jns : after (step (start 0o721500003000#36
    [(0o20, 0o400000000001#36)]
    [])) 0o3000
    [(0o20, 0o000000000003#36)]
    [] = true := by decide

/-- Row FJ8: `AH A4,0o1000`. -/
theorem test_step_ah : after (step (start 0o722100001000#36
    [(0o20, 0o777776000005#36)]
    [(0o1000, 0o000001000001#36)])) 0o2001
    [(0o20, 0o000000000006#36)]
    [] = true := by decide

/-- Row FJ10: `ANH A4,0o1000`. -/
theorem test_step_anh : after (step (start 0o722500001000#36
    [(0o20, 0o000005000001#36)]
    [(0o1000, 0o000001000002#36)])) 0o2001
    [(0o20, 0o000004777776#36)]
    [] = true := by decide

/-- Row FJ11: `AT A4,0o1000`. -/
theorem test_step_at : after (step (start 0o723100001000#36
    [(0o20, 0o777600050007#36)]
    [(0o1000, 0o000100020003#36)])) 0o2001
    [(0o20, 0o000000070012#36)]
    [] = true := by decide

/-- Row FJ12: `ANT A4,0o1000`. -/
theorem test_step_ant : after (step (start 0o723500001000#36
    [(0o20, 0o000100050001#36)]
    [(0o1000, 0o000100020003#36)])) 0o2001
    [(0o20, 0o000000037775#36)]
    [] = true := by decide

/-- Row FJ19: `EX 0o1000,*X1`. -/
theorem test_step_ex : after (step (start 0o724001401000#36
    [(0o1, 0o000004000004#36)]
    [(0o1004, 0o100001001000#36), (0o1010, 0o000000000077#36)])) 0o2001
    [(0o1, 0o000004000010#36), (0o14, 0o000000000077#36)]
    [] = true := by decide

/-- Row ST32: the storage effect; the skip is `F05_SKIP`, open in the spec. -/
theorem test_step_inc :
    step (start 0o050200001000#36 [] [(0o1000, 0o777777777777#36)]) =
      .next (((start 0o050200001000#36 [] [(0o1000, 0o777777777777#36)]).setWord 0o1000#18 0o000000000001#36).skipIf
        (Config.f05Skip 0o10 0o777777777777#36 0o000000000001#36)) := rfl

/-- Row ST35: the storage effect; the skip is `F05_SKIP`, open in the spec. -/
theorem test_step_dec :
    step (start 0o050220001000#36 [] [(0o1000, 0o000000000000#36)]) =
      .next (((start 0o050220001000#36 [] [(0o1000, 0o000000000000#36)]).setWord 0o1000#18 0o777777777776#36).skipIf
        (Config.f05Skip 0o11 0o000000000000#36 0o777777777776#36)) := rfl

/-- Row ST36: the storage effect; the skip is `F05_SKIP`, open in the spec. -/
theorem test_step_inc2 :
    step (start 0o050640001000#36 [] [(0o1000, 0o111111000005#36)]) =
      .next (((start 0o050640001000#36 [] [(0o1000, 0o111111000005#36)]).setWord 0o1000#18 0o111111000007#36).skipIf
        (Config.f05Skip 0o12 0o000000000005#36 0o000000000007#36)) := rfl

/-- Row ST37: the storage effect; the skip is `F05_SKIP`, open in the spec. -/
theorem test_step_dec2 :
    step (start 0o050260001000#36 [] [(0o1000, 0o000000000007#36)]) =
      .next (((start 0o050260001000#36 [] [(0o1000, 0o000000000007#36)]).setWord 0o1000#18 0o000000000005#36).skipIf
        (Config.f05Skip 0o13 0o000000000007#36 0o000000000005#36)) := rfl

/-- Row ST38: the storage effect; the skip is `F05_SKIP`, open in the spec. -/
theorem test_step_enz :
    step (start 0o050300001000#36 [] [(0o1000, 0o777777777777#36)]) =
      .next (((start 0o050300001000#36 [] [(0o1000, 0o777777777777#36)]).setWord 0o1000#18 0o000000000000#36).skipIf
        (Config.f05Skip 0o14 0o777777777777#36 0o000000000000#36)) := rfl

/-- Row of 49_f72.md R248: `ER 0o17`. -/
theorem test_stop_er : interrupts (step (start 0o724400000017#36 [] [])) (.executiveRequest 0o17#18) = true := by
  decide

/-- The examples of R121 to R124, R249, R250. -/
theorem test_stop_refused :
    refuses (step (start 0o075000001000#36 [] [])) (.noSemanticsInSource "LDJ") (start 0o075000001000#36 [] []) ∧
    refuses (step (start 0o076000001000#36 [] [])) (.noSemanticsInSource "LIJ") (start 0o076000001000#36 [] []) ∧
    refuses (step (start 0o076400001000#36 [] [])) (.noSemanticsInSource "LPD") (start 0o076400001000#36 [] []) ∧
    refuses (step (start 0o077400001000#36 [] [])) .spdOrLbj (start 0o077400001000#36 [] []) ∧
    refuses (step (start 0o727000001000#36 [] [])) (.noSemanticsInSource "SRS") (start 0o727000001000#36 [] []) ∧
    refuses (step (start 0o727400001000#36 [] [])) (.noSemanticsInSource "LRS") (start 0o727400001000#36 [] []) := by
  decide +kernel

/-- R160 on the 1100/20: BM and BAN, the first and the last of the 23. -/
theorem test_stop_flagged :
    interrupts (step (start 0o330000001000#36 [] [])) (.invalidCode 0o33 0 0 0o330000001000#36) ∧
    interrupts (step (start 0o373400001000#36 [] [])) (.invalidCode 0o37 7 0 0o373400001000#36) := by decide

/-- R264: a divisor of -0, and a quotient of 2^35 (0o400000000000 over 1). -/
theorem test_stop_divide :
    interrupts (step (start 0o340100001000#36 [(0o21, 5#36)] [(0o1000, 0o777777777777#36)]))
      (.divideFault 0o340100001000#36) ∧
    interrupts (step (start 0o340100001000#36 [(0o21, 0o400000000000#36)] [(0o1000, 1#36)]))
      (.divideFault 0o340100001000#36) := by decide

/-- Row AD18: `LA A0,0o0,*X12` increments its own register. -/
theorem test_stop_own_index : refuses (step (start 0o100014400000#36 [(0o14, 0o000001001000#36)] []))
    .ownIndexIncrement (start 0o100014400000#36 [(0o14, 0o000001001000#36)] []) = true := by decide +kernel

/-- Row AD21: with `MEM_WORDS = 0o10000` the incrementation stays done when the operand faults. -/
theorem test_stop_storage_fault : interruptWith (step { start 0o100001407777#36 [(1, 0o000001000001#36)] [] with
    cfg := { Config.launch with memWords := 0o10000 } }) (fun e t => e == .storageFault 0o10000#18 .operandRead &&
      t.reg 1 == 0o000001000002#36 && t.p == 0o2000#18) = true := by decide +kernel

/-- Row SR20: two repetitions done, X2 incremented for the third, whose read faults. -/
theorem test_stop_search : interruptWith (step { start 0o620102400000#36
      [(2, 0o000001007776#36), (0o20, 0o77#36), (0o101, 5#36)] [(0o7776, 1#36), (0o7777, 2#36)] with
    cfg := { Config.launch with memWords := 0o10000 } }) (fun e t => e == .storageFault 0o10000#18 .operandRead &&
      t.reg 2 == 0o000001010001#36 && t.reg 0o101 == 3#36 && t.p == 0o2000#18) = true := by decide +kernel

/-- R92: an indirect chain through its own word at 1000 octal never ends. -/
theorem test_endless_indirection (n : Nat) :
    effAddrLoop n ⟨0, false, true, 0o1000⟩ (start 0 [] [(0o1000, 0o000000201000#36)]) =
      .raised .endlessIndirection := by
  induction n with
  | zero => rfl
  | succ n ih =>
    exact (effAddrLoop_indirect (by decide +kernel) (by decide +kernel) (by decide +kernel)).trans ih

/-- R247: an EX of its own word at 1000 octal never ends. -/
theorem test_endless_execution (n : Nat) :
    exLoop n ⟨0, false, false, 0o1000⟩ (start 0 [] [(0o1000, 0o724000001000#36)]) = .fault .endlessExecution := by
  induction n with
  | zero => rfl
  | succ n ih =>
    refine (exLoop_of_link (d := (⟨0, false, false, 0o1000⟩, start 0 [] [(0o1000, 0o724000001000#36)])) ?_).trans ih
    decide +kernel

theorem test_core : (core).reset = State.reset := rfl

/-! ### Witnesses: for each statement with hypotheses, a state and operands that meet them

`mD` addresses 1000 octal directly, `mI` through X1 with incrementation, `mR` names the last register, `mB` the first
word above the registers, `mT` the last word of `small`, `mO` the first one past it. -/

def mD : Xhiu := ⟨0, false, false, 0o1000⟩
def mI : Xhiu := ⟨1, true, false, 0o1000⟩
def mR : Xhiu := ⟨0, false, false, 0o177⟩
def mB : Xhiu := ⟨0, false, false, 0o200⟩
def mT : Xhiu := ⟨0, false, false, 0o3777⟩
def mO : Xhiu := ⟨0, false, false, 0o4000⟩

/-- The word X1 points to, with incrementation. -/
def mC : Xhiu := ⟨1, true, false, 0⟩

/-- 4000 octal words of storage; registers and storage that distinguish the operands. -/
def small : State :=
  { start 0o100000001000#36 [(1, 0o000001000000#36), (0o20, 7#36), (0o21, 3#36), (0o101, 1#36), (0o102, 0o77#36)]
      [(0o1000, 5#36), (0o1001, 6#36)] with cfg := { Config.launch with memWords := 0o4000 } }

/-- A search at 2000 octal, of two words from the last one of storage on: the second read faults. -/
def edge : State :=
  { start 0o620101400000#36 [(1, 0o000001003777#36), (0o20, 7#36), (0o101, 2#36), (0o102, 0o77#36)] [] with
    cfg := { Config.launch with memWords := 0o4000 } }

theorem not_usesOwn_of_h {own : List RegAddr} {m : Xhiu} (h : m.h = false) : ¬UsesOwn own m := by
  simp [UsesOwn, h]

theorem not_usesOwn_mI : ¬UsesOwn [aReg 4, aReg1 4] mI ∧ ¬UsesOwn [aReg 4] mI ∧ ¬UsesOwn [xReg 4] mI ∧
    ¬UsesOwn [rReg 4] mI := by unfold UsesOwn; decide

/-- The direct address of `m` and the state after its formation. -/
theorem direct (m : Xhiu) (s : State) (h : m.i = false) : effAddr m s = .ok (indexSum m s) (stepIndex m s) :=
  effAddr_direct s h

theorem witness_DecodeOfEncode : (Instr.sa 13 15 ⟨15, true, true, 0o177777⟩).wellFormed = true ∧
    (Instr.sa 13 15 ⟨15, true, true, 0o177777⟩).decodes = true := by decide

theorem witness_EncodeOfDecode : decode 0o056777777777#36 = some (.enz 13 15 ⟨15, true, true, 0o177777⟩) := by
  decide

theorem witness_ListedCodes : decodeFields 0o33#6 0 0 mD = some (.bm 0 mD) ∧
    fieldF 0o100000001000#36 = fieldF 0o100000777777#36 ∧ fieldJ 0o100000001000#36 = fieldJ 0o100000777777#36 ∧
    fieldA 0o100000001000#36 = fieldA 0o100000777777#36 := by decide

theorem witness_StepRunsDecodedInstruction : small.p.toNat < small.cfg.memWords ∧
    decode (small.mem.read small.p.toNat) = some (.la 0 0 mD) ∧ (Instr.la 0 0 mD).wellFormed = true ∧
    (Instr.la 0 0 mD).decodes = true ∧ small.mem.read small.p.toNat = encode (.la 0 0 mD) ∧
    ({ small with p := 0o4000#18 }).cfg.memWords ≤ ({ small with p := 0o4000#18 }).p.toNat ∧
    ({ small with p := 0o3777#18 }).p.toNat < ({ small with p := 0o3777#18 }).cfg.memWords := by decide

theorem witness_InvalidCodeInterrupts : (State.reset.p.toNat < State.reset.cfg.memWords ∧
    decode (State.reset.mem.read State.reset.p.toNat) = none) ∧
    ∃ u s1, effAddr mB small = .ok u s1 ∧ u.toNat < small.cfg.memWords ∧ decode (small.mem.read u.toNat) = none :=
  ⟨by decide, _, _, direct mB small rfl, by decide, by decide⟩

theorem witness_StepKeepsWellFormed : small.wf ∧ ∃ t, step small = .next t :=
  ⟨by decide, next_of_isNext (by decide)⟩

theorem witness_StepKeepsParameters : ∃ t, step small = .next t := next_of_isNext (by decide)

theorem witness_ProgramAddressAfterAStep :
    ((∃ t, exec (.la 0 4 mD) small = .next t) ∧ (Instr.la 0 4 mD).mnemonic ∉ jumpers) ∧
    (∃ t, exec (.tnz 0 4 mD) small = .next t) ∧ (Instr.tnz 0 4 mD).mnemonic ∉ jumpers :=
  ⟨⟨next_of_isNext (by decide), by decide⟩, next_of_isNext (by decide), by decide⟩

theorem witness_OnlyStoresWriteStorage : (∃ t, exec (.jgd 1 4 mD) small = .next t) ∧
    (Instr.jgd 1 4 mD).mnemonic ∉ storers := ⟨next_of_isNext (by decide), by decide⟩

/-- The instructions that stop, and the four ways a run is after some steps; `State.reset` raises at once. -/
theorem witness_StopsLeaveP : (∃ e t, exec (.er 0 mI) small = .fault (.interrupt e t)) ∧
    (∃ r t, exec (.ldj 0 mI) small = .refused r ∧ r.state = some t) ∧
    (small.p ≠ small.cfg.endAddr ∧ (∃ t, step small = .next t) ∧ ∃ t, runFor 0 small = .running t) ∧
    (State.reset.p ≠ State.reset.cfg.endAddr ∧ (∃ f, step State.reset = .fault f) ∧
      ∃ f, runFor 1 State.reset = .raised f) ∧
    (∃ r, step (start 0o075000001000#36 [] []) = .refused r) ∧
    (∃ r, runFor 1 (start 0o075000001000#36 [] []) = .refused r) ∧
    ∃ t, runFor 0 { State.reset with p := State.reset.cfg.endAddr } = .atEnd t := by
  have hr : step State.reset = .fault (.interrupt (.invalidCode 0 0 0 0) State.reset) := by
    rw [step, fetch, memRead_of_hasWord (by decide), Res.andThen_ok, execWordWith_of_invalid _ (by decide)]; rfl
  have hl : step (start 0o075000001000#36 [] []) =
      .refused (.noSemanticsInSource "LDJ" (start 0o075000001000#36 [] [])) := by
    rw [step, fetch, memRead_of_hasWord (by decide), Res.andThen_ok,
      execWordWith_of_decode (i := .ldj 0 mD) _ (by decide)]; rfl
  exact ⟨⟨_, _, by rw [exec, execEr, direct mI small rfl]; rfl⟩, ⟨_, _, rfl, rfl⟩,
    ⟨by decide, next_of_isNext (by decide), _, if_neg (by decide)⟩,
    ⟨by decide, ⟨_, hr⟩, _, by rw [runFor, if_neg (by decide), hr]⟩, ⟨_, hl⟩,
    ⟨_, by rw [runFor, if_neg (by decide), hl]⟩, _, if_pos rfl⟩

theorem witness_InterruptsArePrecise : ((∃ e t, exec (.er 0 mI) small = .fault (.interrupt e t)) ∧
      (Instr.er 0 mI).mnemonic ∉ repeaters) ∧
    (∃ e t, exec (.se 0 4 mC) edge = .fault (.interrupt e t)) ∧
    (∃ e t, exec (.mse 4 mC) edge = .fault (.interrupt e t)) ∧
    (∃ e t, exec (.bt 0 2 mC) edge = .fault (.interrupt e t)) ∧
    ∃ e t, exec (.ex 0 ⟨0, false, false, 0o2000⟩) edge = .fault (.interrupt e t) :=
  ⟨⟨⟨_, _, by rw [exec, execEr, direct mI small rfl]; rfl⟩, by decide⟩,
    interrupt_of_with (f := fun _ _ => true) (by decide +kernel),
    interrupt_of_with (f := fun _ _ => true) (by decide +kernel),
    interrupt_of_with (f := fun _ _ => true) (by decide +kernel),
    interrupt_of_with (f := fun _ _ => true) (by decide +kernel)⟩

theorem witness_FullStorageNeverFaults : State.reset.cfg.memWords = 2 ^ 18 := by decide

theorem witness_PlacedWordIsExecuted : small.mem.wf ∧
    decode (BitVec.ofNat 36 0o100000001000) = some (.la 0 0 mD) := by decide

theorem witness_EqualStoragesAreEqualData : small.mem.wf ∧ State.reset.mem.wf ∧
    ∀ a, small.mem.read a = small.mem.read a := ⟨by decide, by decide, fun _ => rfl⟩

/-- The largest sum that fits: 2^35 - 2 and 1. -/
theorem witness_OnesAddIsIntegerAddition : 0 < 36 ∧
    (-(2 ^ (36 - 1) - 1 : Int) ≤ onesVal 0o377777777776#36 + onesVal 1#36) ∧
    onesVal 0o377777777776#36 + onesVal 1#36 ≤ 2 ^ (36 - 1) - 1 := by decide

theorem witness_ImmediateOperands : ((0o16#4 = 0o16#4 ∨ 0o16#4 = 0o17#4) ∧ (⟨0, true, true, 0o177777⟩ : Xhiu).x = 0) ∧
    ((0o17#4 = 0o16#4 ∨ 0o17#4 = 0o17#4) ∧ (⟨15, false, true, 0⟩ : Xhiu).x ≠ 0 ∧ (⟨15, false, true, 0⟩ : Xhiu).i = true) ∧
    (mI.x ≠ 0 ∧ mI.i = false) := by decide

/-- The four clauses, at U = 177, 177, 200 and the last word, and the first word past storage (octal). -/
theorem witness_OperandAccesses : designate small.cfg.qwMode 0 = .part .w ∧ designate small.cfg.qwMode 1 = .part .h2 ∧
    (∃ u s1, effAddr mR small = .ok u s1 ∧ u.toNat < 0o200 ∧ Part.h2 ≠ .w) ∧
    (∃ u s1, effAddr mB small = .ok u s1 ∧ 0o200 ≤ u.toNat ∧ u.toNat < small.cfg.memWords) ∧
    (∃ u s1, effAddr mT small = .ok u s1 ∧ 0o200 ≤ u.toNat ∧ u.toNat < small.cfg.memWords) ∧
    ∃ u s1, effAddr mO small = .ok u s1 ∧ 0o200 ≤ u.toNat ∧ small.cfg.memWords ≤ u.toNat :=
  ⟨by decide, by decide, ⟨_, _, direct mR small rfl, by decide⟩, ⟨_, _, direct mB small rfl, by decide⟩,
    ⟨_, _, direct mT small rfl, by decide⟩, _, _, direct mO small rfl, by decide⟩

theorem witness_OperandStopsEndTheInstruction :
    (Instr.la 0 4 mO, [aReg 4]) ∈ operandInstrs 0 4 mO ∧ ¬UsesOwn [aReg 4] mO ∧
    (∃ f, operand 0 mO small = .raised f) ∧ (Instr.la 1 4 mR, [aReg 4]) ∈ operandInstrs 1 4 mR ∧
    ¬UsesOwn [aReg 4] mR ∧ ∃ r, operand 1 mR small = .refused r :=
  ⟨List.mem_cons_self, not_usesOwn_of_h rfl,
    ⟨_, by rw [operand_part (p := .w) (by decide), direct mO small rfl]; rfl⟩, List.mem_cons_self,
    not_usesOwn_of_h rfl, _, by rw [operand_part (p := .h2) (by decide), direct mR small rfl]; rfl⟩

theorem witness_OwnIndexIncrementIsRefused :
    ((Instr.la 0 0 ⟨12, true, false, 0⟩, [aReg 0]) ∈ operandInstrs 0 0 ⟨12, true, false, 0⟩ ∧
      UsesOwn [aReg 0] ⟨12, true, false, 0⟩) ∧
    ((0o15#4).toNat ≤ 0o15 ∧ UsesOwn [xReg 15] ⟨15, true, false, 0⟩) ∧
    ((⟨13, true, false, 0⟩ : Xhiu).i = false ∧ UsesOwn [aReg 0, aReg1 0] ⟨13, true, false, 0⟩) := by
  refine ⟨⟨List.mem_cons_self, ?_⟩, ⟨by decide, ?_⟩, rfl, ?_⟩ <;> unfold UsesOwn <;> decide

/-- Storable at the last register, the first and the last word. -/
theorem storable_bounds : (∃ u s1, effAddr mR small = .ok u s1 ∧ Storable .w u s1) ∧
    (∃ u s1, effAddr mB small = .ok u s1 ∧ Storable .h1 u s1) ∧
    ∃ u s1, effAddr mT small = .ok u s1 ∧ Storable .s6 u s1 :=
  ⟨⟨_, _, direct mR small rfl, by unfold Storable; decide⟩, ⟨_, _, direct mB small rfl, by unfold Storable; decide⟩,
    _, _, direct mT small rfl, by unfold Storable; decide⟩

theorem witness_RegisterStoresWriteTheOperand : small.mem.wf ∧ designate small.cfg.qwMode 2 = .part .h1 ∧
    (∃ u s1, effAddr mB small = .ok u s1 ∧ Storable .h1 u s1) ∧ ¬UsesOwn [aReg 4] mB :=
  ⟨by decide, by decide, storable_bounds.2.1, not_usesOwn_of_h rfl⟩

theorem witness_ConstantStoresWriteTheOperand : small.mem.wf ∧ designate small.cfg.qwMode 0o10 = .part .s6 ∧
    ∃ u s1, effAddr mT small = .ok u s1 ∧ Storable .s6 u s1 := ⟨by decide, by decide, storable_bounds.2.2⟩

theorem witness_F05ArithmeticAddsToTheOperand : small.mem.wf ∧ designate small.cfg.qwMode 0 = .part .w ∧
    ∃ u s1, effAddr mR small = .ok u s1 ∧ Storable .w u s1 := ⟨by decide, by decide, storable_bounds.1⟩

theorem witness_StoresThatStop : designate small.cfg.qwMode 1 = .part .h2 ∧
    (∃ u s1, effAddr mR small = .ok u s1 ∧ u.toNat < 0o200 ∧ Part.h2 ≠ .w) ∧
    (∃ u s1, effAddr mO small = .ok u s1 ∧ 0o200 ≤ u.toNat ∧ small.cfg.memWords ≤ u.toNat) ∧
    ¬UsesOwn [aReg 4] mO :=
  ⟨by decide, ⟨_, _, direct mR small rfl, by decide⟩, ⟨_, _, direct mO small rfl, by decide⟩, not_usesOwn_of_h rfl⟩

theorem witness_F05ImmediateIsRefused : 0o16 ≤ (0o16#4).toNat ∧ 0o16 ≤ (0o17#4).toNat := by decide

/-- The operand through X1, with incrementation. -/
theorem operand_mI : ∃ v s1, operand 0 mI small = .ok v s1 := ok_of_isOk (by decide)

theorem witness_LoadsOfA : (∃ v s1, operand 0 mI small = .ok v s1) ∧ ¬UsesOwn [aReg 4] mI :=
  ⟨operand_mI, not_usesOwn_mI.2.1⟩
theorem witness_AddsToA : (∃ v s1, operand 0 mI small = .ok v s1) ∧ ¬UsesOwn [aReg 4] mI :=
  ⟨operand_mI, not_usesOwn_mI.2.1⟩
theorem witness_ResultsInTheNextA : (∃ v s1, operand 0 mI small = .ok v s1) ∧ ¬UsesOwn [aReg 4, aReg1 4] mI :=
  ⟨operand_mI, not_usesOwn_mI.1⟩
theorem witness_LoadsOfXAndR : (∃ v s1, operand 0 mI small = .ok v s1) ∧ ¬UsesOwn [xReg 4] mI ∧
    ¬UsesOwn [rReg 4] mI := ⟨operand_mI, not_usesOwn_mI.2.2⟩
/-- MSI A0 with X13, which is A1, incremented: MI and MF are refused there and MSI is not. -/
theorem witness_ProductsAreIntegerProducts : ((∃ v s1, operand 0 mI small = .ok v s1) ∧ ¬UsesOwn [aReg 4] mI ∧
      ¬UsesOwn [aReg 4, aReg1 4] mI) ∧
    (∃ v s1, operand 0 ⟨13, true, false, 0o1000⟩ small = .ok v s1) ∧
    ¬UsesOwn [aReg 0] ⟨13, true, false, 0o1000⟩ ∧ UsesOwn [aReg 0, aReg1 0] ⟨13, true, false, 0o1000⟩ :=
  ⟨⟨operand_mI, not_usesOwn_mI.2.1, not_usesOwn_mI.1⟩, ok_of_isOk (by decide), by unfold UsesOwn; decide,
    by unfold UsesOwn; decide⟩
theorem witness_TestsSkipOnTheirCondition : (∃ v s1, operand 0 mI small = .ok v s1) ∧
    ¬UsesOwn [aReg 4, aReg1 4] mI ∧ ¬UsesOwn [aReg 4] mI := ⟨operand_mI, not_usesOwn_mI.1, not_usesOwn_mI.2.1⟩
theorem witness_TlemComparesThenIncrements : (∃ v s1, operand 0 mI small = .ok v s1) ∧ ¬UsesOwn [xReg 4] mI :=
  ⟨operand_mI, not_usesOwn_mI.2.2.1⟩

/-- A[4] and A[5] hold a pair and the word at 1000 octal a divisor. -/
def dividing (w w' v : Word) : State := start 0 [(0o20, w), (0o21, w')] [(0o1000, v)]

/-- The largest quotient that fits, 2^35 - 1, for each of the three. -/
theorem witness_QuotientsAreIntegerQuotients : ¬UsesOwn [aReg 4, aReg1 4] mD ∧
    (∃ v s1, operand 0 mD (dividing 0#36 0o377777777777#36 1#36) = .ok v s1 ∧
      decide (onesVal v ≠ 0 ∧ (onesVal (s1.reg (aReg 4) ++ s1.reg (aReg1 4))).natAbs / (onesVal v).natAbs
        = 2 ^ 35 - 1) = true) ∧
    (∃ v s1, operand 0 mD (dividing 0o377777777776#36 0#36 0o377777777777#36) = .ok v s1 ∧
      decide (onesVal v ≠ 0 ∧ (onesVal (s1.reg (aReg 4))).natAbs * 2 ^ 35 / (onesVal v).natAbs < 2 ^ 35) = true) ∧
    ∃ v s1, operand 0 mD (dividing 0#36 0o777777777777#36 1#36) = .ok v s1 ∧
      decide (onesVal v ≠ 0 ∧ (onesVal (s1.reg (aReg 4) ++ s1.reg (aReg1 4))).natAbs / 2 / (onesVal v).natAbs
        = 2 ^ 35 - 1) = true :=
  ⟨not_usesOwn_of_h rfl, ok_of_okWith (by decide), ok_of_okWith (by decide), ok_of_okWith (by decide)⟩

/-- A divisor of -0, and the smallest quotient that does not fit, 2^35, for each of the three. -/
theorem witness_DivideFaults : ¬UsesOwn [aReg 4, aReg1 4] mD ∧
    (∃ v s1, operand 0 mD (dividing 0#36 7#36 0o777777777777#36) = .ok v s1 ∧ decide (onesVal v = 0) = true) ∧
    (∃ v s1, operand 0 mD (dividing 0#36 0o400000000000#36 1#36) = .ok v s1 ∧
      decide ((onesVal (s1.reg (aReg 4) ++ s1.reg (aReg1 4))).natAbs / (onesVal v).natAbs = 2 ^ 35) = true) ∧
    (∃ v s1, operand 0 mD (dividing 1#36 0#36 1#36) = .ok v s1 ∧
      decide ((onesVal (s1.reg (aReg 4))).natAbs * 2 ^ 35 / (onesVal v).natAbs = 2 ^ 35) = true) ∧
    ∃ v s1, operand 0 mD (dividing 1#36 0#36 1#36) = .ok v s1 ∧
      decide ((onesVal (s1.reg (aReg 4) ++ s1.reg (aReg1 4))).natAbs / 2 / (onesVal v).natAbs = 2 ^ 35) = true :=
  ⟨not_usesOwn_of_h rfl, ok_of_okWith (by decide), ok_of_okWith (by decide), ok_of_okWith (by decide),
    ok_of_okWith (by decide)⟩

/-- The first word of `edge`, 0, does not meet a condition that only 7 meets, and the next address does not exist. -/
theorem edge_unmatched (c : Word → Bool) (h : c 0 = false) :
    Unmatched (operand 0 mC) c 1 edge ((stepIndex mC edge).setRepeatCount (edge.repeatCount - 1)) ∧
    Unmatched (wholeOperand mC) c 1 edge ((stepIndex mC edge).setRepeatCount (edge.repeatCount - 1)) := by
  have hr : ∃ v s1, opRead (indexSum mC edge) (stepIndex mC edge) = .ok v s1 ∧
      decide (v = 0 ∧ s1 = stepIndex mC edge) = true := ok_of_okWith (by decide +kernel)
  obtain ⟨v, s1, hr, hv⟩ := hr
  obtain ⟨rfl, rfl⟩ := of_decide_eq_true hv
  refine ⟨.succ (v := 0) ?_ h (.zero _), .succ (v := 0) ?_ h (.zero _)⟩
  · rw [operand_part (p := .w) (by decide), direct mC edge rfl, Res.bind_ok, partRead, if_neg (by simp), hr]; rfl
  · rw [wholeOperand, direct mC edge rfl, Res.bind_ok, hr]

/-- Count 0 and one unmatched operand; an operand that matches at once (count 1), the word being 5 and A[4] 7; a second
repetition that faults; and a first one that is refused, a part of a register. -/
theorem witness_PlainSearchesFindTheFirst : mI.i = false ∧ ¬UsesOwn [aReg 4] mI ∧
    (∃ t, Unmatched (operand 0 mI) (fun v => decide (v = small.reg (aReg 4))) small.repeatCount.toNat small t) ∧
    Unmatched (operand 0 mI) (fun v => decide (v = small.reg (aReg 4))) 0
      (small.setRepeatCount 0) (small.setRepeatCount 0) ∧
    (0 < small.repeatCount.toNat ∧ ∃ v s2, operand 0 mI small = .ok v s2 ∧
      decide (v ≠ small.reg (aReg 4)) = true) ∧
    (1 < edge.repeatCount.toNat ∧ ∃ s1, Unmatched (operand 0 mC) (fun v => decide (v = edge.reg (aReg 4))) 1 edge s1 ∧
      ∃ f, operand 0 mC s1 = .raised f) ∧
    ∃ r, operand 1 mR small = .refused r := by
  refine ⟨rfl, not_usesOwn_mI.2.1, ?_, .zero _, ⟨by decide, ok_of_okWith (by decide)⟩,
    ⟨by decide, _, (edge_unmatched _ (by decide)).1, _,
      by rw [operand_part (p := .w) (by decide), direct mC _ rfl]; rfl⟩,
    _, by rw [operand_part (p := .h2) (by decide), direct mR small rfl]; rfl⟩
  obtain ⟨v, s1, h, hc⟩ := ok_of_okWith (r := operand 0 mI small)
    (f := fun v _ => !decide (v = small.reg (aReg 4))) (by decide)
  exact ⟨_, .succ h (by simpa using hc) (.zero _)⟩

/-- The same under the mask 77 octal, but for the refusal. -/
theorem witness_MaskedSearchesFindTheFirst : mI.i = false ∧ ¬UsesOwn [aReg 4] mI ∧
    (∃ t, Unmatched (wholeOperand mI) (fun v => decide (v &&& small.reg (rReg 2) = small.reg (aReg 4) &&& small.reg (rReg 2)))
      small.repeatCount.toNat small t) ∧
    (0 < small.repeatCount.toNat ∧ ∃ v s2, wholeOperand mI small = .ok v s2 ∧
      decide (v &&& small.reg (rReg 2) ≠ small.reg (aReg 4) &&& small.reg (rReg 2)) = true) ∧
    (1 < edge.repeatCount.toNat ∧ ∃ s1, Unmatched (wholeOperand mC)
        (fun v => decide (v &&& edge.reg (rReg 2) = edge.reg (aReg 4) &&& edge.reg (rReg 2))) 1 edge s1 ∧
      ∃ f, wholeOperand mC s1 = .raised f) := by
  refine ⟨rfl, not_usesOwn_mI.2.1, ?_, ⟨by decide, ok_of_okWith (by decide)⟩, by decide, _,
    (edge_unmatched _ (by decide)).2, _, by rw [wholeOperand, direct mC _ rfl]; rfl⟩
  obtain ⟨v, s1, h, hc⟩ := ok_of_okWith (r := wholeOperand mI small)
    (f := fun v _ => !decide (v &&& small.reg (rReg 2) = small.reg (aReg 4) &&& small.reg (rReg 2))) (by decide)
  exact ⟨_, .succ h (by simpa using hc) (.zero _)⟩

theorem witness_RepeatedIndirectIsRefused : (⟨0, false, true, 0⟩ : Xhiu).i = true := rfl

/-- X1 at 3000 and X2 at 4000 octal, increments 1, count 3, the words 11, 22, 33 octal. -/
def copying : State := start 0o220041400000#36
  [(1, 0o000001003000#36), (2, 0o000001004000#36), (0o101, 3#36)]
  [(0o3000, 0o11#36), (0o3001, 0o22#36), (0o3002, 0o33#36)]

/-- The clauses in turn: count 0; a part of a register (source 177 octal); a source past storage; a destination past
storage (X1 moves it: a = 1, u = 3777, modifier 1); and both in range. -/
theorem witness_BlockTransferRepetition : mR.i = false ∧ designate small.cfg.qwMode 1 = .part .h2 ∧
    designate small.cfg.qwMode 0 = .part .w ∧
    (small.setRepeatCount 0).repeatCount = 0 ∧ small.repeatCount ≠ 0 ∧
    ((indexSum mR small).toNat < 0o200 ∧ Part.h2 ≠ .w) ∧
    (0o200 ≤ (indexSum mO small).toNat ∧ small.cfg.memWords ≤ (indexSum mO small).toNat ∧
      0o200 ≤ (btTarget 1 mO small).toNat) ∧
    ((indexSum mT (small.setReg 1 1#36)).toNat < small.cfg.memWords ∧
      small.cfg.memWords ≤ (btTarget 1 mT (small.setReg 1 1#36)).toNat) ∧
    (0o200 ≤ (indexSum mT small).toNat ∧ (indexSum mT small).toNat < small.cfg.memWords ∧
      0o200 ≤ (btTarget 1 mT small).toNat ∧ (btTarget 1 mT small).toNat < small.cfg.memWords) := by decide

theorem witness_BlockTransferCompletes : mI.i = false ∧ designate small.cfg.qwMode 0 = .part .w ∧
    (∃ t, Transfers .w 1 mI small.repeatCount.toNat small t) ∧
    Transfers .w 1 mI (small.setRepeatCount 0).repeatCount.toNat (small.setRepeatCount 0) (small.setRepeatCount 0) := by
  refine ⟨rfl, by decide, ?_, ?_⟩
  · obtain ⟨v, s1, h⟩ := ok_of_isOk (r := btMove .w 1 mI small) (by decide)
    exact ⟨_, .succ h (.zero _)⟩
  · rw [show (small.setRepeatCount 0).repeatCount.toNat = 0 by decide]; exact .zero _

theorem witness_BlockTransferCopiesABlock : copying.wf ∧ mC.i = false ∧ mC.h = true ∧ mC.x ≠ 0 ∧ mC.x ≠ 2#4 ∧
    copying.increment mC.x = 1 ∧ copying.increment 2 = 1 ∧
    0o200 ≤ mC.u.toNat + (copying.modifier mC.x).toNat ∧ 0o200 ≤ mC.u.toNat + (copying.modifier 2).toNat ∧
    mC.u.toNat + (copying.modifier mC.x).toNat + copying.repeatCount.toNat ≤ copying.cfg.memWords ∧
    mC.u.toNat + (copying.modifier 2).toNat + copying.repeatCount.toNat ≤ copying.cfg.memWords ∧
    mC.u.toNat + (copying.modifier mC.x).toNat + copying.repeatCount.toNat < 2 ^ 18 - 1 ∧
    mC.u.toNat + (copying.modifier 2).toNat + copying.repeatCount.toNat < 2 ^ 18 - 1 ∧
    (mC.u.toNat + (copying.modifier mC.x).toNat + copying.repeatCount.toNat ≤
        mC.u.toNat + (copying.modifier 2).toNat ∨
      mC.u.toNat + (copying.modifier 2).toNat + copying.repeatCount.toNat ≤
        mC.u.toNat + (copying.modifier mC.x).toNat) := by decide

/-- U = 176, 177, 200, the last two words, the last word and the first past storage (octal). -/
theorem witness_DoubleOperandAccesses : (0o176#18).toNat < 0o177 ∧ (0o177#18).toNat = 0o177 ∧
    0o177 < (0o200#18).toNat ∧
    ((0o3776#18).toNat < small.cfg.memWords ∧ (0o3776#18 + 1).toNat < small.cfg.memWords) ∧
    small.cfg.memWords ≤ (0o4000#18).toNat ∧
    ((0o3777#18).toNat < small.cfg.memWords ∧ small.cfg.memWords ≤ (0o3777#18 + 1).toNat) := by decide

theorem double_mD : ∃ u s1, effAddr mD small = .ok u s1 ∧ ∃ d, opRead2 u s1 = .ok d s1 :=
  ⟨_, _, direct mD small rfl, _, by rw [opRead2_eq_ok]; exact ⟨rfl, .inr ⟨by decide, by decide, by decide, rfl⟩⟩⟩

theorem witness_DoubleLoadsAndAdds : (∃ u s1, effAddr mD small = .ok u s1 ∧ ∃ d, opRead2 u s1 = .ok d s1) ∧
    ¬UsesOwn [aReg 4, aReg1 4] mD := ⟨double_mD, not_usesOwn_of_h rfl⟩

theorem witness_DoubleOperandStops : ¬UsesOwn [aReg 4, aReg1 4] mR ∧
    (∃ u s1, effAddr mR small = .ok u s1 ∧ ∃ r, opRead2 u s1 = .refused r ∧ opWrite2 u 0 s1 = .refused r) ∧
    ∃ u s1, effAddr mT small = .ok u s1 ∧ (∃ f, opRead2 u s1 = .raised f) ∧ ∃ f, opWrite2 u 0 s1 = .raised f :=
  ⟨not_usesOwn_of_h rfl,
    ⟨_, _, direct mR small rfl, _, opRead2_eq_refused.2 ⟨by decide, rfl⟩, opWrite2_eq_refused.2 ⟨by decide, rfl⟩⟩,
    _, _, direct mT small rfl, ⟨_, opRead2_eq_raised.2 ⟨by decide, .inr ⟨by decide, by decide, rfl⟩⟩⟩,
    _, opWrite2_eq_raised.2 ⟨by decide, .inr ⟨by decide, by decide, rfl⟩⟩⟩

def m176 : Xhiu := ⟨0, false, false, 0o176⟩
def m3776 : Xhiu := ⟨0, false, false, 0o3776⟩

theorem witness_DoubleStoreWritesTwoWords : small.mem.wf ∧ ¬UsesOwn [aReg 4, aReg1 4] mB ∧
    (∃ u s1, effAddr mB small = .ok u s1 ∧ 0o177 < u.toNat ∧ u.toNat < small.cfg.memWords ∧
      (u + 1).toNat < small.cfg.memWords) ∧
    (∃ u s1, effAddr m3776 small = .ok u s1 ∧ 0o177 < u.toNat ∧ u.toNat < small.cfg.memWords ∧
      (u + 1).toNat < small.cfg.memWords) ∧
    (∃ u s1, effAddr m176 small = .ok u s1 ∧ u.toNat < 0o177) ∧
    (∃ u s1, effAddr mO small = .ok u s1 ∧ 0o177 < u.toNat ∧ small.cfg.memWords ≤ u.toNat) ∧
    ∃ u s1, effAddr mT small = .ok u s1 ∧ 0o177 < u.toNat ∧ u.toNat < small.cfg.memWords ∧
      small.cfg.memWords ≤ (u + 1).toNat :=
  ⟨by decide, not_usesOwn_of_h rfl, ⟨_, _, direct mB small rfl, by decide⟩, ⟨_, _, direct m3776 small rfl, by decide⟩,
    ⟨_, _, direct m176 small rfl, by decide⟩, ⟨_, _, direct mO small rfl, by decide⟩,
    _, _, direct mT small rfl, by decide⟩

theorem witness_DoubleTestAndJump : (∃ u s1, effAddr mD small = .ok u s1 ∧ ∃ d, opRead2 u s1 = .ok d s1) ∧
    ¬UsesOwn [aReg 4, aReg1 4] mD := ⟨double_mD, not_usesOwn_of_h rfl⟩

theorem witness_JgdTestsThenDecrements : (∃ u s1, effAddr mI small = .ok u s1) ∧
    ¬UsesOwn [BitVec.ofNat 7 (((0o15#4).toNat * 16 + (1#4).toNat) % 128)] mI :=
  ⟨⟨_, _, direct mI small rfl⟩, by unfold UsesOwn; decide⟩

/-- U = 177 octal names main storage here; the last word; the first past storage. -/
theorem witness_SljStoresTheReturnAddress : small.mem.wf ∧
    (∃ u s1, effAddr mR small = .ok u s1 ∧ u.toNat < small.cfg.memWords) ∧
    (∃ u s1, effAddr mT small = .ok u s1 ∧ u.toNat < small.cfg.memWords) ∧
    ∃ u s1, effAddr mO small = .ok u s1 ∧ small.cfg.memWords ≤ u.toNat :=
  ⟨by decide, ⟨_, _, direct mR small rfl, by decide⟩, ⟨_, _, direct mT small rfl, by decide⟩,
    _, _, direct mO small rfl, by decide⟩

theorem witness_JumpsAndShifts : (∃ u s1, effAddr mI small = .ok u s1) ∧ ¬UsesOwn [aReg 4] mI :=
  ⟨⟨_, _, direct mI small rfl⟩, not_usesOwn_mI.2.1⟩

theorem witness_HalvesAndThirdsAddIndependently : ¬UsesOwn [aReg 4] mR ∧
    (∃ u s1, effAddr mR small = .ok u s1 ∧ u.toNat < 0o200) ∧
    (∃ u s1, effAddr mT small = .ok u s1 ∧ u.toNat < small.cfg.memWords) ∧
    ∃ u s1, effAddr mO small = .ok u s1 ∧ 0o200 ≤ u.toNat ∧ small.cfg.memWords ≤ u.toNat :=
  ⟨not_usesOwn_of_h rfl, ⟨_, _, direct mR small rfl, by decide⟩, ⟨_, _, direct mT small rfl, by decide⟩,
    _, _, direct mO small rfl, by decide⟩

def m2000 : Xhiu := ⟨0, false, false, 0o2000⟩

/-- The word at 2000 octal is `LA A0,0o1000`. -/
theorem witness_ExRunsTheWordAtU :
    (∃ u s1, effAddr m2000 small = .ok u s1 ∧ u.toNat < small.cfg.memWords ∧
      decode (small.mem.read u.toNat) = some (.la 0 0 mD)) ∧
    ∃ u s1, effAddr mO small = .ok u s1 ∧ small.cfg.memWords ≤ u.toNat :=
  ⟨⟨_, _, direct m2000 small rfl, by decide, by decide⟩, _, _, direct mO small rfl, by decide⟩

theorem witness_ExOfALoadCompletes : ∃ u s1, effAddr m2000 small = .ok u s1 ∧ u.toNat < small.cfg.memWords ∧
    decode (small.mem.read u.toNat) = some (.la 0 0 mD) ∧ ∃ v s2, operand 0 mD s1 = .ok v s2 ∧
    ¬UsesOwn [aReg 0] mD :=
  ⟨_, _, direct m2000 small rfl, by decide, by decide,
    let ⟨v, s2, h⟩ := ok_of_isOk (r := operand 0 mD (stepIndex m2000 small)) (by decide)
    ⟨v, s2, h, not_usesOwn_of_h rfl⟩⟩

theorem witness_ErAlwaysRaises : ∃ u s1, effAddr mI small = .ok u s1 := ⟨_, _, direct mI small rfl⟩

theorem witness_FlaggedInstructionsNeverRun : small.cfg.model = .m1100_20 ∧
    ({ small with cfg := { small.cfg with model := .m1110 } }).cfg.model = .m1110 := by decide

end Sys2Proof.Tests
end

section
/-! Ones' complement arithmetic as integer arithmetic (00_scope.md R13): the words of width n stand for the residues
modulo `2^n - 1`, and every helper is read through that. -/

namespace Sys2Proof.Machine

variable {n : Nat}

/-! ### The complement and the value -/

theorem onesNeg_eq_not (v : BitVec n) : onesNeg v = ~~~v := BitVec.xor_allOnes

theorem onesVal_eq_toNat_of_not_msb {v : BitVec n} (h : v.msb = false) : onesVal v = v.toNat := by
  simp [onesVal, h]

theorem onesVal_eq_toNat_sub_of_msb {v : BitVec n} (h : v.msb = true) : onesVal v = v.toNat - (2 ^ n - 1 : Int) := by
  have hneg : ((onesNeg v).toNat : Int) = 2 ^ n - 1 - v.toNat := by
    have hlt := v.isLt
    rw [onesNeg_eq_not, BitVec.toNat_not]
    push_cast [show v.toNat ≤ 2 ^ n - 1 by omega, Nat.one_le_two_pow]
    rfl
  simp only [onesVal, h, if_true, hneg]
  ring

theorem onesVal_nonneg_of_not_msb {v : BitVec n} (h : v.msb = false) : 0 ≤ onesVal v := by
  rw [onesVal_eq_toNat_of_not_msb h]
  omega

theorem onesVal_nonpos_of_msb {v : BitVec n} (h : v.msb = true) : onesVal v ≤ 0 := by
  simp [onesVal, h]

/-- The values of one width lie symmetrically about 0. -/
theorem abs_onesVal_le (v : BitVec n) (hn : 0 < n) : |onesVal v| ≤ 2 ^ (n - 1) - 1 := by
  have hlt : (v.toNat : Int) < 2 ^ n := mod_cast v.isLt
  have hpow : (2 : Int) ^ n = 2 * 2 ^ (n - 1) := (mul_pow_sub_one hn.ne' 2).symm
  cases h : v.msb with
  | false =>
    have hlow : (v.toNat : Int) < 2 ^ (n - 1) := by
      exact_mod_cast BitVec.toNat_lt_of_msb_false h
    rw [abs_of_nonneg (onesVal_nonneg_of_not_msb h), onesVal_eq_toNat_of_not_msb h]
    omega
  | true =>
    have hhigh : (2 : Int) ^ (n - 1) ≤ v.toNat := mod_cast BitVec.toNat_ge_of_msb_true h
    rw [abs_of_nonpos (onesVal_nonpos_of_msb h), onesVal_eq_toNat_sub_of_msb h]
    omega

/-- A word and its value are the same residue modulo `2^n - 1`. -/
theorem onesVal_modEq_toNat (v : BitVec n) : onesVal v ≡ v.toNat [ZMOD 2 ^ n - 1] := by
  cases h : v.msb with
  | false => rw [onesVal_eq_toNat_of_not_msb h]
  | true =>
    rw [onesVal_eq_toNat_sub_of_msb h]
    exact Int.modEq_iff_dvd.2 ⟨1, by ring⟩

@[simp] theorem onesVal_onesNeg (v : BitVec n) : onesVal (onesNeg v) = -onesVal v := by
  rcases Nat.eq_zero_or_pos n with rfl | hn
  · simp [BitVec.eq_nil v, onesVal, onesNeg]
  · have hnot : onesNeg (onesNeg v) = v := by simp [onesNeg_eq_not]
    have hmsb : (onesNeg v).msb = !v.msb := by simp [onesNeg_eq_not, BitVec.msb_not, hn]
    cases h : v.msb <;> simp [onesVal, hmsb, hnot, h]

@[simp] theorem onesVal_onesMag (v : BitVec n) : onesVal (onesMag v) = |onesVal v| := by
  cases h : v.msb with
  | false => simp [onesMag, h, abs_of_nonneg (onesVal_nonneg_of_not_msb h)]
  | true => simp [onesMag, h, onesVal_onesNeg, abs_of_nonpos (onesVal_nonpos_of_msb h)]

@[simp] theorem onesVal_zero : onesVal 0#n = 0 := by simp [onesVal]

@[simp] theorem onesNeg_zero : onesNeg 0#n = BitVec.allOnes n := by simp [onesNeg]

@[simp] theorem onesVal_allOnes : onesVal (BitVec.allOnes n) = 0 := by
  rw [← onesNeg_zero, onesVal_onesNeg, onesVal_zero, neg_zero]

theorem onesIsZero_iff_onesVal_eq_zero (v : BitVec n) : onesIsZero v = true ↔ onesVal v = 0 := by
  have hwords : onesIsZero v = true ↔ v = 0#n ∨ v = BitVec.allOnes n := by simp [onesIsZero]
  rw [hwords]
  constructor
  · rintro (rfl | rfl)
    · exact onesVal_zero
    · exact onesVal_allOnes
  · intro hval
    cases h : v.msb with
    | false =>
      rw [onesVal_eq_toNat_of_not_msb h, Int.natCast_eq_zero] at hval
      exact .inl (BitVec.eq_of_toNat_eq (by simpa using hval))
    | true =>
      have hnat : v.toNat = 2 ^ n - 1 := by
        rw [onesVal_eq_toNat_sub_of_msb h] at hval
        have hpow := Nat.one_le_two_pow (n := n)
        zify [hpow]
        omega
      exact .inr (BitVec.eq_of_toNat_eq (by rw [hnat, BitVec.toNat_allOnes]))

theorem ordKey_eq_toInt (v : BitVec n) : ordKey v = v.toInt := by
  simp [ordKey, BitVec.toInt_eq_msb_cond]

/-! ### The sum -/

theorem eq_allOnes_iff_toNat (v : BitVec n) : v = BitVec.allOnes n ↔ v.toNat = 2 ^ n - 1 := by
  rw [← BitVec.toNat_inj, BitVec.toNat_allOnes]

/-- The sum with its carry brought round, before R13 turns a sum of all ones into +0. -/
theorem endAroundCarry_mod {M t : Nat} (ht : t ≤ 2 * M) :
    (t + t / (M + 1)) % (M + 1) = if t ≤ M then t else t - M := by
  split
  case isTrue hle =>
    rw [Nat.div_eq_of_lt (by omega), Nat.mod_eq_of_lt (by omega), Nat.add_zero]
  case isFalse hgt =>
    have hcarry : t / (M + 1) = 1 := Nat.div_eq_of_lt_le (by omega) (by omega)
    rw [hcarry, show t + 1 = t - M + (M + 1) by omega, Nat.add_mod_right, Nat.mod_eq_of_lt (by omega)]

/-- End-around carry, and +0 for a sum of all ones, are together one subtraction of `2^n - 1` where it fits. -/
theorem toNat_onesAdd (a b : BitVec n) : (onesAdd a b).toNat =
    if a.toNat + b.toNat < 2 ^ n - 1 then a.toNat + b.toNat else a.toNat + b.toNat - (2 ^ n - 1) := by
  have hpow : 2 ^ n - 1 + 1 = 2 ^ n := Nat.sub_add_cancel Nat.one_le_two_pow
  have hsum := endAroundCarry_mod (M := 2 ^ n - 1) (t := a.toNat + b.toNat)
    (by have := a.isLt; have := b.isLt; omega)
  rw [hpow] at hsum
  simp only [onesAdd, apply_ite BitVec.toNat, eq_allOnes_iff_toNat, BitVec.toNat_ofNat, Nat.zero_mod, hsum]
  have ha := a.isLt
  have hb := b.isLt
  split_ifs <;> omega

/-- Only (-0) + (-0) is -0. -/
theorem onesAdd_eq_allOnes_iff (a b : BitVec n) (hn : 0 < n) :
    onesAdd a b = BitVec.allOnes n ↔ a = BitVec.allOnes n ∧ b = BitVec.allOnes n := by
  have hpow : 1 < 2 ^ n := Nat.one_lt_two_pow hn.ne'
  have ha := a.isLt
  have hb := b.isLt
  simp only [eq_allOnes_iff_toNat, toNat_onesAdd]
  split <;> omega

theorem onesVal_onesAdd_modEq (a b : BitVec n) : onesVal (onesAdd a b) ≡ onesVal a + onesVal b [ZMOD 2 ^ n - 1] := by
  have hnat : ((onesAdd a b).toNat : Int) ≡ a.toNat + b.toNat [ZMOD 2 ^ n - 1] := by
    rw [toNat_onesAdd]
    split
    · rw [Nat.cast_add]
    · rw [Nat.cast_sub (by omega)]
      push_cast [Nat.one_le_two_pow]
      exact Int.modEq_iff_dvd.2 ⟨1, by ring⟩
  calc onesVal (onesAdd a b)
      ≡ (onesAdd a b).toNat [ZMOD 2 ^ n - 1] := onesVal_modEq_toNat _
    _ ≡ a.toNat + b.toNat [ZMOD 2 ^ n - 1] := hnat
    _ ≡ onesVal a + onesVal b [ZMOD 2 ^ n - 1] := ((onesVal_modEq_toNat a).add (onesVal_modEq_toNat b)).symm

/-- Two values of the range that are congruent modulo `2^n - 1` are equal, so a sum that fits is exact. -/
theorem onesVal_onesAdd_of_fits (a b : BitVec n) (hn : 0 < n) (hfits : |onesVal a + onesVal b| ≤ 2 ^ (n - 1) - 1) :
    onesVal (onesAdd a b) = onesVal a + onesVal b := by
  have hdvd := (onesVal_onesAdd_modEq a b).symm.dvd
  have hpow : (2 : Int) ^ n = 2 * 2 ^ (n - 1) := (mul_pow_sub_one hn.ne' 2).symm
  have hnear : |onesVal (onesAdd a b) - (onesVal a + onesVal b)| < 2 ^ n - 1 :=
    calc |onesVal (onesAdd a b) - (onesVal a + onesVal b)|
        ≤ |onesVal (onesAdd a b)| + |onesVal a + onesVal b| := abs_sub _ _
      _ ≤ (2 ^ (n - 1) - 1) + (2 ^ (n - 1) - 1) := add_le_add (abs_onesVal_le _ hn) hfits
      _ < 2 ^ n - 1 := by omega
  exact sub_eq_zero.1 (Int.eq_zero_of_abs_lt_dvd hdvd hnear)

/-! ### The two statements -/

/-- Settles O19: the sum is congruent to the integer sum because `toNat_onesAdd` subtracts `2^n - 1` at most once, and
exact where it fits because the range of the values holds each residue once. -/
theorem onesAddIsIntegerAddition : Obligations.OnesAddIsIntegerAddition := by
  intro n a b hn
  exact ⟨onesAdd_eq_allOnes_iff a b hn,
    fun hlow hhigh => onesVal_onesAdd_of_fits a b hn (abs_le.2 ⟨hlow, hhigh⟩),
    (onesVal_onesAdd_modEq a b).symm.dvd⟩

/-- Settles O20, clause by clause from the lemma on each helper. -/
theorem onesHelpersOnIntegers : Obligations.OnesHelpersOnIntegers := by
  intro n v w
  exact ⟨onesVal_onesNeg v, onesVal_onesMag v, onesIsZero_iff_onesVal_eq_zero v, ordKey_eq_toInt v,
    onesNeg_eq_not v, by rw [onesSub, onesNeg_eq_not]⟩

end Sys2Proof.Machine
end

section
/-! What a step keeps: the parameters and the canonical form of the storage, and where it leaves P. One lemma for each
shared operation of the instruction families says which of the relations `Keeps`, `InPlace`, `Advances` and `MaySkip`
it satisfies, one case split over the instructions collects them (`execWith_next_cases`), and the statements about
`step` are read off from it. -/

namespace Sys2Proof.Machine

/-! ### Storages in canonical form -/

/-- A storage in canonical form lists exactly the words that differ from an unwritten one. -/
theorem mem_cells_iff_readCells {l : List (Nat × Word)} (hl : l.Pairwise fun c d => c.1 < d.1)
    (hw : ∀ c ∈ l, c.2 ≠ Config.unwrittenWord) (c : Nat × Word) :
    c ∈ l ↔ c.2 ≠ Config.unwrittenWord ∧ readCells l c.1 = c.2 := by
  induction l with
  | nil => simp [readCells, eq_comm]
  | cons d l ih =>
    obtain ⟨hd, hl'⟩ := List.pairwise_cons.1 hl
    obtain ⟨hdw, hw'⟩ := List.forall_mem_cons.1 hw
    rw [List.mem_cons, ih hl' hw', readCells]
    split
    · next e =>
      have habove : readCells l c.1 = Config.unwrittenWord := readCells_of_lt fun x hx => e ▸ hd x hx
      rw [habove, Prod.ext_iff]
      grind
    · next e => grind

theorem Memory.wf.ext {m m' : Memory} (h : m.wf) (h' : m'.wf) (hread : ∀ a, m.read a = m'.read a) : m = m' := by
  have hmem : ∀ c, c ∈ m.cells ↔ c ∈ m'.cells := fun c => by
    have hc : readCells m.cells c.1 = readCells m'.cells c.1 := hread c.1
    rw [mem_cells_iff_readCells h.1 h.2, mem_cells_iff_readCells h'.1 h'.2, hc]
  have : Std.Irrefl fun c d : Nat × Word => c.1 < d.1 := ⟨fun c => lt_irrefl c.1⟩
  have : Std.Antisymm fun c d : Nat × Word => c.1 < d.1 := ⟨fun _ _ h1 h2 => absurd h1 h2.asymm⟩
  obtain ⟨l⟩ := m
  obtain ⟨l'⟩ := m'
  exact congrArg Memory.mk (h.1.eq_of_mem_iff h'.1 hmem)

/-- Settles O18: a storage in canonical form lists the words that differ from an unwritten one, in rising order, so its
reads determine its cells. -/
theorem equalStoragesAreEqualData : Obligations.EqualStoragesAreEqualData :=
  fun _ _ h h' hread => h.ext h' hread

/-! ### The state at reset -/

/-- Settles O9: an empty storage, and 2^18 words of it. -/
theorem resetIsWellFormed : Obligations.ResetIsWellFormed :=
  ⟨State.reset_mem_wf, fun _ hc => absurd hc List.not_mem_nil, le_rfl⟩

theorem State.reset_reg (r : RegAddr) : State.reset.reg r = 0#36 := by
  simp [State.reg, State.reset]

theorem State.reset_mem_read (a : Nat) : State.reset.mem.read a = 0#36 := rfl

/-- Settles O11: P and the parameters by definition, the registers and the words by the lemmas above. -/
theorem resetValues : Obligations.ResetValues :=
  ⟨rfl, State.reset_reg, State.reset_mem_read, rfl⟩

/-! ### What a part of a step keeps -/

/-- What every step keeps: the parameters, and well-formedness if there is any. -/
structure Keeps (s t : State) : Prop where
  cfg : t.cfg = s.cfg
  wf : s.wf → t.wf

/-- The part of an instruction before P is set: P keeps the address of the instruction. -/
structure InPlace (s t : State) : Prop extends Keeps s t where
  p : t.p = s.p

/-- An instruction that goes on to the next one. -/
structure Advances (s t : State) : Prop extends Keeps s t where
  p : t.p = s.p + 1

/-- An instruction that may skip the next one. -/
structure MaySkip (s t : State) : Prop extends Keeps s t where
  p : t.p = s.p + 1 ∨ t.p = s.p + 2

variable {s s1 t : State}

theorem Keeps.trans (h : Keeps s s1) (h' : Keeps s1 t) : Keeps s t :=
  ⟨h'.cfg.trans h.cfg, h'.wf ∘ h.wf⟩

theorem Keeps.of_mem_eq (hm : t.mem = s.mem) (hc : t.cfg = s.cfg) : Keeps s t :=
  ⟨hc, State.wf_congr hm hc⟩

theorem InPlace.trans (h : InPlace s s1) (h' : InPlace s1 t) : InPlace s t :=
  ⟨h.toKeeps.trans h'.toKeeps, h'.p.trans h.p⟩

/-! The updates that leave P in place. -/

theorem InPlace.setReg (s : State) (r : RegAddr) (v : Word) : InPlace s (s.setReg r v) :=
  ⟨.of_mem_eq rfl rfl, rfl⟩

theorem InPlace.setPair (s : State) (a : BitVec 4) (d : DWord) : InPlace s (s.setPair a d) :=
  ⟨.of_mem_eq rfl rfl, rfl⟩

theorem InPlace.setWord {u : Addr} (hu : s.hasWord u = true) (v : Word) : InPlace s (s.setWord u v) :=
  ⟨⟨rfl, fun hs => State.setWord_wf hs hu v⟩, rfl⟩

theorem OnlyModifiers.inPlace (h : OnlyModifiers s t) : InPlace s t :=
  ⟨.of_mem_eq h.mem h.cfg, h.p⟩

theorem partWrite_inPlace {p : Part} {u : Addr} {v : Word} {x : Unit} (h : partWrite p u v s = .ok x t) :
    InPlace s t :=
  ⟨⟨(partWrite_ok_p h).2, partWrite_ok_wf h⟩, (partWrite_ok_p h).1⟩

theorem opWrite_inPlace {u : Addr} {v : Word} {x : Unit} (h : opWrite u v s = .ok x t) : InPlace s t :=
  ⟨⟨(opWrite_ok_p h).2, opWrite_ok_wf h⟩, (opWrite_ok_p h).1⟩

theorem opWrite2_inPlace {u : Addr} {d : DWord} {x : Unit} (h : opWrite2 u d s = .ok x t) : InPlace s t :=
  ⟨⟨(opWrite2_ok_p h).2, opWrite2_ok_wf h⟩, (opWrite2_ok_p h).1⟩

/-! The setting of P that ends an instruction. -/

theorem InPlace.advance (h : InPlace s t) : Advances s t.advance :=
  ⟨h.toKeeps.trans (.of_mem_eq rfl rfl), congrArg (· + 1) h.p⟩

theorem InPlace.skipIf (h : InPlace s t) (c : Bool) : MaySkip s (t.skipIf c) :=
  ⟨h.toKeeps.trans (.of_mem_eq (t.skipIf_mem c) (t.skipIf_cfg c)), by cases c <;> simp [h.p]⟩

theorem InPlace.jump (h : InPlace s t) (u : Addr) : Keeps s (t.jump u) :=
  h.toKeeps.trans (.of_mem_eq rfl rfl)

theorem InPlace.jumpIf (h : InPlace s t) (c : Bool) (u : Addr) : Keeps s (t.jumpIf c u) :=
  h.toKeeps.trans (.of_mem_eq (t.jumpIf_mem u c) (t.jumpIf_cfg u c))

/-! ### What each family of instructions keeps -/

variable {own : List RegAddr} {j a : BitVec 4} {m : Xhiu}

theorem storeValue_advances {v : State → Word} (h : storeValue own j m v s = .next t) : Advances s t := by
  obtain ⟨p, u, s1, s2, -, -, hu, hw, rfl⟩ := storeValue_next.1 h
  exact ((effAddr_ok hu).inPlace.trans (partWrite_inPlace hw)).advance

theorem f05Arith_maySkip {k : Word} (h : f05Arith a j m k s = .next t) : MaySkip s t := by
  obtain ⟨p, u, s1, -, hu, hat⟩ := f05Arith_next.1 h
  obtain ⟨-, w, s2, -, hw, rfl⟩ := f05At_next.1 hat
  exact ((effAddr_ok hu).inPlace.trans (opWrite_inPlace hw)).skipIf _

theorem loadWith_advances {k : Word → State → State} (h : loadWith own j m k s = .next t)
    (hk : ∀ v s1, InPlace s1 (k v s1)) : Advances s t := by
  obtain ⟨v, s1, -, ho, rfl⟩ := loadWith_next.1 h
  exact ((operand_ok ho).inPlace.trans (hk v s1)).advance

theorem multiply_advances {k : Word → State → State} (h : multiply own j m k s = .next t)
    (hk : ∀ v s1, InPlace s1 (k v s1)) : Advances s t := by
  obtain ⟨v, s1, -, ho, rfl⟩ := multiply_next.1 h
  exact ((operand_ok ho).inPlace.trans (hk v s1)).advance

theorem divide_advances {i : Instr} {n : State → Bool × Nat} {k : Word → Word → State → State}
    (h : divide i own j m n k s = .next t) (hk : ∀ q r s1, InPlace s1 (k q r s1)) : Advances s t := by
  obtain ⟨v, s1, q, r, -, ho, -, rfl⟩ := divide_next.1 h
  exact ((operand_ok ho).inPlace.trans (hk q r s1)).advance

theorem logical_advances {op : Word → Word → State → Word} (h : logical j a m op s = .next t) : Advances s t := by
  obtain ⟨v, s1, -, ho, rfl⟩ := logical_next.1 h
  exact ((operand_ok ho).inPlace.trans (.setReg ..)).advance

theorem execXli_advances (h : execXli j a m s = .next t) : Advances s t := by
  obtain ⟨v, s1, ho, rfl⟩ := Res.toNext_eq_next.1 h
  exact ((ownOperand_ok ho).inPlace.trans (.setReg ..)).advance

/-- TEP and TOP have the form of a test too (R195, R196). -/
theorem testSkip_maySkip {c : Word → State → Bool} (h : testSkip own j m c s = .next t) : MaySkip s t := by
  obtain ⟨v, s1, -, ho, rfl⟩ := testSkip_next.1 h
  exact (operand_ok ho).inPlace.skipIf _

theorem execTlem_maySkip (h : execTlem j a m s = .next t) : MaySkip s t := by
  obtain ⟨v, s1, ho, rfl⟩ := Res.toNext_eq_next.1 h
  exact ((ownOperand_ok ho).inPlace.trans (.setReg ..)).skipIf _

theorem search_maySkip {next : State → Res Word} {c : Word → State → Bool}
    (hnext : ∀ s v t, next s = .ok v t → OnlyModifiers s t) (h : search own m next c s = .next t) : MaySkip s t := by
  obtain ⟨-, -, hloop⟩ := search_next.1 h
  obtain ⟨hm, hc, hp, -, -⟩ := searchLoop_frame hnext hloop
  exact ⟨.of_mem_eq hm hc, hp⟩

theorem plainSearch_maySkip {c : Word → State → Bool} (h : plainSearch own j m c s = .next t) : MaySkip s t :=
  search_maySkip (fun _ _ _ => operand_ok) h

theorem maskedSearch_maySkip {c : Word → Word → State → Bool} (h : maskedSearch own m c s = .next t) : MaySkip s t :=
  search_maySkip (fun _ _ _ => wholeOperand_ok) h

theorem execBt_advances (h : execBt j a m s = .next t) : Advances s t := by
  unfold execBt at h
  split at h
  · cases h
  · split at h
    · obtain ⟨hp, hc⟩ := btLoop_p_cfg h
      exact ⟨⟨hc, btLoop_wf h⟩, hp⟩
    · cases h
    · cases h

theorem doubleLoad_advances {op : DWord → DWord → DWord} (h : doubleLoad a m op s = .next t) : Advances s t := by
  obtain ⟨d, s1, hd, rfl⟩ := doubleLoad_next.1 h
  exact ((doubleOperand_ok hd).inPlace.trans (.setPair ..)).advance

theorem execDs_advances (h : execDs a m s = .next t) : Advances s t := by
  obtain ⟨x, s2, hb, rfl⟩ := Res.toNext_eq_next.1 h
  obtain ⟨u, s1, hu, hw⟩ := Res.bind_eq_ok.1 hb
  exact ((ownAddr_ok hu).inPlace.trans (opWrite2_inPlace hw)).advance

theorem addParts_advances {op : Word → Word → Word} (h : addParts a m op s = .next t) : Advances s t := by
  obtain ⟨u, v, s1, -, hu, -, rfl⟩ := addParts_next.1 h
  exact ((effAddr_ok hu).inPlace.trans (.setReg ..)).advance

theorem execDte_maySkip (h : execDte a m s = .next t) : MaySkip s t := by
  obtain ⟨d, s1, hd, rfl⟩ := Res.toNext_eq_next.1 h
  exact (doubleOperand_ok hd).inPlace.skipIf _

theorem execJgd_keeps (h : execJgd j a m s = .next t) : Keeps s t := by
  obtain ⟨u, s1, hu, rfl⟩ := Res.toNext_eq_next.1 h
  exact ((ownAddr_ok hu).inPlace.trans (.setReg ..)).jumpIf _ _

theorem execDjz_keeps (h : execDjz a m s = .next t) : Keeps s t := by
  obtain ⟨u, s1, hu, rfl⟩ := Res.toNext_eq_next.1 h
  exact (ownAddr_ok hu).inPlace.jumpIf _ _

theorem jumpAndShift_keeps {c : Word → Bool} (h : jumpAndShift a m c s = .next t) : Keeps s t := by
  obtain ⟨u, s1, -, hu, rfl⟩ := jumpAndShift_next.1 h
  exact ((effAddr_ok hu).inPlace.trans (.setReg ..)).jumpIf _ _

theorem execSlj_keeps (h : execSlj a m s = .next t) : Keeps s t := by
  obtain ⟨u, s4, hb, rfl⟩ := Res.toNext_eq_next.1 h
  obtain ⟨u', s1, hu, hb⟩ := Res.bind_eq_ok.1 hb
  obtain ⟨w, s2, hr, hb⟩ := Res.bind_eq_ok.1 hb
  obtain ⟨x, s3, hw, hok⟩ := Res.bind_eq_ok.1 hb
  obtain ⟨-, -, rfl⟩ := memRead_eq_ok.1 hr
  obtain ⟨hword, rfl⟩ := memWrite_eq_ok.1 hw
  cases hok
  exact ((effAddr_ok hu).inPlace.trans (.setWord hword _)).jump _

theorem flagged1110_ne_next (i : Instr) (s t : State) : flagged1110 i s ≠ .next t := by
  unfold flagged1110 raiseInvalid
  split <;> exact nofun

theorem execEr_ne_next (a : BitVec 4) (m : Xhiu) (s t : State) : execEr a m s ≠ .next t := fun h => by
  obtain ⟨u, s1, -, hf⟩ := Res.andThen_eq_next.1 h
  cases hf

/-! ### What every instruction keeps -/

/-- The ways an instruction ends in a next state, when every EX inside it keeps what a step keeps. -/
theorem execWith_next_cases {onEx : BitVec 4 → Xhiu → State → Answer}
    (hex : ∀ a m s t, onEx a m s = .next t → Keeps s t) {i : Instr} (h : execWith onEx i s = .next t) :
    Advances s t ∨ (MaySkip s t ∧ i.mnemonic ∈ skippers) ∨ (Keeps s t ∧ i.mnemonic ∈ jumpers) := by
  unfold execWith at h
  cases i with
  | sa | sna | sma | sr | sz | snz | sp1 | sn1 | sfs | sfz | sas | sx => exact .inl (storeValue_advances h)
  | inc | dec | inc2 | dec2 | enz => exact .inr (.inl ⟨f05Arith_maySkip h, by simp [Instr.mnemonic, skippers]⟩)
  | ldj | lij | lpd | spd | lbj | srs | lrs => cases h
  | la | lna | lma | lnma | aa | ana | ama | anma | au | anu | lr | ax | anx | lxm | lx =>
    exact .inl (loadWith_advances h fun _ s1 => .setReg s1 _ _)
  | bt => exact .inl (execBt_advances h)
  | msi => exact .inl (multiply_advances h fun _ s1 => .setReg s1 _ _)
  | mi | mf => exact .inl (multiply_advances h fun _ s1 => .setPair s1 _ _)
  | dsf => exact .inl (divide_advances h fun _ _ s1 => .setReg s1 _ _)
  | di | df => exact .inl (divide_advances h fun _ _ s1 => .setPair s1 _ _)
  | bm | bmt | btc | bc | bpd | pdb | edit | bi | bdi | ib | dib | bf | bdf | fb | dfb | qb | bq | qbh | bqh | qdb
  | dbq | ba | ban => exact absurd h (flagged1110_ne_next _ s t)
  | or | xor | and | mlu => exact .inl (logical_advances h)
  | xli => exact .inl (execXli_advances h)
  | tlem => exact .inr (.inl ⟨execTlem_maySkip h, by simp [Instr.mnemonic, skippers]⟩)
  | tep | top | tz | tnz | te | tne | tle | tg | tw | tnw | tp | tn =>
    exact .inr (.inl ⟨testSkip_maySkip h, by simp [Instr.mnemonic, skippers]⟩)
  | se | sne | sle | sg | sw | snw =>
    exact .inr (.inl ⟨plainSearch_maySkip h, by simp [Instr.mnemonic, skippers]⟩)
  | mse | msne | msle | msg | msw | msnw | masl | masg =>
    exact .inr (.inl ⟨maskedSearch_maySkip h, by simp [Instr.mnemonic, skippers]⟩)
  | da | dan | dl | dln | dlm => exact .inl (doubleLoad_advances h)
  | ds => exact .inl (execDs_advances h)
  | dte => exact .inr (.inl ⟨execDte_maySkip h, by simp [Instr.mnemonic, skippers]⟩)
  | ah | anh | at_ | ant => exact .inl (addParts_advances h)
  | jgd => exact .inr (.inr ⟨execJgd_keeps h, by simp [Instr.mnemonic, jumpers]⟩)
  | djz => exact .inr (.inr ⟨execDjz_keeps h, by simp [Instr.mnemonic, jumpers]⟩)
  | slj => exact .inr (.inr ⟨execSlj_keeps h, by simp [Instr.mnemonic, jumpers]⟩)
  | jps | jns => exact .inr (.inr ⟨jumpAndShift_keeps h, by simp [Instr.mnemonic, jumpers]⟩)
  | ex => exact .inr (.inr ⟨hex _ _ _ _ h, by simp [Instr.mnemonic, jumpers]⟩)
  | er => exact absurd h (execEr_ne_next _ _ s t)

theorem execWith_keeps {onEx : BitVec 4 → Xhiu → State → Answer}
    (hex : ∀ a m s t, onEx a m s = .next t → Keeps s t) {i : Instr} (h : execWith onEx i s = .next t) :
    Keeps s t := by
  rcases execWith_next_cases hex h with hadv | ⟨hskip, -⟩ | ⟨hjump, -⟩
  · exact hadv.toKeeps
  · exact hskip.toKeeps
  · exact hjump

theorem execWordWith_eq_next {run : Instr → State → Answer} {w : Word} :
    execWordWith run w s = .next t ↔ ∃ i, decode w = some i ∧ run i s = .next t := by
  cases hd : decode w with
  | none => simp [execWordWith_of_invalid s hd]
  | some i => simp [execWordWith_of_decode s hd]

/-- A chain of EX keeps what the instruction at its end keeps. -/
theorem exLoop_keeps {n : Nat} (h : exLoop n m s = .next t) : Keeps s t := by
  induction n generalizing m s t with
  | zero => cases h
  | succ n ih =>
    obtain ⟨u, s1, hu, -, hrun⟩ := exLoop_next.1 h
    obtain ⟨i, -, hi⟩ := execWordWith_eq_next.1 hrun
    exact (effAddr_ok hu).inPlace.toKeeps.trans (execWith_keeps (fun _ _ _ _ => ih) hi)

theorem execEx_keeps (a : BitVec 4) (m : Xhiu) (s t : State) (h : execEx a m s = .next t) : Keeps s t :=
  exLoop_keeps h

/-- The ways an instruction ends in a next state. -/
theorem exec_next_cases {i : Instr} (h : exec i s = .next t) :
    Advances s t ∨ (MaySkip s t ∧ i.mnemonic ∈ skippers) ∨ (Keeps s t ∧ i.mnemonic ∈ jumpers) :=
  execWith_next_cases execEx_keeps (exec_eq_execWith i s ▸ h)

theorem step_eq_next : step s = .next t ↔
    s.hasWord s.p = true ∧ ∃ i, decode (s.mem.read s.p.toNat) = some i ∧ exec i s = .next t := by
  rw [step, Res.andThen_eq_next]
  simp only [fetch_eq_ok, execWordWith_eq_next]
  constructor
  · rintro ⟨w, s1, ⟨hw, rfl, rfl⟩, hi⟩; exact ⟨hw, hi⟩
  · rintro ⟨hw, hi⟩; exact ⟨_, s, ⟨hw, rfl, rfl⟩, hi⟩

theorem step_keeps (h : step s = .next t) : Keeps s t := by
  obtain ⟨-, i, -, hi⟩ := step_eq_next.1 h
  exact execWith_keeps execEx_keeps (exec_eq_execWith i s ▸ hi)

/-! ### The statements about a step -/

/-- Settles O8: an instruction writes storage only at addresses that exist, by writes that keep the canonical form; for
a chain of EX by induction on its length. -/
theorem stepKeepsWellFormed : Obligations.StepKeepsWellFormed :=
  fun _ _ hs h => (step_keeps h).wf hs

/-- Settles O10: the parameters are part of what every step keeps. -/
theorem stepKeepsParameters : Obligations.StepKeepsParameters :=
  fun _ _ h => (step_keeps h).cfg

/-- Settles O12, from the three ways an instruction ends in a next state. -/
theorem programAddressAfterAStep : Obligations.ProgramAddressAfterAStep := by
  intro i s t h hnot
  rcases exec_next_cases h with hadv | ⟨hskip, hmem⟩ | ⟨-, hmem⟩
  · exact .inl hadv.p
  · exact hskip.p.imp_right fun hp => ⟨hp, hmem⟩
  · exact absurd hmem hnot

end Sys2Proof.Machine
end

section
/-! Main storage and its parts (20_memory.md): which instructions leave the storage alone (R54), the accesses of a
double word (R66), and the partial words of R53 bit by bit. -/

namespace Sys2Proof.Machine

/-! ### The accesses of a double word -/

/-- Settles O47: each clause is one case of what `opRead2` and `opWrite2` answer. The wrap at the top of storage
(log 18) needs no case of its own, for both sides form the second address by the same 18-bit sum. -/
theorem doubleOperandAccesses : Obligations.DoubleOperandAccesses := by
  intro u d s
  refine ⟨fun hreg => ⟨opRead2_eq_ok.2 ⟨rfl, .inl ⟨hreg, rfl⟩⟩, opWrite2_eq_ok.2 (.inl ⟨hreg, rfl⟩)⟩,
    fun hacross => ⟨opRead2_eq_refused.2 ⟨hacross, rfl⟩, opWrite2_eq_refused.2 ⟨hacross, rfl⟩⟩,
    fun hstorage => ⟨fun hfirst hsecond => ?_, fun hfirst => ?_, fun hfirst hsecond => ?_⟩⟩
  case refine_1 =>
    have hw : s.hasWord u = true := decide_eq_true hfirst
    have hw' : s.hasWord (u + 1) = true := decide_eq_true hsecond
    exact ⟨opRead2_eq_ok.2 ⟨rfl, .inr ⟨hstorage, hw, hw', rfl⟩⟩,
      opWrite2_eq_ok.2 (.inr ⟨hstorage, hw, hw', rfl⟩)⟩
  case refine_2 =>
    have hw : s.hasWord u = false := decide_eq_false hfirst.not_gt
    exact ⟨opRead2_eq_raised.2 ⟨hstorage, .inl ⟨hw, rfl⟩⟩, opWrite2_eq_raised.2 ⟨hstorage, .inl ⟨hw, rfl⟩⟩⟩
  case refine_3 =>
    have hw : s.hasWord u = true := decide_eq_true hfirst
    have hw' : s.hasWord (u + 1) = false := decide_eq_false hsecond.not_gt
    exact ⟨opRead2_eq_raised.2 ⟨hstorage, .inr ⟨hw, hw', rfl⟩⟩,
      opWrite2_eq_raised.2 ⟨hstorage, .inr ⟨hw, hw', rfl⟩⟩⟩

/-! ### The families that leave the storage alone -/

section Storage

variable {s t : State} {own : List RegAddr} {j a : BitVec 4} {m : Xhiu}

theorem loadWith_mem {k : Word → State → State} (h : loadWith own j m k s = .next t)
    (hk : ∀ v s1, (k v s1).mem = s1.mem) : t.mem = s.mem := by
  obtain ⟨v, s1, -, ho, rfl⟩ := loadWith_next.1 h
  exact (hk v s1).trans (operand_ok ho).mem

theorem multiply_mem {k : Word → State → State} (h : multiply own j m k s = .next t)
    (hk : ∀ v s1, (k v s1).mem = s1.mem) : t.mem = s.mem := by
  obtain ⟨v, s1, -, ho, rfl⟩ := multiply_next.1 h
  exact (hk v s1).trans (operand_ok ho).mem

theorem divide_mem {i : Instr} {n : State → Bool × Nat} {k : Word → Word → State → State}
    (h : divide i own j m n k s = .next t) (hk : ∀ q r s1, (k q r s1).mem = s1.mem) : t.mem = s.mem := by
  obtain ⟨v, s1, q, r, -, ho, -, rfl⟩ := divide_next.1 h
  exact (hk q r s1).trans (operand_ok ho).mem

theorem logical_mem {op : Word → Word → State → Word} (h : logical j a m op s = .next t) : t.mem = s.mem := by
  obtain ⟨v, s1, -, ho, rfl⟩ := logical_next.1 h
  exact (operand_ok ho).mem

theorem execXli_mem (h : execXli j a m s = .next t) : t.mem = s.mem := by
  obtain ⟨v, s1, ho, rfl⟩ := Res.toNext_eq_next.1 h
  exact (ownOperand_ok ho).mem

theorem testSkip_mem {c : Word → State → Bool} (h : testSkip own j m c s = .next t) : t.mem = s.mem := by
  obtain ⟨v, s1, -, ho, rfl⟩ := testSkip_next.1 h
  exact (State.skipIf_mem ..).trans (operand_ok ho).mem

theorem execTlem_mem (h : execTlem j a m s = .next t) : t.mem = s.mem := by
  obtain ⟨v, s1, ho, rfl⟩ := Res.toNext_eq_next.1 h
  exact (State.skipIf_mem ..).trans (ownOperand_ok ho).mem

theorem plainSearch_mem {c : Word → State → Bool} (h : plainSearch own j m c s = .next t) : t.mem = s.mem :=
  (searchLoop_frame (fun _ _ _ => operand_ok) (search_next.1 h).2.2).1

theorem maskedSearch_mem {c : Word → Word → State → Bool} (h : maskedSearch own m c s = .next t) : t.mem = s.mem :=
  (searchLoop_frame (fun _ _ _ => wholeOperand_ok) (search_next.1 h).2.2).1

theorem doubleLoad_mem {op : DWord → DWord → DWord} (h : doubleLoad a m op s = .next t) : t.mem = s.mem := by
  obtain ⟨d, s1, hd, rfl⟩ := doubleLoad_next.1 h
  exact (doubleOperand_ok hd).mem

theorem execDte_mem (h : execDte a m s = .next t) : t.mem = s.mem := by
  obtain ⟨d, s1, hd, rfl⟩ := Res.toNext_eq_next.1 h
  exact (State.skipIf_mem ..).trans (doubleOperand_ok hd).mem

theorem addParts_mem {op : Word → Word → Word} (h : addParts a m op s = .next t) : t.mem = s.mem := by
  obtain ⟨u, v, s1, -, hu, -, rfl⟩ := addParts_next.1 h
  exact (effAddr_ok hu).mem

theorem execJgd_mem (h : execJgd j a m s = .next t) : t.mem = s.mem := by
  obtain ⟨u, s1, hu, rfl⟩ := Res.toNext_eq_next.1 h
  exact (State.jumpIf_mem ..).trans (ownAddr_ok hu).mem

theorem execDjz_mem (h : execDjz a m s = .next t) : t.mem = s.mem := by
  obtain ⟨u, s1, hu, rfl⟩ := Res.toNext_eq_next.1 h
  exact (State.jumpIf_mem ..).trans (ownAddr_ok hu).mem

theorem jumpAndShift_mem {c : Word → Bool} (h : jumpAndShift a m c s = .next t) : t.mem = s.mem := by
  obtain ⟨u, s1, -, hu, rfl⟩ := jumpAndShift_next.1 h
  exact (State.jumpIf_mem ..).trans (effAddr_ok hu).mem

/-- Every instruction outside `storers` belongs to a family above or answers no next state, whatever EX does. -/
theorem execWith_mem_of_not_storer {onEx : BitVec 4 → Xhiu → State → Answer} {i : Instr}
    (h : execWith onEx i s = .next t) (hnot : i.mnemonic ∉ storers) : t.mem = s.mem := by
  unfold execWith at h
  cases i with
  | sa | sna | sma | sr | sz | snz | sp1 | sn1 | sfs | sfz | sas | sx | inc | dec | inc2 | dec2 | enz | bt | ds | slj
  | ex => exact absurd (by simp [Instr.mnemonic, storers]) hnot
  | ldj | lij | lpd | spd | lbj | srs | lrs => cases h
  | la | lna | lma | lnma | aa | ana | ama | anma | au | anu | lr | ax | anx | lxm | lx =>
    exact loadWith_mem h fun _ _ => rfl
  | mi | msi | mf => exact multiply_mem h fun _ _ => rfl
  | di | dsf | df => exact divide_mem h fun _ _ _ => rfl
  | bm | bmt | btc | bc | bpd | pdb | edit | bi | bdi | ib | dib | bf | bdf | fb | dfb | qb | bq | qbh | bqh | qdb
  | dbq | ba | ban => exact absurd h (flagged1110_ne_next _ s t)
  | or | xor | and | mlu => exact logical_mem h
  | xli => exact execXli_mem h
  | tlem => exact execTlem_mem h
  | tep | top | tz | tnz | te | tne | tle | tg | tw | tnw | tp | tn => exact testSkip_mem h
  | se | sne | sle | sg | sw | snw => exact plainSearch_mem h
  | mse | msne | msle | msg | msw | msnw | masl | masg => exact maskedSearch_mem h
  | da | dan | dl | dln | dlm => exact doubleLoad_mem h
  | dte => exact execDte_mem h
  | ah | anh | at_ | ant => exact addParts_mem h
  | jgd => exact execJgd_mem h
  | djz => exact execDjz_mem h
  | jps | jns => exact jumpAndShift_mem h
  | er => exact absurd h (execEr_ne_next _ _ s t)

end Storage

/-- Settles O13, from the frame of each family: an operand is read and an address formed without a write to storage. -/
theorem onlyStoresWriteStorage : Obligations.OnlyStoresWriteStorage :=
  fun i s _ h hnot => execWith_mem_of_not_storer (exec_eq_execWith i s ▸ h) hnot

/-! ### The field of a partial word -/

/-- The lowest bit of the field (R53). -/
def Part.low : Part → Nat
  | .w | .h2 | .xh2 | .t3 | .q4 | .s6 => 0
  | .s5 => 6
  | .q3 => 9
  | .t2 | .s4 => 12
  | .h1 | .xh1 | .q2 | .s3 => 18
  | .t1 | .s2 => 24
  | .q1 => 27
  | .s1 => 30

/-- The number of bits in the field (R53). -/
def Part.width : Part → Nat
  | .w => 36
  | .h2 | .h1 | .xh2 | .xh1 => 18
  | .t3 | .t2 | .t1 => 12
  | .q2 | .q4 | .q3 | .q1 => 9
  | .s6 | .s5 | .s4 | .s3 | .s2 | .s1 => 6

/-- A read extends the sign of the field (R53). -/
def Part.signed : Part → Bool
  | .xh2 | .xh1 | .t3 | .t2 | .t1 => true
  | _ => false

/-- The table of R53, row by row: what j designates has the field that the table gives, and the two immediates have
none. -/
theorem partField_eq_designate (qw : Bool) (j : BitVec 4) :
    partField qw j.toNat = match designate qw j with
      | .part p => some (p.low, p.width, p.signed)
      | .u => none
      | .xu => none := by
  revert qw j; decide

theorem designate_of_partField_eq_none {qw : Bool} {j : BitVec 4} (h : partField qw j.toNat = none) :
    designate qw j = if j = 0o16#4 then .u else .xu := by
  revert qw j; decide

section Bits

variable {lo wd hi k : Nat}

theorem getLsbD_setWidth_extractLsb' (w : Word) (hk : k < 36) :
    ((w.extractLsb' lo wd).setWidth 36).getLsbD k = if k < wd then w.getLsbD (lo + k) else false := by
  simp [BitVec.getLsbD_extractLsb', hk]

theorem getLsbD_signExtend_extractLsb' (w : Word) (hwd : 0 < wd) (hk : k < 36) :
    ((w.extractLsb' lo wd).signExtend 36).getLsbD k =
      if k < wd then w.getLsbD (lo + k) else w.getLsbD (lo + wd - 1) := by
  have hmsb : (w.extractLsb' lo wd).msb = w.getLsbD (lo + wd - 1) := by
    simp [BitVec.msb_eq_getLsbD_last, hwd, ← Nat.add_sub_assoc hwd]
  rw [BitVec.getLsbD_signExtend, hmsb, BitVec.getLsbD_extractLsb']
  split <;> simp [*]

theorem getLsbD_extractLsb'_zero (w : Word) (hk : k < wd) : (w.extractLsb' 0 wd).getLsbD k = w.getLsbD k := by
  rw [BitVec.getLsbD_extractLsb', Nat.zero_add, decide_eq_true hk, Bool.true_and]

/-- The low bits of a word below a vector, bit by bit. -/
theorem getLsbD_append_extractLsb'_zero {n : Nat} (x : BitVec n) (w : Word) :
    (x ++ w.extractLsb' 0 lo).getLsbD k = if k < lo then w.getLsbD k else x.getLsbD (k - lo) := by
  rw [BitVec.getLsbD_append]
  split
  · next hlo => exact getLsbD_extractLsb'_zero w hlo
  · rfl

/-- The high bits of a word, from bit `lo` on, moved down by `lo`. -/
theorem getLsbD_extractLsb'_sub (w : Word) (hw : lo + hi = 36) (hlo : lo ≤ k) (hk : k < 36) :
    (w.extractLsb' lo hi).getLsbD (k - lo) = w.getLsbD k := by
  rw [BitVec.getLsbD_extractLsb', Nat.add_sub_cancel' hlo, decide_eq_true (by omega), Bool.true_and]

/-! The three ways `fieldPut` replaces a field: at the high end of the word, at its low end, or between. -/

theorem getLsbD_replaceHigh (w v : Word) (hw : lo + wd = 36) (hk : k < 36) :
    (v.extractLsb' 0 wd ++ w.extractLsb' 0 lo).getLsbD k =
      if lo ≤ k ∧ k < lo + wd then v.getLsbD (k - lo) else w.getLsbD k := by
  have hfield : lo ≤ k → (v.extractLsb' 0 wd).getLsbD (k - lo) = v.getLsbD (k - lo) := fun hlo =>
    getLsbD_extractLsb'_zero v (by omega)
  rw [getLsbD_append_extractLsb'_zero]
  grind

theorem getLsbD_replaceLow (w v : Word) (hw : wd + hi = 36) (hk : k < 36) :
    (w.extractLsb' wd hi ++ v.extractLsb' 0 wd).getLsbD k =
      if 0 ≤ k ∧ k < 0 + wd then v.getLsbD (k - 0) else w.getLsbD k := by
  have habove : wd ≤ k → (w.extractLsb' wd hi).getLsbD (k - wd) = w.getLsbD k := fun hwd =>
    getLsbD_extractLsb'_sub w hw hwd hk
  rw [getLsbD_append_extractLsb'_zero]
  grind

theorem getLsbD_replaceMiddle {n : Nat} (w v : Word) (hn : lo + wd = n) (hw : n + hi = 36) (hk : k < 36) :
    (w.extractLsb' n hi ++ v.extractLsb' 0 wd ++ w.extractLsb' 0 lo).getLsbD k =
      if lo ≤ k ∧ k < lo + wd then v.getLsbD (k - lo) else w.getLsbD k := by
  have habove : n ≤ k → (w.extractLsb' n hi).getLsbD (k - n) = w.getLsbD k := fun hle =>
    getLsbD_extractLsb'_sub w hw hle hk
  rw [getLsbD_append_extractLsb'_zero, getLsbD_append_extractLsb'_zero, Nat.sub_sub, hn]
  grind

end Bits

/-- What a read of a partial word delivers (R53). -/
theorem getLsbD_fieldGet (p : Part) (w : Word) {k : Nat} (hk : k < 36) :
    (fieldGet p w).getLsbD k = if k < p.width then w.getLsbD (p.low + k)
      else p.signed && w.getLsbD (p.low + p.width - 1) := by
  cases p with
  | w => simp [fieldGet, Part.width, Part.low, hk]
  | h2 | h1 | q2 | q4 | q3 | q1 | s6 | s5 | s4 | s3 | s2 | s1 => exact getLsbD_setWidth_extractLsb' w hk
  | xh2 | xh1 | t3 | t2 | t1 => exact getLsbD_signExtend_extractLsb' w (by decide) hk

/-- What a store of a partial word writes back (R53). -/
theorem getLsbD_fieldPut (p : Part) (w v : Word) {k : Nat} (hk : k < 36) :
    (fieldPut p w v).getLsbD k =
      if p.low ≤ k ∧ k < p.low + p.width then v.getLsbD (k - p.low) else w.getLsbD k := by
  cases p with
  | w => simp [fieldPut, Part.width, Part.low, hk]
  | h2 | xh2 | t3 | q4 | s6 => exact getLsbD_replaceLow w v rfl hk
  | t2 | q2 | q3 | s5 | s4 | s3 | s2 => exact getLsbD_replaceMiddle w v rfl rfl hk
  | h1 | xh1 | t1 | q1 | s1 => exact getLsbD_replaceHigh w v rfl hk

/-- Settles O21: the table of R53 names the field of the partial word that j designates, and the bits of a read and of
a store are those of that field. -/
theorem partialWordFields : Obligations.PartialWordFields := by
  intro qw j w v
  cases hf : partField qw j.toNat with
  | none => exact designate_of_partField_eq_none hf
  | some f =>
    rw [partField_eq_designate] at hf
    split at hf
    · next p hp =>
      cases hf
      exact ⟨p, hp, fun k hk => getLsbD_fieldGet p w hk, fun k hk => getLsbD_fieldPut p w v hk⟩
    all_goals cases hf

end Sys2Proof.Machine
end

section
/-! The decoder and the encoder (30_encoding.md R79 to R86): an instruction that a word decodes to stands for the
fields of that word, the code of a well-formed instruction decodes to its own line, and the codes that the table of R86
lists are counted f by f. -/

namespace Sys2Proof.Machine

/-! ### What a code decodes to -/

/-- The instruction `i` is one that the fields f, j, a and x, h, i, u of a word can stand for (R84, R86). -/
structure StandsFor (f : BitVec 6) (j a : BitVec 4) (m : Xhiu) (i : Instr) : Prop where
  wellFormed : i.wellFormed = true
  decodes : i.decodes = true
  f : i.code.1.toNat = f.toNat
  j : i.code.2.1.toNat = j.toNat
  a : i.code.2.2.toNat = a.toNat
  xhiu : i.xhiu = m

section Decoder

variable {f : BitVec 6} {j a : BitVec 4} {m : Xhiu} {i : Instr}

theorem StandsFor.code_eq (h : StandsFor f j a m i) : i.code = (f, j, a) :=
  Prod.ext (BitVec.eq_of_toNat_eq h.f) (Prod.ext (BitVec.eq_of_toNat_eq h.j) (BitVec.eq_of_toNat_eq h.a))

theorem StandsFor.encode_eq (h : StandsFor f j a m i) : encode i = packWord f j a m := by
  rw [encode, h.code_eq, h.xhiu]

/-- Each line of the table of R86 has one of four forms: j is restricted to the partial words, a selects the
instruction, j does, or j and a are both free. -/
theorem decodeFields_standsFor (h : decodeFields f j a m = some i) : StandsFor f j a m i := by
  unfold decodeFields at h
  split at h
  case h_1 hf | h_2 hf | h_3 hf | h_4 hf | h_6 hf | h_18 hf =>
    obtain ⟨hj, hi⟩ := Option.ite_none_right_eq_some.1 h
    cases hi
    exact ⟨decide_eq_true hj, rfl, hf.symm, rfl, rfl, rfl⟩
  case h_5 hf =>
    unfold decodeF05 at h
    split at h
    all_goals cases h
    case h_12 ha | h_13 ha | h_14 ha | h_15 ha =>
      exact ⟨by simp [Instr.wellFormed, enzA, ha], rfl, hf.symm, rfl, rfl, rfl⟩
    all_goals next ha => exact ⟨rfl, rfl, hf.symm, rfl, ha.symm, rfl⟩
  case h_7 hf | h_27 hf | h_31 hf | h_57 hf | h_58 hf =>
    simp only [decodeF07, decodeF33, decodeF37, decodeF71, decodeF72] at h
    split at h
    all_goals cases h
    all_goals next hj => exact ⟨rfl, rfl, hf.symm, hj.symm, rfl, rfl⟩
  all_goals cases h
  all_goals next hf => exact ⟨rfl, rfl, hf.symm, rfl, rfl, rfl⟩

/-- The decoder against the decision procedure of R86, in the same four forms of a line. -/
theorem isSome_decodeFields : (decodeFields f j a m).isSome = listedCode f.toNat j.toNat a.toNat := by
  have hf := f.isLt
  have hj := j.isLt
  have ha := a.isLt
  unfold decodeFields
  split
  case h_1 | h_2 | h_3 | h_4 | h_6 | h_18 => simp [*, listedCode, apply_ite Option.isSome]
  case h_5 | h_7 | h_27 | h_31 | h_57 | h_58 =>
    simp only [decodeF05, decodeF07, decodeF33, decodeF37, decodeF71, decodeF72]
    split
    all_goals grind [listedCode]
  case h_59 => grind [listedCode]
  all_goals next hline => rw [hline]; rfl

theorem decodeF05_of_enzA (ha : enzA a = true) : decodeF05 j a m = some (.enz j a m) := by
  have hlow : 0o14 ≤ a.toNat := of_decide_eq_true ha
  have hlt := a.isLt
  unfold decodeF05
  split
  case h_12 | h_13 | h_14 | h_15 => rfl
  all_goals grind

/-- The code of a well-formed instruction decodes, with any x, h, i and u, to an instruction of its line. -/
theorem decodeFields_code (hw : i.wellFormed = true) (hd : i.decodes = true) (m : Xhiu) :
    ∃ i', decodeFields i.code.1 i.code.2.1 i.code.2.2 m = some i' ∧ i'.mnemonic = i.mnemonic ∧
      (m = i.xhiu → i' = i) := by
  cases i with
  | lbj => cases hd
  | sa | sna | sma | sr | sx | bt => exact ⟨_, if_pos (of_decide_eq_true hw), rfl, by rintro rfl; rfl⟩
  | enz => exact ⟨_, decodeF05_of_enzA hw, rfl, by rintro rfl; rfl⟩
  | _ => exact ⟨_, rfl, rfl, by rintro rfl; rfl⟩

/-- x, h, i and u take no part in the choice of the line (R81). -/
theorem decodeFields_mnemonic (m m' : Xhiu) :
    (decodeFields f j a m).map Instr.mnemonic = (decodeFields f j a m').map Instr.mnemonic := by
  cases h : decodeFields f j a m with
  | none =>
    have hsame : (decodeFields f j a m').isSome = (decodeFields f j a m).isSome := by
      rw [isSome_decodeFields, isSome_decodeFields]
    have hnone : decodeFields f j a m' = none := by simpa [h] using hsame
    rw [hnone]
  | some i =>
    have hi := decodeFields_standsFor h
    obtain ⟨i', hi', hname, -⟩ := decodeFields_code hi.wellFormed hi.decodes m'
    rw [hi.code_eq] at hi'
    rw [hi', Option.map_some, Option.map_some, hname]

theorem flag1110_eq (i : Instr) : i.flag1110 = decide (i.code.1.toNat = 0o33 ∨ i.code.1.toNat = 0o37) := by
  cases i <;> rfl

theorem flag1110_of_decodeFields (h : decodeFields f j a m = some i) :
    i.flag1110 = flaggedCode f.toNat j.toNat a.toNat := by
  have hlisted : listedCode f.toNat j.toNat a.toNat = true := by
    rw [← isSome_decodeFields (m := m), h, Option.isSome_some]
  rw [flag1110_eq, (decodeFields_standsFor h).f, flaggedCode, hlisted, Bool.true_and]

end Decoder

/-! ### Decoding and encoding are inverse -/

/-- Settles O1: the fields of the encoded word are the instruction's own, and its code decodes to its line. -/
theorem decodeOfEncode : Obligations.DecodeOfEncode := by
  intro i hw hd
  obtain ⟨i', hi', -, heq⟩ := decodeFields_code hw hd i.xhiu
  rw [encode, decode_packWord, hi', heq rfl]

/-- Settles O2: the instruction stands for the fields of the word, and a word is packed from its fields. -/
theorem encodeOfDecode : Obligations.EncodeOfDecode := by
  intro w i h
  have hi := decodeFields_standsFor h
  exact ⟨hi.wellFormed, hi.decodes, hi.encode_eq.trans (packWord_fields w)⟩

/-- Settles O4: the code is that of SPD, which decodes by O1, and no instruction that a word stands for is LBJ. -/
theorem lbjHasTheCodeOfSpd : Obligations.LbjHasTheCodeOfSpd := by
  refine ⟨fun a m => ⟨rfl, decodeOfEncode (.spd a m) rfl rfl, fun s => ⟨rfl, rfl⟩⟩, fun w a m h => ?_⟩
  exact absurd (decodeFields_standsFor h).decodes Bool.false_ne_true

/-- Settles O5, word by word. -/
theorem sampleWordsDecode : Obligations.SampleWordsDecode := by
  unfold Obligations.SampleWordsDecode
  and_intros
  all_goals rfl

/-! ### The number of listed codes -/

/-- A count over `n` rows of `k` numbers each, row by row. -/
theorem length_filter_range_mul (p : Nat → Bool) (n k : Nat) :
    ((List.range (n * k)).filter p).length =
      ((List.range n).map fun i => ((List.range k).filter fun r => p (i * k + r)).length).sum := by
  induction n with
  | zero => simp
  | succ n ih =>
    rw [Nat.succ_mul, List.range_add, List.filter_append, List.length_append, ih, List.range_succ, List.map_append,
      List.sum_append, List.filter_map, List.length_map]
    simp [Function.comp_def]

/-- The codes (f, j, a) that a predicate holds of, counted f by f. -/
theorem length_filter_triples (p : Nat → Nat → Nat → Bool) :
    ((List.range 16384).filter fun n => p (n / 256) (n / 16 % 16) (n % 16)).length =
      ((List.range 64).map fun f => ((List.range 256).filter fun r => p f (r / 16) (r % 16)).length).sum := by
  have hrow (f : Nat) : ((List.range 256).filter fun r =>
        p ((f * 256 + r) / 256) ((f * 256 + r) / 16 % 16) ((f * 256 + r) % 16)) =
      (List.range 256).filter fun r => p f (r / 16) (r % 16) := by
    refine List.filter_congr fun r hr => ?_
    have hlt : r < 256 := List.mem_range.1 hr
    rw [show (f * 256 + r) / 256 = f by omega, show (f * 256 + r) / 16 % 16 = r / 16 by omega,
      show (f * 256 + r) % 16 = r % 16 by omega]
  simp only [show 16384 = 64 * 256 from rfl, length_filter_range_mul, hrow]

/-- How many of the 256 codes with one f the table of R86 lists, in the order of `listedCode`. -/
def listedWithF (f : Nat) : Nat :=
  if f = 0o00 then 0
  else if f ≤ 0o04 ∨ f = 0o06 ∨ f = 0o22 then 14 * 16
  else if f = 0o05 then 15 * 16
  else if f = 0o07 then 4 * 16
  else if f = 0o33 then 15 * 16
  else if f = 0o37 then 8 * 16
  else if f = 0o72 then 11 * 16
  else if f ≤ 0o71 then 16 * 16
  else 0

theorem length_filter_listedCode (f : Nat) :
    ((List.range 256).filter fun r => listedCode f (r / 16) (r % 16)).length = listedWithF f := by
  unfold listedCode listedWithF
  split_ifs with _ _ _ _ _ _ _ hf
  any_goals rfl
  all_goals simp [hf]

theorem length_filter_flaggedCode (f : Nat) :
    ((List.range 256).filter fun r => flaggedCode f (r / 16) (r % 16)).length =
      if f = 0o33 ∨ f = 0o37 then listedWithF f else 0 := by
  rw [← length_filter_listedCode]
  split
  all_goals next hf => simp [flaggedCode, hf]

theorem length_filter_not (l : List Nat) (p : Nat → Bool) :
    (l.filter fun n => !p n).length = l.length - (l.filter p).length := by
  rw [l.length_eq_length_filter_add p, Nat.add_sub_cancel_left]

/-- A part of what `p` holds of, taken away. -/
theorem length_filter_and_not (l : List Nat) {p q : Nat → Bool} (hqp : ∀ n, q n = true → p n = true) :
    (l.filter fun n => p n && !q n).length = (l.filter p).length - (l.filter q).length := by
  have hq : (fun n => p n && q n) = q := by
    funext n
    cases h : q n <;> simp [hqp n, h]
  simp only [← List.filter_filter, Bool.and_comm (p _), length_filter_not]
  rw [List.filter_filter]
  simp only [Bool.and_comm (q _), hq]

/-- Settles O3: the decoder against the table line by line, and the counts f by f. -/
theorem listedCodes : Obligations.ListedCodes := by
  refine ⟨fun f j a m => isSome_decodeFields, fun f j a m i => flag1110_of_decodeFields, fun w w' hf hj ha => ?_, ?_⟩
  case refine_1 =>
    rw [decode, decode, hf, hj, ha]
    exact decodeFields_mnemonic _ _
  case refine_2 =>
    intro triples listed flagged
    have hlength : triples.length = 16384 := List.length_range
    have hlisted : (triples.filter listed).length = 14224 := by
      rw [length_filter_triples listedCode]
      simp only [length_filter_listedCode]
      rfl
    have hflagged : (triples.filter flagged).length = 368 := by
      rw [length_filter_triples flaggedCode]
      simp only [length_filter_flaggedCode]
      rfl
    have hsub (n : Nat) (hn : flagged n = true) : listed n = true := (Bool.and_eq_true_iff.1 hn).1
    have hrest : (triples.filter fun n => listed n && !flagged n).length = 13856 := by
      rw [length_filter_and_not triples hsub, hlisted, hflagged]
    have hothers : (fun n => !listed n || flagged n) = fun n => !(listed n && !flagged n) := by
      funext n
      rw [Bool.not_and, Bool.not_not]
    refine ⟨hlisted, ?_, hflagged, hrest, ?_⟩
    · rw [length_filter_not, hlisted, hlength]
    · rw [hothers, length_filter_not, hrest, hlength]

end Sys2Proof.Machine
end

section
/-! Effective addresses and operands (30_encoding.md R91 to R94): the equation of R92, the immediates, and the access of
an operand at an address that is formed. -/

namespace Sys2Proof.Machine

/-! ### The effective address -/

theorem State.bumpIndex_changesOnly (s : State) (k : BitVec 4) : ChangesOnly [xReg k] [] s (s.bumpIndex k) where
  reg r hr := State.reg_bumpIndex_ne s r k (by simpa using hr)
  word _ _ := rfl
  cfg := rfl

/-- The equation of R92: a chain of any length is one level and the chain after it, because one link more than the
bound makes no difference. -/
theorem effAddr_eq (m : Xhiu) (s : State) : effAddr m s =
    if m.i = false then .ok (indexSum m s) (stepIndex m s)
    else if isRegAddr (indexSum m s) = true then .refused (.indirectWordAtGrs (stepIndex m s))
    else if s.hasWord (indexSum m s) = true then
      effAddr (xhiuOf (s.mem.read (indexSum m s).toNat)) (stepIndex m s)
    else .raised (storageFault .indirectWord (indexSum m s) (stepIndex m s)) := by
  have hmore : effAddr m s = effAddrLoop (Config.chainBound + 1) m s :=
    (effAddrLoop_of_bound_le (Nat.le_succ _) m s).symm
  rcases effAddrLoop_cases Config.chainBound m s with ⟨hi, e⟩ | ⟨hi, hr, e⟩ | ⟨hi, hr, hw, e⟩ | ⟨hi, hr, hw, e⟩
  · rw [hmore, e, if_pos hi]
  · rw [hmore, e, if_neg (by simp [hi]), if_pos hr]
  · rw [hmore, e, if_neg (by simp [hi]), if_neg (by simp [hr]), if_neg (by simp [hw])]
  · rw [hmore, e, if_neg (by simp [hi]), if_neg (by simp [hr]), if_pos hw]
    rfl

theorem effAddr_endless_iff (m : Xhiu) (s : State) : effAddr m s = .raised .endlessIndirection ↔
    ∀ n, effAddrLoop n m s = .raised .endlessIndirection :=
  ⟨effAddr_endless, fun h => h Config.chainBound⟩

/-- Settles O22: the equation of one level, what its incrementation changes, and the chain bound, which is exact. -/
theorem effectiveAddressEquation : Obligations.EffectiveAddressEquation := by
  refine ⟨fun m s => ?_, fun s k => ⟨s.bumpIndex_changesOnly k, rfl, s.modifier_bumpIndex k,
    s.increment_bumpIndex k k⟩, effAddr_endless_iff⟩
  have heq := effAddr_eq m s
  simp only [isRegAddr, State.hasWord, decide_eq_true_eq] at heq
  exact heq

/-! ### Immediates -/

theorem immediate_of_x_zero (extend : BitVec 18 → Word) {m : Xhiu} (s : State) (hx : m.x = 0) :
    immediate extend m s = .ok (extend (BitVec.ofBool m.h ++ BitVec.ofBool m.i ++ m.u)) s :=
  immediate_eq_ok.2 ⟨fun h => h.1 hx, by rw [immediateBits, if_pos hx], (stepIndex_of_x_zero s hx).symm⟩

theorem immediate_of_indirect (extend : BitVec 18 → Word) {m : Xhiu} (s : State) (hx : m.x ≠ 0) (hi : m.i = true) :
    immediate extend m s = .refused (.immediateIndexedIndirect s) :=
  immediate_eq_refused.2 ⟨⟨hx, hi⟩, rfl⟩

theorem immediate_of_indexed (extend : BitVec 18 → Word) {m : Xhiu} (s : State) (hx : m.x ≠ 0) (hi : m.i = false) :
    immediate extend m s = .ok (extend (onesAdd (m.u.setWidth 18) (s.modifier m.x)))
      (if m.h = true then s.bumpIndex m.x else s) := by
  refine immediate_eq_ok.2 ⟨fun h => Bool.false_ne_true (hi ▸ h.2), ?_, ?_⟩
  · rw [immediateBits, if_neg hx, indexSum, if_neg hx]
  · simp only [stepIndex, ne_eq, hx, not_false_eq_true, true_and]

/-- Settles O23: j = 16 and 17 designate the two immediates, and R91 gives both the same three cases. -/
theorem immediateOperands : Obligations.ImmediateOperands := by
  intro j m s hj extend
  have hoperand : operand j m s = immediate extend m s := by
    rcases hj with rfl | rfl
    · exact operand_u rfl
    · exact operand_xu rfl
  rw [hoperand]
  exact ⟨immediate_of_x_zero extend s, immediate_of_indirect extend s, immediate_of_indexed extend s⟩

/-! ### Operands -/

/-- Settles O24: the operand is what `partRead` answers at U, in the state that the forming of U leaves. -/
theorem operandAccesses : Obligations.OperandAccesses := by
  intro j m s s1 p u hp hu
  have hs := effAddr_ok hu
  have hoperand : operand j m s = partRead p u s1 := by rw [operand_part hp, hu, Res.bind_ok]
  rw [hoperand, ← hs.mem, ← hs.cfg]
  refine ⟨hs, fun hreg hw => ?_, fun hreg hw => ?_, fun hlow hword => ?_, fun hlow hword => ?_⟩
  · exact partRead_eq_ok.2 ⟨fun h => h.2 hw, _, opRead_reg (decide_eq_true hreg), by rw [hw]; rfl⟩
  · exact partRead_eq_refused.2 ⟨⟨decide_eq_true hreg, hw⟩, rfl⟩
  · have hr : isRegAddr u = false := decide_eq_false hlow.not_gt
    exact partRead_eq_ok.2 ⟨by simp [hr], _, opRead_storage hr (decide_eq_true hword), rfl⟩
  · exact partRead_eq_raised.2 ⟨decide_eq_false hlow.not_gt, decide_eq_false hword.not_gt, rfl⟩

end Sys2Proof.Machine
end

section
/-! What stops an instruction at its operand (30_encoding.md R93, R95, R97): the refusal of an incremented own index
register, of indirect addressing on a repeated instruction, and the stores that are refused or fault. Each table of
instructions is tied once to the shared operation that its entries begin with. -/

namespace Sys2Proof.Machine

variable {j a : BitVec 4} {m : Xhiu} {s : State}

/-! ### The operation that each class of instructions begins with -/

theorem Res.toNext_bind {α β : Type} (r : Res α) (k : α → State → Res β) (n : β → State → State) :
    (r.bind k).toNext n = r.andThen fun v s1 => (k v s1).toNext n := by
  cases r <;> rfl

/-- Each of the 39 reads its operand before anything else, and goes on with its value. -/
theorem exec_operandInstr {c : Instr × List RegAddr} (hc : c ∈ operandInstrs j a m) (s : State) :
    ∃ k, exec c.1 s = (ownOperand c.2 j m s).andThen k := by
  revert c
  simp only [operandInstrs, List.forall_mem_cons, List.not_mem_nil, false_implies, implies_true, and_true]
  and_intros
  all_goals exact ⟨_, rfl⟩

/-- JGD's register as a number (R230). -/
theorem jgdReg_eq (j a : BitVec 4) : jgdReg j a = BitVec.ofNat 7 (j.toNat * 16 + a.toNat) := by
  revert j a; decide

/-- Each of the instructions that form an address forms it before anything else, and goes on with it. -/
theorem exec_addressInstr {c : Instr × List RegAddr} (hc : c ∈ addressInstrs j a m) (s : State) :
    ∃ k, exec c.1 s = (ownAddr c.2 m s).andThen k := by
  revert c
  simp only [addressInstrs, ← jgdReg_eq, List.forall_mem_cons, List.not_mem_nil, false_implies, implies_true, and_true]
  simp only [exec, execDa, execDan, execDl, execDln, execDlm, execDte, doubleLoad, doubleOperand, execDs, execAh,
    execAnh, execAt, execAnt, addParts, Res.toNext_bind]
  and_intros
  all_goals exact ⟨_, rfl⟩

theorem exec_registerStore {c : Instr × List RegAddr × (State → Word)} (hc : c ∈ registerStores j a m) (s : State) :
    exec c.1 s = storeValue c.2.1 j m c.2.2 s := by
  revert c
  simp only [registerStores, List.forall_mem_cons, List.not_mem_nil, false_implies, implies_true, and_true,
    ← onesNeg_eq_not]
  and_intros
  all_goals rfl

theorem exec_constantStore {c : Instr × Word} (hc : c ∈ constantStores j m) (s : State) :
    exec c.1 s = storeConst j m c.2 s := by
  revert c
  simp only [constantStores, List.forall_mem_cons, List.not_mem_nil, false_implies, implies_true, and_true]
  and_intros
  all_goals rfl

theorem exec_arithmeticStore {c : Instr × BitVec 4 × Word} (hc : c ∈ arithmeticStores j a m) (s : State) :
    exec c.1 s = f05Arith c.2.1 j m c.2.2 s := by
  revert c
  simp only [arithmeticStores, List.forall_mem_cons, List.not_mem_nil, false_implies, implies_true, and_true]
  and_intros
  all_goals rfl

/-- The fourteen searches are `search`, whatever their operands and conditions. -/
theorem exec_search {s0 : State} {c : Instr × List RegAddr × (Word → Bool)}
    (hc : c ∈ plainSearches j a m s0 ++ maskedSearches a m s0) (s : State) :
    ∃ next cond, exec c.1 s = search c.2.1 m next cond s := by
  revert c
  simp only [plainSearches, maskedSearches, List.cons_append, List.nil_append, List.forall_mem_cons, List.not_mem_nil,
    false_implies, implies_true, and_true]
  and_intros
  all_goals exact ⟨_, _, rfl⟩

/-! ### The instruction's own index register (R97) -/

theorem ownAddr_of {own : List RegAddr} (h : UsesOwn own m) : ownAddr own m s = .refused (.ownIndexIncrement s) := by
  rw [ownAddr, checkOwn_of h, Res.bind_refused]

theorem search_of {own : List RegAddr} (next : State → Res Word) (cond : Word → State → Bool) (hi : m.i = false)
    (h : UsesOwn own m) : search own m next cond s = .refused (.ownIndexIncrement s) := by
  rw [search, if_neg (by simp [hi]), checkOwn_of h, Res.andThen_refused]

/-- j = 00 to 15 designates a partial word. -/
theorem designate_of_le (qw : Bool) (hj : j.toNat ≤ 0o15) : ∃ p, designate qw j = .part p := by
  have hnot : ∀ (qw : Bool) (j : BitVec 4), j.toNat ≤ 0o15 → designate qw j ≠ .u ∧ designate qw j ≠ .xu := by decide
  cases h : designate qw j with
  | part p => exact ⟨p, rfl⟩
  | u => exact absurd h (hnot qw j hj).1
  | xu => exact absurd h (hnot qw j hj).2

theorem storeValue_part {own : List RegAddr} {v : State → Word} {p : Part} (hp : designate s.cfg.qwMode j = .part p) :
    storeValue own j m v s =
      ((ownAddr own m s).bind fun u s1 => partWrite p u (v s1) s1).toNext fun _ s1 => s1.advance := by
  rw [storeValue, storeOperand, hp]

/-- Settles O26: each class of instructions tests R97 first. -/
theorem ownIndexIncrementIsRefused : Obligations.OwnIndexIncrementIsRefused := by
  intro j a m s
  refine ⟨fun c hc hown => ?_, fun hj c hc hown => ?_, fun hi c hc hown => ?_⟩
  case refine_1 =>
    rcases List.mem_append.1 hc with hc | hc
    · obtain ⟨k, hk⟩ := exec_operandInstr hc s
      rw [hk, ownOperand_of hown, Res.andThen_refused]
    · obtain ⟨k, hk⟩ := exec_addressInstr hc s
      rw [hk, ownAddr_of hown, Res.andThen_refused]
  case refine_2 =>
    obtain ⟨p, hp⟩ := designate_of_le s.cfg.qwMode hj
    rw [exec_registerStore hc, storeValue_part hp, ownAddr_of hown, Res.bind_refused, Res.toNext_refused]
  case refine_3 =>
    obtain ⟨next, cond, hsearch⟩ := exec_search hc s
    rw [hsearch, search_of next cond hi hown]

/-! ### Indirect addressing on a repeated instruction (R93) -/

/-- Settles O43: BT and `search` test i first. -/
theorem repeatedIndirectIsRefused : Obligations.RepeatedIndirectIsRefused := by
  intro j a m s hi
  refine ⟨if_pos hi, fun c hc => ?_⟩
  obtain ⟨next, cond, hsearch⟩ := exec_search hc s
  rw [hsearch, search, if_pos hi]

/-! ### Stores that stop (R95, R119) -/

section Stores

variable {s1 : State} {p : Part} {u : Addr}

/-- With its address formed, a store is what `partWrite` answers. -/
theorem storeValue_of_effAddr {own : List RegAddr} (v : State → Word) (hp : designate s.cfg.qwMode j = .part p)
    (hown : ¬UsesOwn own m) (hu : effAddr m s = .ok u s1) :
    storeValue own j m v s = (partWrite p u (v s1) s1).toNext fun _ s2 => s2.advance := by
  rw [storeValue_part hp, ownAddr_of_not hown, hu, Res.bind_ok]

theorem f05Arith_of_effAddr (a : BitVec 4) (k : Word) (hp : designate s.cfg.qwMode j = .part p)
    (hu : effAddr m s = .ok u s1) : f05Arith a j m k s = f05At a p u k s1 := by
  rw [f05Arith, hp]
  simp only [hu, Res.andThen_ok]

theorem f05At_of_register (a : BitVec 4) (k : Word) (hr : isRegAddr u = true) (hp : p ≠ .w) :
    f05At a p u k s = .refused (.partialWordOfRegister s) := if_pos ⟨hr, hp⟩

/-- The word is read first, so the fault is that of a read. -/
theorem f05At_of_no_word (a : BitVec 4) (k : Word) (hr : isRegAddr u = false) (hw : s.hasWord u = false) :
    f05At a p u k s = .fault (storageFault .operandRead u s) := by
  rw [f05At, if_neg (by simp [hr]), opRead_eq_raised.2 ⟨hr, hw, rfl⟩, Res.andThen_raised]

end Stores

theorem not_usesOwn_nil (m : Xhiu) : ¬UsesOwn [] m := by simp [UsesOwn]

/-- Settles O29: with U formed, the register and constant stores stop as `partWrite` does, and the five of R119 as
`f05At` does. -/
theorem storesThatStop : Obligations.StoresThatStop := by
  intro j a m s s1 p u hp hu
  have hs := effAddr_ok hu
  have hregister (c) (hc : c ∈ registerStores j a m) (hown : ¬UsesOwn c.2.1 m) :
      exec c.1 s = (partWrite p u (c.2.2 s1) s1).toNext fun _ s2 => s2.advance := by
    rw [exec_registerStore hc, storeValue_of_effAddr _ hp hown hu]
  have hconstant (c) (hc : c ∈ constantStores j m) :
      exec c.1 s = (partWrite p u c.2 s1).toNext fun _ s2 => s2.advance := by
    rw [exec_constantStore hc, storeConst, storeValue_of_effAddr _ hp (not_usesOwn_nil m) hu]
  have harithmetic (c) (hc : c ∈ arithmeticStores j a m) : exec c.1 s = f05At c.2.1 p u c.2.2 s1 := by
    rw [exec_arithmeticStore hc, f05Arith_of_effAddr _ _ hp hu]
  refine ⟨hs, fun hreg hpart => ?_, fun hlow hword => ?_⟩
  case refine_1 =>
    have hr : isRegAddr u = true := decide_eq_true hreg
    have hrefused (v : Word) : partWrite p u v s1 = .refused (.partialWordOfRegister s1) :=
      partWrite_eq_refused.2 ⟨⟨hr, hpart⟩, rfl⟩
    refine ⟨fun c hc hown => ?_, fun c hc => ?_, fun c hc => ?_⟩
    · rw [hregister c hc hown, hrefused, Res.toNext_refused]
    · rw [hconstant c hc, hrefused, Res.toNext_refused]
    · rw [harithmetic c hc, f05At_of_register _ _ hr hpart]
  case refine_2 =>
    intro kind
    have hr : isRegAddr u = false := decide_eq_false hlow.not_gt
    have hw : s1.hasWord u = false := (hs.hasWord u).trans (decide_eq_false hword.not_gt)
    have hfault (v : Word) : partWrite p u v s1 = .raised (.interrupt (.storageFault u kind) s1) :=
      partWrite_eq_raised.2 ⟨hr, hw, rfl⟩
    refine ⟨fun c hc hown => ?_, fun c hc => ?_, fun c hc => ?_⟩
    · rw [hregister c hc hown, hfault, Res.toNext_raised]
    · rw [hconstant c hc, hfault, Res.toNext_raised]
    · rw [harithmetic c hc, f05At_of_no_word _ _ hr hw]
      rfl

end Sys2Proof.Machine
end

section
/-! Stores that complete, and stores to an immediate (40_store.md R95, R101 to R119): a store at an address that is
formed and storable is one `partWrite`, and so is the rewriting of an operand by the five of R119. -/

namespace Sys2Proof.Machine

variable {j a : BitVec 4} {m : Xhiu} {s s1 t t' : State} {p : Part} {u : Addr} {v : Word}

/-! ### The frame of one register, of one storage word, and of P -/

theorem State.setReg_changesOnly (s : State) (r : RegAddr) (v : Word) : ChangesOnly [r] [] s (s.setReg r v) where
  reg q hq := s.reg_setReg_ne r q v (by simpa using hq)
  word _ _ := rfl
  cfg := rfl

theorem State.setWord_changesOnly (s : State) (u : Addr) (v : Word) :
    ChangesOnly [] [u.toNat] s (s.setWord u v) where
  reg _ _ := rfl
  word _ ha := s.mem.read_write_ne v (by simpa using ha)
  cfg := rfl

/-- The frame does not look at P. -/
theorem ChangesOnly.congr {rs : List RegAddr} {ws : List Nat} (h : ChangesOnly rs ws s t)
    (hreg : ∀ r, t'.reg r = t.reg r) (hmem : t'.mem = t.mem) (hcfg : t'.cfg = t.cfg) : ChangesOnly rs ws s t' where
  reg r hr := (hreg r).trans (h.reg r hr)
  word a ha := by rw [hmem, h.word a ha]
  cfg := hcfg.trans h.cfg

/-! ### `Storable`, `wordAt` and `Stored` at a register and in storage -/

theorem storable_iff : Storable p u s ↔
    (isRegAddr u = true ∧ p = .w) ∨ (isRegAddr u = false ∧ s.hasWord u = true) := by
  unfold Storable
  split <;> simp [isRegAddr, State.hasWord, *]

theorem wordAt_reg (hr : isRegAddr u = true) : wordAt u s = s.reg (u.setWidth 7) := if_pos (of_decide_eq_true hr)

theorem wordAt_storage (hr : isRegAddr u = false) : wordAt u s = s.mem.read u.toNat :=
  if_neg (of_decide_eq_false hr)

theorem stored_reg_iff (hr : isRegAddr u = true) :
    Stored p u v s t ↔ t.reg (u.setWidth 7) = v ∧ ChangesOnly [u.setWidth 7] [] s t := by
  rw [Stored, if_pos (of_decide_eq_true hr)]

theorem stored_storage_iff (hr : isRegAddr u = false) :
    Stored p u v s t ↔ t.mem.read u.toNat = fieldPut p (s.mem.read u.toNat) v ∧ ChangesOnly [] [u.toNat] s t := by
  rw [Stored, if_neg (of_decide_eq_false hr)]

/-- What a store leaves does not depend on P. -/
theorem Stored.congr (h : Stored p u v s t) (hreg : ∀ r, t'.reg r = t.reg r) (hmem : t'.mem = t.mem)
    (hcfg : t'.cfg = t.cfg) : Stored p u v s t' := by
  cases hr : isRegAddr u with
  | true =>
    obtain ⟨hval, hframe⟩ := (stored_reg_iff hr).1 h
    exact (stored_reg_iff hr).2 ⟨(hreg _).trans hval, hframe.congr hreg hmem hcfg⟩
  | false =>
    obtain ⟨hval, hframe⟩ := (stored_storage_iff hr).1 h
    exact (stored_storage_iff hr).2 ⟨hmem ▸ hval, hframe.congr hreg hmem hcfg⟩

theorem Stored.advance (h : Stored p u v s t) : Stored p u v s t.advance :=
  h.congr t.advance_reg t.advance_mem t.advance_cfg

theorem Stored.skipIf (h : Stored p u v s t) (c : Bool) : Stored p u v s (t.skipIf c) :=
  h.congr (fun r => t.skipIf_reg r c) (t.skipIf_mem c) (t.skipIf_cfg c)

/-! ### The write at a storable address -/

theorem Storable.partWrite_ok (h : Storable p u s) (v : Word) : ∃ t, partWrite p u v s = .ok () t := by
  rcases storable_iff.1 h with ⟨hr, hp⟩ | ⟨hr, hw⟩
  · exact ⟨_, partWrite_eq_ok.2 (.inl ⟨hr, hp, rfl⟩)⟩
  · exact ⟨_, partWrite_eq_ok.2 (.inr ⟨hr, hw, rfl⟩)⟩

/-- The storage has to be in its canonical form for a write to be read back. -/
theorem partWrite_stored {x : Unit} (hs : s.mem.wf) (h : partWrite p u v s = .ok x t) : Stored p u v s t := by
  rcases partWrite_eq_ok.1 h with ⟨hr, -, rfl⟩ | ⟨hr, -, rfl⟩
  · exact (stored_reg_iff hr).2 ⟨s.reg_setReg_same _ v, s.setReg_changesOnly _ v⟩
  · exact (stored_storage_iff hr).2 ⟨Memory.read_write_same hs _ _, s.setWord_changesOnly u _⟩

/-- A write at a storable address, followed by a setting of P that keeps what is stored, completes. -/
theorem Storable.partWrite_toNext (h : Storable p u s) (hs : s.mem.wf) (v : Word) (k : State → State) :
    ∃ t, (partWrite p u v s).toNext (fun _ t => k t) = .next (k t) ∧ Stored p u v s t ∧ t.p = s.p := by
  obtain ⟨t, ht⟩ := h.partWrite_ok v
  exact ⟨t, by rw [ht, Res.toNext_ok], partWrite_stored hs ht, (partWrite_ok_p ht).1⟩

/-! ### The stores of a register or of a constant (R100, R118) -/

/-- With U formed and storable a store completes, whatever it reads its value from. -/
theorem storeValue_completes {own : List RegAddr} (v : State → Word) (hs : s.mem.wf)
    (hp : designate s.cfg.qwMode j = .part p) (hu : effAddr m s = .ok u s1) (hst : Storable p u s1)
    (hown : ¬UsesOwn own m) :
    ∃ t, storeValue own j m v s = .next t ∧ Stored p u (v s1) s1 t ∧ t.p = s.p + 1 := by
  have hmod := effAddr_ok hu
  obtain ⟨t, hnext, hstored, ht⟩ := hst.partWrite_toNext (hmod.mem ▸ hs) (v s1) State.advance
  refine ⟨t.advance, ?_, hstored.advance, ?_⟩
  · rw [storeValue_of_effAddr v hp hown hu, hnext]
  · rw [State.advance_p, ht, hmod.p]

/-- Settles O27: the five are `storeValue`, which writes the value that the state after the address gives. -/
theorem registerStoresWriteTheOperand : Obligations.RegisterStoresWriteTheOperand := by
  intro j a m s s1 p u hs hp hu hst
  refine ⟨effAddr_ok hu, fun c hc hown => ?_⟩
  rw [exec_registerStore hc]
  exact storeValue_completes c.2.2 hs hp hu hst hown

/-- Settles O28: the seven are `storeValue` of a constant function, and use no register through their a field. -/
theorem constantStoresWriteTheOperand : Obligations.ConstantStoresWriteTheOperand := by
  intro j m s s1 p u hs hp hu hst
  refine ⟨effAddr_ok hu, fun c hc => ?_⟩
  rw [exec_constantStore hc]
  exact storeValue_completes (fun _ => c.2) hs hp hu hst (not_usesOwn_nil m)

/-! ### The arithmetic of f = 05 (R119) -/

theorem Storable.opRead_ok (h : Storable p u s) : opRead u s = .ok (wordAt u s) s := by
  rcases storable_iff.1 h with ⟨hr, -⟩ | ⟨hr, hw⟩
  · rw [opRead_reg hr, wordAt_reg hr]
  · rw [opRead_storage hr hw, wordAt_storage hr]

/-- To write back the word with its field replaced is to store the field, at a register (the whole word) as in
storage. -/
theorem Storable.opWrite_fieldPut (h : Storable p u s) (v : Word) :
    opWrite u (fieldPut p (wordAt u s) v) s = partWrite p u v s := by
  rcases storable_iff.1 h with ⟨hr, rfl⟩ | ⟨hr, hw⟩
  · exact (if_pos rfl).symm
  · rw [opWrite_storage hr hw, wordAt_storage hr, partWrite_eq_ok.2 (.inr ⟨hr, hw, rfl⟩)]

/-- At a storable address the five are a store of the sum with the field's old value, and a skip decided by both. -/
theorem Storable.f05At_eq (h : Storable p u s) (a : BitVec 4) (k : Word) :
    f05At a p u k s = (partWrite p u (onesAdd (fieldGet p (wordAt u s)) k) s).toNext fun _ t =>
      t.skipIf (Config.f05Skip a (fieldGet p (wordAt u s)) (onesAdd (fieldGet p (wordAt u s)) k)) := by
  have hpart : ¬(isRegAddr u = true ∧ p ≠ .w) := by
    rcases storable_iff.1 h with ⟨-, hp⟩ | ⟨hr, -⟩
    · exact fun hn => hn.2 hp
    · simp [hr]
  rw [f05At, if_neg hpart, h.opRead_ok, Res.andThen_ok, h.opWrite_fieldPut]

/-- Settles O31: the five are `f05At` at U, which is a store of the sum and a skip. -/
theorem f05ArithmeticAddsToTheOperand : Obligations.F05ArithmeticAddsToTheOperand := by
  intro j a m s s1 p u hs hp hu hst
  have hmod := effAddr_ok hu
  refine ⟨hmod, fun c hc => ?_⟩
  intro old new
  obtain ⟨t, hnext, hstored, ht⟩ :=
    hst.partWrite_toNext (hmod.mem ▸ hs) new fun t => t.skipIf (Config.f05Skip c.2.1 old new)
  refine ⟨t.skipIf (Config.f05Skip c.2.1 old new), ?_, hstored.skipIf _, ?_⟩
  · rw [exec_arithmeticStore hc, f05Arith_of_effAddr _ _ hp hu, hst.f05At_eq, hnext]
  · rw [State.skipIf_p, ht, hmod.p]

/-! ### Stores to an immediate (R95, R118, R119) -/

/-- j = 16 and 17 designate the immediates under both settings of `QWMODE`. -/
theorem designate_of_immediate (qw : Bool) (hj : 0o16 ≤ j.toNat) : designate qw j = .u ∨ designate qw j = .xu := by
  revert qw j; decide

theorem storeConst_of_immediate (v : Word) (hj : 0o16 ≤ j.toNat) :
    storeConst j m v s = .refused (.storeToImmediate s) := by
  rcases designate_of_immediate s.cfg.qwMode hj with hd | hd <;>
    rw [storeConst, storeValue, storeOperand, hd, Res.toNext_refused]

theorem f05Arith_of_immediate (a : BitVec 4) (k : Word) (hj : 0o16 ≤ j.toNat) :
    f05Arith a j m k s = .refused (.storeToImmediate s) := by
  rcases designate_of_immediate s.cfg.qwMode hj with hd | hd <;> rw [f05Arith, hd]

/-- Settles O30: the seven are `storeConst` and the five `f05Arith`, and both refuse an immediate. -/
theorem f05ImmediateIsRefused : Obligations.F05ImmediateIsRefused := by
  intro j a m s hj
  refine ⟨fun c hc => ?_, fun c hc => ?_⟩
  · rw [exec_constantStore hc, storeConst_of_immediate _ hj]
  · rw [exec_arithmeticStore hc, f05Arith_of_immediate _ _ hj]

end Sys2Proof.Machine
end

section
/-! The instructions that the source lists without semantics: the bank and PSR instructions of f = 07 (41_bank_psr.md
R121 to R125) and SRS and LRS of f = 72 (49_f72.md R249, R250). Each refuses before it forms an address. -/

namespace Sys2Proof.Machine

/-- LDJ, LIJ and LPD (R121 to R123), SRS and LRS (R249, R250), each with its mnemonic. -/
def instrsWithoutSemantics (a : BitVec 4) (m : Xhiu) : List (Instr × String) :=
  [(.ldj a m, "LDJ"), (.lij a m, "LIJ"), (.lpd a m, "LPD"), (.srs a m, "SRS"), (.lrs a m, "LRS")]

theorem exec_instrWithoutSemantics {a : BitVec 4} {m : Xhiu} {c : Instr × String}
    (hc : c ∈ instrsWithoutSemantics a m) (s : State) : exec c.1 s = .refused (.noSemanticsInSource c.2 s) := by
  revert c
  simp only [instrsWithoutSemantics, List.forall_mem_cons, List.not_mem_nil, false_implies, implies_true, and_true]
  and_intros
  all_goals rfl

/-- Settles O60: five refuse under their own mnemonics, and SPD and LBJ as the two names of one code (O4). -/
theorem instructionsWithoutSemanticsRefuse : Obligations.InstructionsWithoutSemanticsRefuse := by
  intro a m s
  obtain ⟨hshared, -⟩ := lbjHasTheCodeOfSpd
  obtain ⟨-, -, hrefuse⟩ := hshared a m
  exact ⟨fun _ hc => exec_instrWithoutSemantics hc s, hrefuse s⟩

end Sys2Proof.Machine
end

section
/-! Loads, sums and logical results in one register (42_load_add.md R131 to R146, 45_logical.md R190 to R197), and where
an instruction that reads an operand stops. LA to ANU, LR to LX, OR to MLU and XLI are one operation, `registerLoad`: the
operand is read, one register is written with a word made of it, and P goes one further. -/

namespace Sys2Proof.Machine

variable {j a : BitVec 4} {m : Xhiu} {s s1 : State} {v : Word}

/-! ### Where the operand stops -/

/-- The ways an operand is refused. -/
theorem operand_refused {r : Refusal} (h : operand j m s = .refused r) :
    ∃ t, OnlyModifiers s t ∧
      (r = .indirectWordAtGrs t ∨ r = .partialWordOfRegister t ∨ r = .immediateIndexedIndirect t) := by
  unfold operand at h
  split at h
  · rcases Res.bind_eq_refused.1 h with h | ⟨u, s1, hu, hr⟩
    · obtain ⟨t, ht, e⟩ := effAddr_refused h
      exact ⟨t, ht, .inl e⟩
    · obtain ⟨-, e⟩ := partRead_eq_refused.1 hr
      exact ⟨s1, effAddr_ok hu, .inr (.inl e)⟩
  all_goals
    obtain ⟨-, e⟩ := immediate_eq_refused.1 h
    exact ⟨s, .refl s, .inr (.inr e)⟩

theorem operand_raised_state {e : Event} {t : State} (h : operand j m s = .raised (.interrupt e t)) :
    OnlyModifiers s t := by
  rcases operand_raised h with hendless | ⟨k, u, t', -, ht, -, -, hfault⟩
  · cases hendless
  · cases hfault; exact ht

theorem operand_refused_state {r : Refusal} {t : State} (h : operand j m s = .refused r) (ht : r.state = some t) :
    OnlyModifiers s t := by
  obtain ⟨t', hmod, rfl | rfl | rfl⟩ := operand_refused h
  all_goals
    cases ht
    exact hmod

/-- Settles O25: each of the 39 begins with its operand, so it stops where the operand does. -/
theorem operandStopsEndTheInstruction : Obligations.OperandStopsEndTheInstruction := by
  intro j a m s c hc hown
  obtain ⟨k, hk⟩ := exec_operandInstr hc s
  rw [hk, ownOperand_of_not hown]
  refine ⟨fun f hf => ⟨?_, ?_⟩, fun r hr => ⟨?_, fun t ht => operand_refused_state hr ht⟩⟩
  · rw [hf, Res.andThen_raised]
  · rintro e t rfl
    exact operand_raised_state hf
  · rw [hr, Res.andThen_refused]

/-! ### One register written with a word made of the operand -/

/-- The operand `v` is read, the register `r` gets `f v s1` where `s1` is the state that the forming of the operand left,
and P goes one further (R130, R190). -/
def registerLoad (own : List RegAddr) (r : RegAddr) (j : BitVec 4) (m : Xhiu) (f : Word → State → Word) (s : State) :
    Answer :=
  loadWith own j m (fun v s1 => s1.setReg r (f v s1)) s

/-- A readable operand is enough for the instruction to complete. -/
theorem registerLoad_completes {own : List RegAddr} (ho : operand j m s = .ok v s1) (hown : ¬UsesOwn own m)
    (r : RegAddr) (f : Word → State → Word) :
    ∃ t, registerLoad own r j m f s = .next t ∧ t.reg r = f v s1 ∧ ChangesOnly [r] [] s1 t ∧ t.p = s.p + 1 := by
  refine ⟨(s1.setReg r (f v s1)).advance, loadWith_next.2 ⟨v, s1, hown, ho, rfl⟩, s1.reg_setReg_same r _, ?_, ?_⟩
  · exact (s1.setReg_changesOnly r _).congr (State.advance_reg _) rfl rfl
  · rw [State.advance_p, State.setReg_p, (operand_ok ho).p]

/-- AU, ANU and the logical instructions keep `A[a]` (R139, R190). -/
theorem registerLoad_next_completes (ho : operand j m s = .ok v s1) (hown : ¬UsesOwn [aReg a, aReg1 a] m)
    (f : Word → State → Word) :
    ∃ t, registerLoad [aReg a, aReg1 a] (aReg1 a) j m f s = .next t ∧ t.reg (aReg1 a) = f v s1 ∧
      ChangesOnly [aReg1 a] [] s1 t ∧ t.reg (aReg a) = s1.reg (aReg a) ∧ t.p = s.p + 1 := by
  obtain ⟨t, hnext, hreg, hframe, hp⟩ := registerLoad_completes ho hown (aReg1 a) f
  have hkept : aReg a ∉ [aReg1 a] := by simpa using (aReg1_ne_aReg a).symm
  exact ⟨t, hnext, hreg, hframe, hframe.reg _ hkept, hp⟩

/-- Of the magnitude of `w` and its complement, the one with the sign bit set is the negative magnitude. -/
theorem onesNeg_onesMag {n : Nat} (w : BitVec n) : onesNeg (onesMag w) = if w.msb then w else onesNeg w := by
  cases h : w.msb <;> simp [onesMag, onesNeg_eq_not, h]

/-! ### The four statements -/

/-- Settles O32: the four are `registerLoad` of the operand alone. -/
theorem loadsOfA : Obligations.LoadsOfA := by
  intro j a m s s1 v ho hown
  refine ⟨operand_ok ho, ?_⟩
  have hload := registerLoad_completes ho hown (aReg a)
  simp only [← onesNeg_eq_not, ← onesNeg_onesMag, List.forall_mem_cons, List.not_mem_nil, false_implies, implies_true,
    and_true]
  exact ⟨hload fun v _ => v, hload fun v _ => onesNeg v, hload fun v _ => onesMag v,
    hload fun v _ => onesNeg (onesMag v)⟩

/-- Settles O33: the four are `registerLoad` of a sum with `A[a]`, read after the operand is formed. -/
theorem addsToA : Obligations.AddsToA := by
  intro j a m s s1 v ho hown
  refine ⟨operand_ok ho, ?_⟩
  intro w
  have hsum (g : Word → Word) :=
    registerLoad_completes ho hown (aReg a) fun v s1 => onesAdd (s1.reg (aReg a)) (g v)
  simp only [← onesNeg_eq_not, ← onesNeg_onesMag, List.forall_mem_cons, List.not_mem_nil, false_implies, implies_true,
    and_true]
  exact ⟨hsum id, hsum onesNeg, hsum onesMag, hsum fun v => onesNeg (onesMag v)⟩

/-- Settles O34: the six are `registerLoad` into `A[a+1]` of a word made of `A[a]`, the operand and, for MLU, the
mask. -/
theorem resultsInTheNextA : Obligations.ResultsInTheNextA := by
  intro j a m s s1 v ho hown
  refine ⟨operand_ok ho, ?_⟩
  intro w k
  have hresult (g : Word → Word → State → Word) :=
    registerLoad_next_completes ho hown fun v s1 => g (s1.reg (aReg a)) v s1
  simp only [← onesNeg_eq_not v, List.forall_mem_cons, List.not_mem_nil, false_implies, implies_true, and_true]
  exact ⟨hresult fun w v _ => onesAdd w v, hresult fun w v _ => onesAdd w (onesNeg v), hresult fun w v _ => w ||| v,
    hresult fun w v _ => w ^^^ v, hresult fun w v _ => w &&& v,
    hresult fun w v s1 => (v &&& s1.mask) ||| (w &&& ~~~s1.mask)⟩

/-- Settles O35: LR writes `R[a]` and the others `X[a]`, each by `registerLoad`; LXM and XLI keep one half of what
`X[a]` holds after the operand is formed. -/
theorem loadsOfXAndR : Obligations.LoadsOfXAndR := by
  intro j a m s s1 v ho
  refine ⟨operand_ok ho, ?_⟩
  intro x
  have hload (r : RegAddr) (f : Word → State → Word) (hown : ¬UsesOwn [r] m) :=
    registerLoad_completes ho hown r f
  simp only [← onesNeg_eq_not v, List.forall_mem_cons, List.not_mem_nil, false_implies, implies_true, and_true]
  exact ⟨hload (rReg a) fun v _ => v, hload (xReg a) fun v _ => v,
    hload (xReg a) fun v s1 => onesAdd (s1.reg (xReg a)) v,
    hload (xReg a) fun v s1 => onesAdd (s1.reg (xReg a)) (onesNeg v),
    hload (xReg a) fun v s1 => ofHalves (s1.increment a) (lowHalf v),
    hload (xReg a) fun v s1 => ofHalves (lowHalf v) (s1.modifier a)⟩

end Sys2Proof.Machine
end

section
/-! Block transfer (42_load_add.md R141). BT obeys one recursion equation (`exec_bt_succ`): move a word, increment, count
down, and do BT again. A repetition, a whole transfer and the copying of a block are read off from it. -/

namespace Sys2Proof.Machine

variable {j a : BitVec 4} {m : Xhiu} {s s1 t : State} {p : Part} {n : Nat}

/-! ### BT by its own recursion -/

theorem exec_bt (a : BitVec 4) (hi : m.i = false) (hp : designate s.cfg.qwMode j = .part p) :
    exec (.bt j a m) s = btLoop p a m s.repeatCount.toNat s := by
  change execBt j a m s = _
  rw [execBt, if_neg (by simp [hi]), hp]

theorem exec_bt_zero (a : BitVec 4) (hi : m.i = false) (hp : designate s.cfg.qwMode j = .part p)
    (hzero : s.repeatCount = 0) : exec (.bt j a m) s = .next s.advance := by
  rw [exec_bt a hi hp, hzero]
  rfl

/-- A move leaves P and the parameters. -/
theorem btMove_inPlace {x : Unit} (h : btMove p a m s = .ok x s1) : InPlace s s1 := by
  obtain ⟨-, w, -, hw⟩ := btMove_eq_ok.1 h
  exact partWrite_inPlace hw

theorem toNat_sub_one_of_ne_zero {c : BitVec 18} (h : c ≠ 0) : (c - 1).toNat + 1 = c.toNat := by
  bv_omega

/-- One repetition of BT, and BT again from the state after it. -/
theorem exec_bt_succ (a : BitVec 4) (hi : m.i = false) (hp : designate s.cfg.qwMode j = .part p)
    (hcount : s.repeatCount ≠ 0) : exec (.bt j a m) s = (btMove p a m s).andThen fun _ s1 =>
      exec (.bt j a m) ((btIndex a m s1).setRepeatCount (s.repeatCount - 1)) := by
  rw [exec_bt a hi hp, ← toNat_sub_one_of_ne_zero hcount, btLoop]
  cases hmove : btMove p a m s with
  | ok x s1 =>
    have hp1 : designate ((btIndex a m s1).setRepeatCount (s.repeatCount - 1)).cfg.qwMode j = .part p := by
      rw [State.setRepeatCount_cfg, btIndex_cfg, (btMove_inPlace hmove).cfg, hp]
    rw [Res.andThen_ok, Res.andThen_ok, exec_bt a hi hp1, State.repeatCount_setRepeatCount, BitVec.ofNat_toNat,
      BitVec.setWidth_eq]
  | raised f => rfl
  | refused f => rfl

/-! ### One move -/

/-- The state after `v` is stored in the partial word `p` at U (R56, R95). -/
def afterStore (p : Part) (u : Addr) (v : Word) (s : State) : State :=
  if u.toNat < 0o200 then s.setReg (u.setWidth 7) v else s.setWord u (fieldPut p (s.mem.read u.toNat) v)

theorem Storable.partWrite_eq {u : Addr} (h : Storable p u s) (v : Word) :
    partWrite p u v s = .ok () (afterStore p u v s) := by
  rw [partWrite_eq_ok, afterStore]
  rcases storable_iff.1 h with ⟨hr, hp⟩ | ⟨hr, hw⟩
  · exact .inl ⟨hr, hp, if_pos (of_decide_eq_true hr)⟩
  · exact .inr ⟨hr, hw, if_neg (of_decide_eq_false hr)⟩

theorem btMove_of_register (hreg : isRegAddr (indexSum m s) = true ∨ isRegAddr (btTarget a m s) = true) (hp : p ≠ .w) :
    btMove p a m s = .refused (.partialWordOfRegister s) := if_pos ⟨hreg, hp⟩

/-- A move that is not of a part of a register is a read and a store. -/
theorem btMove_eq_bind (h : p = .w ∨ (isRegAddr (indexSum m s) = false ∧ isRegAddr (btTarget a m s) = false)) :
    btMove p a m s =
      (opRead (indexSum m s) s).bind fun w s1 => partWrite p (btTarget a m s) (fieldGet p w) s1 := by
  refine if_neg ?_
  rcases h with hp | ⟨hsrc, hdst⟩
  · simp [hp]
  · simp [hsrc, hdst]

/-- With the source readable, what is left of a move is the store. -/
theorem btMove_of_source (h : p = .w ∨ (isRegAddr (indexSum m s) = false ∧ isRegAddr (btTarget a m s) = false))
    (hsrc : Storable p (indexSum m s) s) : btMove p a m s =
      partWrite p (btTarget a m s) (fieldGet p (wordAt (indexSum m s) s)) s := by
  rw [btMove_eq_bind h, hsrc.opRead_ok, Res.bind_ok]

theorem storable_of_inRange {u : Addr} (hpart : p = .w ∨ 0o200 ≤ u.toNat)
    (hu : u.toNat < 0o200 ∨ u.toNat < s.cfg.memWords) : Storable p u s := by
  unfold Storable
  split
  · next hlow => exact hpart.resolve_right hlow.not_ge
  · next hlow => exact hu.resolve_left hlow

/-! ### Incrementation and count -/

theorem btIndex_eq (a : BitVec 4) (m : Xhiu) (s : State) : btIndex a m s =
    if m.h = false then s
    else if m.x = a ∨ m.x = 0 then s.bumpIndex a else (s.bumpIndex m.x).bumpIndex a := by
  unfold btIndex
  cases m.h <;> rfl

/-! ### The statements about a repetition and about a whole transfer -/

/-- Settles O44: the recursion equation, with the move refused, faulting at its source or at its destination, or
done. -/
theorem blockTransferRepetition : Obligations.BlockTransferRepetition := by
  intro j a m s p hi hp src dst v moved stepped
  have hsum : indexSum m s = src := rfl
  have htarget : btTarget a m s = dst := rfl
  have hstepped : stepped = btIndex a m moved := (btIndex_eq a m moved).symm
  refine ⟨exec_bt_zero a hi hp, fun hcount => ?_⟩
  rw [exec_bt_succ a hi hp hcount, hstepped]
  refine ⟨fun hreg hw => ?_, fun hpart => ?_⟩
  · have hreg' : isRegAddr src = true ∨ isRegAddr dst = true := hreg.imp decide_eq_true decide_eq_true
    rw [btMove_of_register hreg' hw, Res.andThen_refused]
  have hpart' : p = .w ∨ (isRegAddr src = false ∧ isRegAddr dst = false) :=
    hpart.imp id fun ⟨hs, hd⟩ => ⟨decide_eq_false hs.not_gt, decide_eq_false hd.not_gt⟩
  refine ⟨fun hlow hword => ?_, fun hsrc hlow hword => ?_, fun hsrc hdst => ?_⟩
  case refine_1 =>
    have hread : opRead src s = .raised (storageFault .operandRead src s) :=
      opRead_eq_raised.2 ⟨decide_eq_false hlow.not_gt, decide_eq_false hword.not_gt, rfl⟩
    rw [btMove_eq_bind hpart', hsum, hread, Res.bind_raised, Res.andThen_raised]
    rfl
  case refine_2 =>
    have hsrc' : Storable p src s := storable_of_inRange (hpart.imp id And.left) hsrc
    have hwrite (w : Word) : partWrite p dst w s =
        .raised (storageFault (if p = .w then .operandWrite else .operandRead) dst s) :=
      partWrite_eq_raised.2 ⟨decide_eq_false hlow.not_gt, decide_eq_false hword.not_gt, rfl⟩
    rw [btMove_of_source hpart' hsrc', htarget, hwrite, Res.andThen_raised]
    rfl
  case refine_3 =>
    have hsrc' : Storable p src s := storable_of_inRange (hpart.imp id And.left) hsrc
    have hdst' : Storable p dst s := storable_of_inRange (hpart.imp id And.right) hdst
    rw [btMove_of_source hpart' hsrc', htarget, hdst'.partWrite_eq, Res.andThen_ok]
    rfl

/-- As many moves as the count says, one after the other, are a whole BT. -/
theorem exec_bt_of_transfers (hi : m.i = false) (hp : designate s.cfg.qwMode j = .part p) (h : Transfers p a m n s t)
    (hn : s.repeatCount.toNat = n) : exec (.bt j a m) s = .next t.advance ∧ t.repeatCount = 0 ∧ InPlace s t := by
  induction h with
  | zero s =>
    have hzero : s.repeatCount = 0 := BitVec.eq_of_toNat_eq hn
    exact ⟨exec_bt_zero a hi hp hzero, hzero, (OnlyModifiers.refl s).inPlace⟩
  | @succ n s s1 t hmove rest ih =>
    have hcount : s.repeatCount ≠ 0 := fun h => by simp [h] at hn
    have hleft := toNat_sub_one_of_ne_zero hcount
    have hnext : InPlace s ((btIndex a m s1).setRepeatCount (s.repeatCount - 1)) :=
      (btMove_inPlace hmove).trans ⟨.of_mem_eq (btIndex_mem a m s1) (btIndex_cfg a m s1), btIndex_p a m s1⟩
    obtain ⟨hexec, hzero, hrest⟩ := ih (by rw [hnext.cfg, hp]) (by rw [State.repeatCount_setRepeatCount]; omega)
    exact ⟨by rw [exec_bt_succ a hi hp hcount, hmove, Res.andThen_ok, hexec], hzero, hnext.trans hrest⟩

/-- Settles O45, by induction on the repetitions. -/
theorem blockTransferCompletes : Obligations.BlockTransferCompletes := by
  intro j a m s t p hi hp h
  obtain ⟨hexec, hzero, hkept⟩ := exec_bt_of_transfers hi hp h rfl
  exact ⟨hexec, hzero, hkept.p, hkept.cfg⟩

end Sys2Proof.Machine
end

section
/-! The copying of a block by BT with whole words and increments of 1 (42_load_add.md R141). Below 2^18 - 1 no carry comes
round, so the two addresses run through the two blocks as natural numbers; as the blocks do not overlap, a word of the
source is still the old one when its turn comes. -/

namespace Sys2Proof.Machine

variable {a : BitVec 4} {m : Xhiu} {s t : State} {n : Nat}

/-! ### Index registers -/

theorem xReg_inj {k l : BitVec 4} : xReg k = xReg l ↔ k = l := by
  refine ⟨fun h => BitVec.eq_of_toNat_eq ?_, congrArg xReg⟩
  simpa only [xReg_toNat] using congrArg BitVec.toNat h

theorem State.modifier_bumpIndex_ne (s : State) {k l : BitVec 4} (h : l ≠ k) :
    (s.bumpIndex k).modifier l = s.modifier l :=
  congrArg lowHalf (s.reg_bumpIndex_ne _ k (xReg_inj.not.2 h))

@[simp] theorem State.modifier_setRepeatCount (s : State) (c : BitVec 18) (k : BitVec 4) :
    (s.setRepeatCount c).modifier k = s.modifier k :=
  congrArg lowHalf (s.reg_setRepeatCount_ne _ c (xReg_ne_rReg k 1))

@[simp] theorem State.increment_setRepeatCount (s : State) (c : BitVec 18) (k : BitVec 4) :
    (s.setRepeatCount c).increment k = s.increment k :=
  congrArg highHalf (s.reg_setRepeatCount_ne _ c (xReg_ne_rReg k 1))

theorem toNat_onesAdd_of_lt {n : Nat} {v w : BitVec n} (h : v.toNat + w.toNat < 2 ^ n - 1) :
    (onesAdd v w).toNat = v.toNat + w.toNat := by
  rw [toNat_onesAdd, if_pos h]

/-! ### The two blocks -/

/-- The address of the next word of the source, as a number. -/
def sourceStart (m : Xhiu) (s : State) : Nat := m.u.toNat + (s.modifier m.x).toNat

/-- The address of the next word of the destination, as a number. -/
def targetStart (a : BitVec 4) (m : Xhiu) (s : State) : Nat := m.u.toNat + (s.modifier a).toNat

theorem toNat_offset (u : BitVec 16) : (u.setWidth 18).toNat = u.toNat :=
  BitVec.toNat_setWidth_of_le (by decide)

theorem toNat_indexSum (hx : m.x ≠ 0) (h : sourceStart m s < 2 ^ 18 - 1) :
    (indexSum m s).toNat = sourceStart m s := by
  rw [sourceStart, ← toNat_offset] at h ⊢
  rw [indexSum, if_neg hx, toNat_onesAdd_of_lt h]

theorem toNat_btTarget (h : targetStart a m s < 2 ^ 18 - 1) : (btTarget a m s).toNat = targetStart a m s := by
  rw [targetStart, ← toNat_offset] at h ⊢
  rw [btTarget, toNat_onesAdd_of_lt h]

/-- The states from which a block of `n` words can be copied: it lies in main storage on both sides, and the two sides
do not overlap. -/
structure Copyable (a : BitVec 4) (m : Xhiu) (n : Nat) (s : State) : Prop where
  wf : s.wf
  count : s.repeatCount.toNat = n
  incrementX : s.increment m.x = 1
  incrementA : s.increment a = 1
  sourceLow : 0o200 ≤ sourceStart m s
  targetLow : 0o200 ≤ targetStart a m s
  sourceFits : sourceStart m s + n ≤ s.cfg.memWords
  targetFits : targetStart a m s + n ≤ s.cfg.memWords
  sourceBelow : sourceStart m s + n < 2 ^ 18 - 1
  targetBelow : targetStart a m s + n < 2 ^ 18 - 1
  apart : sourceStart m s + n ≤ targetStart a m s ∨ targetStart a m s + n ≤ sourceStart m s

/-- `t` is `s` after `n` words are copied, P and the count aside. -/
structure Copied (a : BitVec 4) (m : Xhiu) (n : Nat) (s t : State) : Prop where
  word : ∀ k < n, t.mem.read (targetStart a m s + k) = s.mem.read (sourceStart m s + k)
  frame : ∀ b, b < targetStart a m s ∨ targetStart a m s + n ≤ b → t.mem.read b = s.mem.read b
  modifierX : (t.modifier m.x).toNat = (s.modifier m.x).toNat + n
  modifierA : (t.modifier a).toNat = (s.modifier a).toNat + n
  increment : ∀ k, t.increment k = s.increment k
  upper : highHalf (t.reg (rReg 1)) = highHalf (s.reg (rReg 1))
  reg : ∀ r, r ≠ xReg m.x → r ≠ xReg a → r ≠ rReg 1 → t.reg r = s.reg r

/-! ### One word -/

/-- The state after one word is copied, both modifiers are incremented and the count is one less. -/
def copyOne (a : BitVec 4) (m : Xhiu) (s : State) : State :=
  (((s.setWord (btTarget a m s) (s.mem.read (indexSum m s).toNat)).bumpIndex m.x).bumpIndex a).setRepeatCount
    (s.repeatCount - 1)

@[simp] theorem copyOne_mem : (copyOne a m s).mem =
    s.mem.write (btTarget a m s).toNat (s.mem.read (indexSum m s).toNat) := rfl

@[simp] theorem copyOne_cfg : (copyOne a m s).cfg = s.cfg := rfl

@[simp] theorem copyOne_increment (k : BitVec 4) : (copyOne a m s).increment k = s.increment k := by
  simp only [copyOne, State.increment_setRepeatCount, State.increment_bumpIndex]
  rfl

theorem copyOne_modifierX (hxa : m.x ≠ a) :
    (copyOne a m s).modifier m.x = onesAdd (s.modifier m.x) (s.increment m.x) := by
  rw [copyOne, State.modifier_setRepeatCount, State.modifier_bumpIndex_ne _ hxa, State.modifier_bumpIndex]
  rfl

theorem copyOne_modifierA (hxa : m.x ≠ a) :
    (copyOne a m s).modifier a = onesAdd (s.modifier a) (s.increment a) := by
  rw [copyOne, State.modifier_setRepeatCount, State.modifier_bumpIndex, State.increment_bumpIndex,
    State.modifier_bumpIndex_ne _ hxa.symm]
  rfl

theorem copyOne_reg {r : RegAddr} (hx : r ≠ xReg m.x) (ha : r ≠ xReg a) (hr : r ≠ rReg 1) :
    (copyOne a m s).reg r = s.reg r := by
  rw [copyOne, State.reg_setRepeatCount_ne _ _ _ hr, State.reg_bumpIndex_ne _ _ _ ha,
    State.reg_bumpIndex_ne _ _ _ hx, State.setWord_reg]

theorem copyOne_upper : highHalf ((copyOne a m s).reg (rReg 1)) = highHalf (s.reg (rReg 1)) := by
  rw [copyOne, State.setRepeatCount, State.reg_setReg_same, highHalf_ofHalves,
    State.reg_bumpIndex_ne _ _ _ (xReg_ne_rReg _ _).symm, State.reg_bumpIndex_ne _ _ _ (xReg_ne_rReg _ _).symm,
    State.setWord_reg]

section OneWord

variable (h : Copyable a m (n + 1) s)
include h

theorem Copyable.toNat_source (hx : m.x ≠ 0) : (indexSum m s).toNat = sourceStart m s :=
  toNat_indexSum hx (by have := h.sourceBelow; omega)

theorem Copyable.toNat_target : (btTarget a m s).toNat = targetStart a m s :=
  toNat_btTarget (by have := h.targetBelow; omega)

theorem Copyable.modifierX (hxa : m.x ≠ a) :
    ((copyOne a m s).modifier m.x).toNat = (s.modifier m.x).toNat + 1 := by
  have hbelow := h.sourceBelow
  rw [sourceStart] at hbelow
  rw [copyOne_modifierX hxa, h.incrementX]
  exact toNat_onesAdd_of_lt (by change _ + 1 < _; omega)

theorem Copyable.modifierA (hxa : m.x ≠ a) : ((copyOne a m s).modifier a).toNat = (s.modifier a).toNat + 1 := by
  have hbelow := h.targetBelow
  rw [targetStart] at hbelow
  rw [copyOne_modifierA hxa, h.incrementA]
  exact toNat_onesAdd_of_lt (by change _ + 1 < _; omega)

theorem Copyable.sourceStart_copyOne (hxa : m.x ≠ a) : sourceStart m (copyOne a m s) = sourceStart m s + 1 := by
  rw [sourceStart, h.modifierX hxa, sourceStart, Nat.add_assoc]

theorem Copyable.targetStart_copyOne (hxa : m.x ≠ a) : targetStart a m (copyOne a m s) = targetStart a m s + 1 := by
  rw [targetStart, h.modifierA hxa, targetStart, Nat.add_assoc]

/-- The first repetition moves one word of storage. -/
theorem Copyable.btMove_eq (hx : m.x ≠ 0) : btMove .w a m s =
    .ok () (s.setWord (btTarget a m s) (s.mem.read (indexSum m s).toNat)) := by
  have hsource := h.toNat_source hx
  have htarget := h.toNat_target
  have hsrc : isRegAddr (indexSum m s) = false := decide_eq_false (by have := h.sourceLow; omega)
  have hdst : isRegAddr (btTarget a m s) = false := decide_eq_false (by have := h.targetLow; omega)
  have hsrcWord : s.hasWord (indexSum m s) = true := decide_eq_true (by have := h.sourceFits; omega)
  have hdstWord : s.hasWord (btTarget a m s) = true := decide_eq_true (by have := h.targetFits; omega)
  exact btMove_eq_ok.2 ⟨by simp, _, opRead_storage hsrc hsrcWord, partWrite_eq_ok.2 (.inr ⟨hdst, hdstWord, rfl⟩)⟩

/-- After the first word the rest of the block can be copied. -/
theorem Copyable.rest (hxa : m.x ≠ a) : Copyable a m n (copyOne a m s) := by
  have hsource := h.sourceStart_copyOne hxa
  have htarget := h.targetStart_copyOne hxa
  obtain ⟨hwf, hcount, hix, hia, hsl, htl, hsf, htf, hsb, htb, hap⟩ := h
  have hword : s.hasWord (btTarget a m s) = true := by
    refine decide_eq_true ?_
    rw [toNat_btTarget (by omega)]
    omega
  have hleft := toNat_sub_one_of_ne_zero (c := s.repeatCount) (by rintro h0; simp [h0] at hcount)
  exact {
    wf := State.wf_congr rfl rfl (State.setWord_wf hwf hword (s.mem.read (indexSum m s).toNat))
    count := by rw [copyOne, State.repeatCount_setRepeatCount]; omega
    incrementX := (copyOne_increment m.x).trans hix
    incrementA := (copyOne_increment a).trans hia
    sourceLow := by omega
    targetLow := by omega
    sourceFits := by rw [copyOne_cfg]; omega
    targetFits := by rw [copyOne_cfg]; omega
    sourceBelow := by omega
    targetBelow := by omega
    apart := by omega }

/-- The first word and then the rest of the block are the block: what the first move wrote is not written again, and it
wrote no word of the source. -/
theorem Copyable.copied_succ (hx : m.x ≠ 0) (hxa : m.x ≠ a) (hrest : Copied a m n (copyOne a m s) t) :
    Copied a m (n + 1) s t := by
  have hsource := h.sourceStart_copyOne hxa
  have htarget := h.targetStart_copyOne hxa
  have hother {b : Nat} (hb : b ≠ targetStart a m s) : (copyOne a m s).mem.read b = s.mem.read b := by
    rw [copyOne_mem, h.toNat_target, Memory.read_write_ne _ _ hb]
  exact {
    word := fun k hk => by
      cases k with
      | zero =>
        rw [hrest.frame _ (.inl (by omega)), copyOne_mem, h.toNat_target, h.toNat_source hx, Nat.add_zero, Nat.add_zero,
          Memory.read_write_same h.wf.1]
      | succ k =>
        have hword := hrest.word k (by omega)
        rw [htarget, hsource, Nat.add_right_comm, Nat.add_right_comm _ 1, Nat.add_assoc, Nat.add_assoc] at hword
        rw [hword, hother (by have := h.apart; omega)]
    frame := fun b hb => by rw [hrest.frame b (by omega), hother (by omega)]
    modifierX := by rw [hrest.modifierX, h.modifierX hxa]; omega
    modifierA := by rw [hrest.modifierA, h.modifierA hxa]; omega
    increment := fun k => (hrest.increment k).trans (copyOne_increment k)
    upper := hrest.upper.trans copyOne_upper
    reg := fun r h1 h2 h3 => (hrest.reg r h1 h2 h3).trans (copyOne_reg h1 h2 h3) }

end OneWord

/-! ### The whole block -/

theorem Copied.refl (a : BitVec 4) (m : Xhiu) (s : State) : Copied a m 0 s s :=
  ⟨fun _ hk => absurd hk (Nat.not_lt_zero _), fun _ _ => rfl, rfl, rfl, fun _ => rfl, rfl, fun _ _ _ _ => rfl⟩

/-- Every repetition can be done, and together they copy the block. -/
theorem Copyable.transfers (hh : m.h = true) (hx : m.x ≠ 0) (hxa : m.x ≠ a) (h : Copyable a m n s) :
    ∃ t, Transfers .w a m n s t ∧ Copied a m n s t := by
  induction n generalizing s with
  | zero => exact ⟨s, .zero s, .refl a m s⟩
  | succ n ih =>
    obtain ⟨t, htransfers, hcopied⟩ := ih (h.rest hxa)
    refine ⟨t, .succ (h.btMove_eq hx) ?_, h.copied_succ hx hxa hcopied⟩
    rw [btIndex_eq, if_neg (by simp [hh]), if_neg (not_or.2 ⟨hxa, hx⟩)]
    exact htransfers

/-- Settles O46: the repetitions are possible and copy the block, so BT completes with all of them done. -/
theorem blockTransferCopiesABlock : Obligations.BlockTransferCopiesABlock := by
  intro a m s hwf hi hh hx hxa hix hia n src dst hsl htl hsf htf hsb htb hap
  have hcopyable : Copyable a m n s := ⟨hwf, rfl, hix, hia, hsl, htl, hsf, htf, hsb, htb, hap⟩
  obtain ⟨t, htransfers, hcopied⟩ := hcopyable.transfers hh hx hxa
  obtain ⟨hexec, hzero, hp, hcfg⟩ := blockTransferCompletes 0 a m s t .w hi rfl htransfers
  exact ⟨t.advance, hexec, hcopied.word, hcopied.frame, hcopied.modifierX, hcopied.modifierA,
    (hcopied.increment m.x).trans hix, (hcopied.increment a).trans hia, hzero, hcopied.upper, hcopied.reg,
    congrArg (· + 1) hp, hcfg⟩

end Sys2Proof.Machine
end

section
/-! Multiplication and division as integer operations (43_multiply_divide.md R150 to R156). A word is its sign times its
magnitude (`onesVal_eq_signOf_mul`), so the operations on signs and magnitudes of R150 are the ones on the values. -/

namespace Sys2Proof.Machine

variable {n : Nat} {j a : BitVec 4} {m : Xhiu} {s s1 : State} {v : Word}

/-! ### Sign and magnitude (R150) -/

/-- The factor that a sign bit stands for. -/
def signOf (b : Bool) : Int := if b then -1 else 1

theorem signOf_xor (b c : Bool) : signOf (b ^^ c) = signOf b * signOf c := by
  cases b <;> cases c <;> rfl

@[simp] theorem natAbs_signOf_mul (b : Bool) (x : Int) : (signOf b * x).natAbs = x.natAbs := by
  cases b <;> simp [signOf]

theorem onesVal_eq_signOf_mul (v : BitVec n) : onesVal v = signOf v.msb * (onesMag v).toNat := by
  cases h : v.msb <;> simp [onesVal, onesMag, signOf, h]

theorem onesMag_toNat (v : BitVec n) : (onesMag v).toNat = (onesVal v).natAbs := by
  rw [onesVal_eq_signOf_mul, natAbs_signOf_mul, Int.natAbs_natCast]

/-- A magnitude leaves the sign bit clear. -/
theorem onesMag_lt (v : BitVec n) (hn : 0 < n) : (onesMag v).toNat < 2 ^ (n - 1) := by
  have hle := abs_onesVal_le v hn
  rw [onesMag_toNat]
  zify
  omega

theorem msb_ofNat_of_lt {k : Nat} (hn : 0 < n) (hk : k < 2 ^ (n - 1)) : (BitVec.ofNat n k).msb = false := by
  have hpow : 2 ^ n = 2 * 2 ^ (n - 1) := (mul_pow_sub_one hn.ne' 2).symm
  have hmod := Nat.mod_le k (2 ^ n)
  rw [BitVec.msb_eq_false_iff_two_mul_lt, BitVec.toNat_ofNat]
  omega

/-- A magnitude that leaves the sign bit clear gets the sign, also where the magnitude is 0. -/
theorem msb_withSign (b : Bool) {k : Nat} (hn : 0 < n) (hk : k < 2 ^ (n - 1)) :
    (withSign b (BitVec.ofNat n k)).msb = b := by
  cases b <;> simp [withSign, onesNeg_eq_not, BitVec.msb_not, msb_ofNat_of_lt hn hk, hn]

theorem onesVal_withSign (b : Bool) {k : Nat} (hn : 0 < n) (hk : k < 2 ^ (n - 1)) :
    onesVal (withSign b (BitVec.ofNat n k)) = signOf b * k := by
  have hmod : k % 2 ^ n = k := Nat.mod_eq_of_lt (hk.trans_le (Nat.pow_le_pow_right two_pos (Nat.sub_le n 1)))
  have hplus : onesVal (BitVec.ofNat n k) = k := by
    rw [onesVal_eq_toNat_of_not_msb (msb_ofNat_of_lt hn hk), BitVec.toNat_ofNat, hmod]
  cases b <;> simp [withSign, signOf, hplus]

/-! ### The product (R151) -/

theorem product_magnitude_lt (w v : Word) : (onesMag w).toNat * (onesMag v).toNat < 2 ^ 71 :=
  calc (onesMag w).toNat * (onesMag v).toNat
      < 2 ^ 35 * 2 ^ 35 := Nat.mul_lt_mul'' (onesMag_lt w (by decide)) (onesMag_lt v (by decide))
    _ < 2 ^ 71 := by norm_num

theorem msb_product (w v : Word) : (product w v).msb = (w.msb ^^ v.msb) :=
  msb_withSign _ (by decide) (product_magnitude_lt w v)

theorem onesVal_product (w v : Word) : onesVal (product w v) = onesVal w * onesVal v := by
  rw [product, onesVal_withSign _ (by decide) (product_magnitude_lt w v), signOf_xor, onesVal_eq_signOf_mul w,
    onesVal_eq_signOf_mul v]
  push_cast
  ring

/-! ### Quotient and remainder (R154) -/

/-- Of two integers in sign and magnitude, the quotient truncated toward zero is the signs' product times the quotient
of the magnitudes. -/
theorem signOf_mul_tdiv (b c : Bool) (k d : Nat) :
    (signOf b * k).tdiv (signOf c * d) = signOf (b ^^ c) * (k / d : Nat) := by
  cases b <;> cases c <;> simp [signOf]

/-- The remainder has the sign of the dividend, whatever that of the divisor. -/
theorem signOf_mul_tmod (b c : Bool) (k d : Nat) :
    (signOf b * k).tmod (signOf c * d) = signOf b * (k % d : Nat) := by
  cases b <;> cases c <;> simp [signOf, Int.tmod_eq_emod_of_nonneg]

/-- The integer `x` with the sign bit `b`, which `x` alone does not fix where it is 0, divided by `v` (R150): `q` and `r`
are the quotient truncated toward zero and the remainder, with their sign bits. -/
structure DividesTo (b : Bool) (x : Int) (v q r : Word) : Prop where
  quotient : onesVal q = x.tdiv (onesVal v)
  remainder : onesVal r = x.tmod (onesVal v)
  quotientSign : q.msb = (b ^^ v.msb)
  remainderSign : r.msb = b

theorem quotRem_of_fits (b : Bool) (k : Nat) (hv : onesVal v ≠ 0) (hfits : k / (onesVal v).natAbs < 2 ^ 35) :
    ∃ q r, quotRem b k v = some (q, r) ∧ DividesTo b (signOf b * k) v q r := by
  have hdivisor := onesMag_lt v (by decide)
  have hpos : 0 < (onesMag v).toNat := by rw [onesMag_toNat]; exact Int.natAbs_pos.2 hv
  rw [← onesMag_toNat] at hfits
  have hrem : k % (onesMag v).toNat < 2 ^ 35 := (Nat.mod_lt k hpos).trans hdivisor
  have hnone : ¬(onesIsZero v = true ∨ 2 ^ 35 ≤ k / (onesMag v).toNat) :=
    not_or.2 ⟨fun hz => hv ((onesIsZero_iff_onesVal_eq_zero v).1 hz), hfits.not_ge⟩
  refine ⟨_, _, if_neg hnone, ?_, ?_, msb_withSign _ (by decide) hfits, msb_withSign _ (by decide) hrem⟩
  · rw [onesVal_withSign _ (by decide) hfits, onesVal_eq_signOf_mul v, signOf_mul_tdiv]
  · rw [onesVal_withSign _ (by decide) hrem, onesVal_eq_signOf_mul v, signOf_mul_tmod]

/-! ### The pair of registers -/

theorem upperWord_append_lowerWord (d : DWord) : upperWord d ++ lowerWord d = d :=
  (BitVec.extractLsb'_append_extractLsb'_eq_extractLsb' rfl).trans BitVec.extractLsb'_eq_self

theorem State.setPair_changesOnly (s : State) (a : BitVec 4) (d : DWord) :
    ChangesOnly [aReg a, aReg1 a] [] s (s.setPair a d) where
  reg q hq := by
    obtain ⟨hhigh, hlow⟩ : q ≠ aReg a ∧ q ≠ aReg1 a := by simpa using hq
    rw [State.setPair, State.reg_setReg_ne _ _ _ _ hlow, State.reg_setReg_ne _ _ _ _ hhigh]
  word _ _ := rfl
  cfg := rfl

/-- The sign of the pair is that of `A[a]`. -/
theorem State.msb_pair (s : State) (a : BitVec 4) : (s.pair a).msb = (s.reg (aReg a)).msb := by
  rw [State.pair, ofWords, BitVec.msb_append]
  rfl

/-! ### Multiplication -/

/-- MI and MF: the double word `f v s1` is written to `A[a]` and `A[a+1]`. -/
theorem multiply_setPair_completes {own : List RegAddr} (ho : operand j m s = .ok v s1) (hown : ¬UsesOwn own m)
    (a : BitVec 4) (f : Word → State → DWord) :
    ∃ t, multiply own j m (fun v s1 => s1.setPair a (f v s1)) s = .next t ∧
      t.reg (aReg a) ++ t.reg (aReg1 a) = f v s1 ∧ ChangesOnly [aReg a, aReg1 a] [] s1 t ∧ t.p = s.p + 1 := by
  refine ⟨(s1.setPair a (f v s1)).advance, multiply_next.2 ⟨v, s1, hown, ho, rfl⟩, ?_, ?_, ?_⟩
  · simp only [State.advance_reg, State.reg_setPair_high, State.reg_setPair_low, upperWord_append_lowerWord]
  · exact (s1.setPair_changesOnly a _).congr (State.advance_reg _) rfl rfl
  · rw [State.advance_p, State.setPair_p, (operand_ok ho).p]

/-- Settles O36: `product` is the 72-bit product; MI and MF write it as a pair, and MSI writes its low word as a load
writes its register. -/
theorem productsAreIntegerProducts : Obligations.ProductsAreIntegerProducts := by
  intro j a m s s1 v ho hown
  refine ⟨operand_ok ho, product (s1.reg (aReg a)) v, onesVal_product _ v, msb_product _ v, ?_, fun hpair => ⟨?_, ?_⟩⟩
  · exact registerLoad_completes ho hown (aReg a) fun v s1 => lowerWord (product (s1.reg (aReg a)) v)
  · exact multiply_setPair_completes ho hpair a fun v s1 => product (s1.reg (aReg a)) v
  · exact multiply_setPair_completes ho hpair a fun v s1 => (product (s1.reg (aReg a)) v).rotateLeft 1

/-! ### Division -/

/-- A division whose quotient fits completes: `x` is the integer that `dividend` gives in sign and magnitude. -/
theorem divide_completes {own : List RegAddr} (ho : operand j m s = .ok v s1) (hown : ¬UsesOwn own m)
    (hv : onesVal v ≠ 0) (i : Instr) (dividend : State → Bool × Nat) (k : Word → Word → State → State) {x : Int}
    (hx : x = signOf (dividend s1).1 * (dividend s1).2) (hfits : x.natAbs / (onesVal v).natAbs < 2 ^ 35) :
    ∃ q r, divide i own j m dividend k s = .next (k q r s1).advance ∧ DividesTo (dividend s1).1 x v q r := by
  rw [hx, natAbs_signOf_mul, Int.natAbs_natCast] at hfits
  obtain ⟨q, r, hquot, hdivides⟩ := quotRem_of_fits (dividend s1).1 (dividend s1).2 hv hfits
  exact ⟨q, r, divide_next.2 ⟨v, s1, q, r, hown, ho, hquot, rfl⟩, hx ▸ hdivides⟩

/-- DI and DF: quotient and remainder are written to `A[a]` and `A[a+1]`, and the dividend has the sign of `A[a]`. -/
theorem divide_setPair_completes (ho : operand j m s = .ok v s1) (hown : ¬UsesOwn [aReg a, aReg1 a] m)
    (hv : onesVal v ≠ 0) (i : Instr) (magnitude : State → Nat) {x : Int}
    (hx : x = signOf (s1.pair a).msb * magnitude s1) (hfits : x.natAbs / (onesVal v).natAbs < 2 ^ 35) :
    ∃ t, divide i [aReg a, aReg1 a] j m (fun s1 => ((s1.pair a).msb, magnitude s1))
        (fun q r s1 => s1.setPair a (ofWords q r)) s = .next t ∧
      onesVal (t.reg (aReg a)) = x.tdiv (onesVal v) ∧ onesVal (t.reg (aReg1 a)) = x.tmod (onesVal v) ∧
      (t.reg (aReg a)).msb = ((s1.reg (aReg a)).msb ^^ v.msb) ∧ (t.reg (aReg1 a)).msb = (s1.reg (aReg a)).msb ∧
      ChangesOnly [aReg a, aReg1 a] [] s1 t ∧ t.p = s.p + 1 := by
  obtain ⟨q, r, hnext, hdivides⟩ := divide_completes ho hown hv i (fun s1 => ((s1.pair a).msb, magnitude s1))
    (fun q r s1 => s1.setPair a (ofWords q r)) hx hfits
  have hframe := (s1.setPair_changesOnly a (ofWords q r)).congr (State.advance_reg _) rfl rfl
  have hp : (s1.setPair a (ofWords q r)).advance.p = s.p + 1 := by
    rw [State.advance_p, State.setPair_p, (operand_ok ho).p]
  refine ⟨_, hnext, ?_⟩
  simp only [State.advance_reg, State.reg_setPair_high, State.reg_setPair_low, upperWord_ofWords, lowerWord_ofWords,
    ← s1.msb_pair a]
  exact ⟨hdivides.quotient, hdivides.remainder, hdivides.quotientSign, hdivides.remainderSign, hframe, hp⟩

/-- Settles O37: each dividend, as an integer, is the sign and the magnitude that its instruction divides: the pair,
`A[a]` times 2^35, and half the pair truncated toward zero. -/
theorem quotientsAreIntegerQuotients : Obligations.QuotientsAreIntegerQuotients := by
  intro j a m s s1 v ho hown hv
  refine ⟨operand_ok ho, ?_⟩
  intro w d
  have hpair : onesVal d = signOf (s1.pair a).msb * (onesMag (s1.pair a)).toNat := onesVal_eq_signOf_mul (s1.pair a)
  refine ⟨fun hfits => ?_, fun hfits => ?_, fun hfits => ?_⟩
  · exact divide_setPair_completes ho hown hv (.di j a m) (fun s1 => (onesMag (s1.pair a)).toNat) hpair hfits
  · have hshifted : onesVal w * 2 ^ 35 = signOf w.msb * ((onesMag w).toNat * 2 ^ 35 : Nat) := by
      rw [onesVal_eq_signOf_mul w]
      push_cast
      ring
    obtain ⟨q, r, hnext, hdivides⟩ := divide_completes ho hown hv (.dsf j a m)
      (fun s1 => ((s1.reg (aReg a)).msb, (onesMag (s1.reg (aReg a))).toNat * 2 ^ 35))
      (fun q _ s1 => s1.setReg (aReg1 a) q) hshifted (by rwa [Int.natAbs_mul])
    refine ⟨_, hnext, ?_⟩
    simp only [State.advance_reg, State.reg_setReg_same, State.advance_p, State.setReg_p, (operand_ok ho).p, and_true]
    exact ⟨hdivides.quotient, hdivides.quotientSign,
      (s1.setReg_changesOnly (aReg1 a) q).congr (State.advance_reg _) rfl rfl⟩
  · have hhalf : (onesVal d).tdiv 2 = signOf (s1.pair a).msb * ((onesMag (s1.pair a)).toNat / 2 : Nat) := by
      rw [hpair]
      simpa [signOf] using signOf_mul_tdiv (s1.pair a).msb false (onesMag (s1.pair a)).toNat 2
    exact divide_setPair_completes ho hown hv (.df j a m) (fun s1 => (onesMag (s1.pair a)).toNat / 2) hhalf
      (by rwa [Int.natAbs_tdiv])

end Sys2Proof.Machine
end

section
/-! The 23 byte and conversion instructions of f = 33 and f = 37 that carry the flag `1110` (44_byte_1110.md R160 to
R183). They form no address: `MODEL` alone decides between the invalid-code interrupt (R260) and the refusal. -/

namespace Sys2Proof.Machine

variable {i : Instr} {f : BitVec 6} {j a : BitVec 4} {m : Xhiu} {s : State}

/-- The flag decides the meaning: every line that carries it has the common rule R160, whatever its mnemonic. -/
theorem exec_of_flag1110 (hflag : i.flag1110 = true) (s : State) : exec i s = flagged1110 i s := by
  cases i with
  | bm | bmt | btc | bc | bpd | pdb | edit | bi | bdi | ib | dib | bf | bdf | fb | dfb => rfl
  | qb | bq | qbh | bqh | qdb | dbq | ba | ban => rfl
  | _ => cases hflag

theorem invalidCode_packWord (f : BitVec 6) (j a : BitVec 4) (m : Xhiu) :
    invalidCode (packWord f j a m) = .invalidCode f j a (packWord f j a m) := by
  simp only [invalidCode, fieldF_packWord, fieldJ_packWord, fieldA_packWord]

theorem flagged1110_m1100_20 (hmodel : s.cfg.model = .m1100_20) (hword : encode i = packWord f j a m) :
    flagged1110 i s = .fault (.interrupt (.invalidCode f j a (packWord f j a m)) s) := by
  rw [flagged1110, hmodel, hword, ← invalidCode_packWord]
  rfl

theorem flagged1110_m1110 (hmodel : s.cfg.model = .m1110) (i : Instr) :
    flagged1110 i s = .refused (.byteInstructionOf1110 s) := by
  rw [flagged1110, hmodel]

/-- Settles O59: each line of the table carries the flag, and its instruction encodes to the f and j of the line. -/
theorem flaggedInstructionsNeverRun : Obligations.FlaggedInstructionsNeverRun := by
  intro a m s c hc
  have hline : c.1.flag1110 = true ∧ encode c.1 = packWord c.2.1 c.2.2 a m := by
    revert c
    simp only [List.forall_mem_cons, List.not_mem_nil, false_implies, implies_true, and_true]
    and_intros
    all_goals rfl
  obtain ⟨hflag, hword⟩ := hline
  rw [exec_of_flag1110 hflag]
  exact ⟨fun hmodel => flagged1110_m1100_20 hmodel hword, fun hmodel => flagged1110_m1110 hmodel c.1⟩

end Sys2Proof.Machine
end

section
/-! The tests (45_logical.md R195, R196, R198, 46_test.md R200 to R210). TEP, TOP and the ten of f = 50 to 61 are one
operation, `testSkip`: the operand is read and P alone says what was found. TLEM writes its modifier as well. -/

namespace Sys2Proof.Machine

variable {j a : BitVec 4} {m : Xhiu} {s s1 : State} {v : Word}

/-! ### What the conditions mean -/

theorem length_filter_eq_sum {α : Type} (p : α → Bool) (l : List α) :
    (l.filter p).length = (l.map fun x => (p x).toNat).sum := by
  induction l with
  | nil => rfl
  | cons x xs ih => cases hx : p x <;> simp [hx, ih, Nat.add_comm]

/-- The number of 1 bits is the sum of the bits (R195). -/
theorem popcount_eq_sum (w : Word) : popcount w = ((List.range 36).map fun k => (w.getLsbD k).toNat).sum :=
  length_filter_eq_sum _ _

theorem onesIsZero_eq_decide {n : Nat} (v : BitVec n) : onesIsZero v = decide (onesVal v = 0) :=
  Bool.eq_iff_iff.2 ((onesIsZero_iff_onesVal_eq_zero v).trans decide_eq_true_iff.symm)

theorem ordLe_eq_decide (v w : Word) : ordLe v w = decide (v.toInt ≤ w.toInt) := by
  simp only [ordLe, ordKey_eq_toInt]

theorem ordGt_eq_decide (v w : Word) : ordGt v w = decide (v.toInt > w.toInt) := by
  simp only [ordGt, ordKey_eq_toInt, gt_iff_lt]

theorem ordWithin_eq_decide (lo hi v : Word) :
    ordWithin lo hi v = decide (lo.toInt < v.toInt ∧ v.toInt ≤ hi.toInt) := by
  simp only [ordWithin, ordKey_eq_toInt]

theorem leModifier_eq_decide (v : Word) (xm : BitVec 18) : leModifier v xm = decide (v.toInt ≤ xm.toNat) := by
  simp only [leModifier, ordKey_eq_toInt]

/-- The sign bit is bit 35 (R209, R210). -/
theorem msb_eq_getLsbD_35 (v : Word) : v.msb = v.getLsbD 35 := v.msb_eq_getLsbD_last

/-! ### A skip leaves everything but P -/

theorem ChangesOnly.refl (s : State) : ChangesOnly [] [] s s := ⟨fun _ _ => rfl, fun _ _ => rfl, rfl⟩

theorem ChangesOnly.skipIf {rs : List RegAddr} {ws : List Nat} {t : State} (h : ChangesOnly rs ws s t) (c : Bool) :
    ChangesOnly rs ws s (t.skipIf c) :=
  h.congr (fun r => t.skipIf_reg r c) (t.skipIf_mem c) (t.skipIf_cfg c)

@[simp] theorem State.modifier_skipIf (s : State) (c : Bool) (k : BitVec 4) :
    (s.skipIf c).modifier k = s.modifier k := by
  simp only [State.modifier, State.skipIf_reg]

@[simp] theorem State.increment_skipIf (s : State) (c : Bool) (k : BitVec 4) :
    (s.skipIf c).increment k = s.increment k := by
  simp only [State.increment, State.skipIf_reg]

/-! ### The two statements -/

/-- A readable operand is enough for a test to complete; it skips when the condition `c` has the truth value `b`. -/
theorem testSkip_completes {own : List RegAddr} (ho : operand j m s = .ok v s1) (c : Word → State → Bool) {b : Bool}
    (hc : c v s1 = b) (hown : ¬UsesOwn own m) :
    ∃ t, testSkip own j m c s = .next t ∧ ChangesOnly [] [] s1 t ∧ t.p = if b = true then s.p + 2 else s.p + 1 := by
  refine ⟨s1.skipIf b, testSkip_next.2 ⟨v, s1, hown, ho, by rw [hc]⟩, (ChangesOnly.refl s1).skipIf b, ?_⟩
  rw [State.skipIf_p, (operand_ok ho).p]

/-- Settles O39: the twelve are `testSkip`, each on the condition of its own rule. -/
theorem testsSkipOnTheirCondition : Obligations.TestsSkipOnTheirCondition := by
  intro j a m s s1 v ho
  refine ⟨operand_ok ho, ?_⟩
  intro w hi ones
  have hones : popcount (w &&& v) = ones := popcount_eq_sum _
  clear_value ones -- else the unifier evaluates the sum of the 36 bits
  simp only [List.forall_mem_cons, List.not_mem_nil, false_implies, implies_true, and_true]
  and_intros
  · exact testSkip_completes ho (fun v s1 => evenParity (s1.reg (aReg a) &&& v)) (by rw [evenParity, hones])
  · exact testSkip_completes ho (fun v s1 => oddParity (s1.reg (aReg a) &&& v)) (by rw [oddParity, hones])
  · exact testSkip_completes ho (fun v _ => onesIsZero v) (onesIsZero_eq_decide v)
  · exact testSkip_completes ho (fun v _ => !onesIsZero v) (by rw [onesIsZero_eq_decide, decide_not])
  · exact testSkip_completes ho (fun v s1 => v == s1.reg (aReg a)) rfl
  · exact testSkip_completes ho (fun v s1 => v != s1.reg (aReg a)) (by rw [decide_not]; rfl)
  · exact testSkip_completes ho (fun v s1 => ordLe v (s1.reg (aReg a))) (ordLe_eq_decide v w)
  · exact testSkip_completes ho (fun v s1 => ordGt v (s1.reg (aReg a))) (ordGt_eq_decide v w)
  · exact testSkip_completes ho (fun v s1 => ordWithin (s1.reg (aReg a)) (s1.reg (aReg1 a)) v)
      (ordWithin_eq_decide w hi v)
  · exact testSkip_completes ho (fun v s1 => !ordWithin (s1.reg (aReg a)) (s1.reg (aReg1 a)) v)
      (by rw [ordWithin_eq_decide, decide_not])
  · exact testSkip_completes ho (fun v _ => !v.msb) (by rw [msb_eq_getLsbD_35, Bool.decide_eq_false])
  · exact testSkip_completes ho (fun v _ => v.msb) (by rw [msb_eq_getLsbD_35, Bool.decide_eq_true])

/-- Settles O40: the condition is read in the state `s1` that the operand left, and the skip is taken from `s1` with the
modifier incremented. -/
theorem tlemComparesThenIncrements : Obligations.TlemComparesThenIncrements := by
  intro j a m s s1 v ho hown
  have hnext : exec (.tlem j a m) s = .next ((s1.bumpIndex a).skipIf (leModifier v (s1.modifier a))) :=
    Res.toNext_eq_next.2 ⟨v, s1, ownOperand_eq_ok.2 ⟨hown, ho⟩, rfl⟩
  refine ⟨operand_ok ho, _, hnext, (s1.bumpIndex_changesOnly a).skipIf _, ?_, ?_, ?_⟩
  · rw [State.modifier_skipIf, State.modifier_bumpIndex]
  · rw [State.increment_skipIf, State.increment_bumpIndex]
  · simp only [State.skipIf_p, State.bumpIndex_p, (operand_ok ho).p, leModifier_eq_decide, decide_eq_true_iff]

end Sys2Proof.Machine
end

section
/-! The searches (47_search.md R212 to R226). A search that R93 and R97 let run obeys one recursion equation
(`search_succ`): read an operand, skip if it meets the condition, else count down and search again. Its condition may
look at A[a] and A[a+1] as they are by then, which `AgreesFrom` shows to be as they were at the start. -/

namespace Sys2Proof.Machine

variable {j a : BitVec 4} {m : Xhiu} {s s1 s2 t : State} {v : Word} {n : Nat}

/-! ### The condition, from the start of the search to its end -/

/-- The condition `c` on the operand and the state is `cond` on the operand, in every state that repetitions of a search
from `s` can lead to. -/
def AgreesFrom (m : Xhiu) (s : State) (c : Word → State → Bool) (cond : Word → Bool) : Prop :=
  ∀ (v : Word) (s1 : State), SearchFrame m s s1 → c v s1 = cond v

theorem AgreesFrom.of_frame {c : Word → State → Bool} {cond : Word → Bool} (h : AgreesFrom m s c cond)
    (hs : SearchFrame m s s1) : AgreesFrom m s1 c cond :=
  fun v t ht => h v t (hs.trans ht)

/-- A register that the instruction uses through its a field is no modifier that the search increments (R97). -/
theorem SearchFrame.reg_own {own : List RegAddr} {r : RegAddr} (h : SearchFrame m s s1) (hown : ¬UsesOwn own m)
    (hr : r ∈ own) (hcount : r ≠ rReg 1) : s1.reg r = s.reg r := by
  refine h.reg r hcount ?_
  by_contra hx
  simp only [not_or, not_not, Bool.not_eq_false] at hx
  obtain ⟨rfl, hx, hh⟩ := hx
  exact hown ⟨hh, hx, hr⟩

theorem aReg_ne_rReg (a k : BitVec 4) : aReg a ≠ rReg k := fun h => by
  have := congrArg BitVec.toNat h
  rw [aReg_toNat, rReg_toNat] at this
  omega

theorem aReg1_ne_rReg (a k : BitVec 4) : aReg1 a ≠ rReg k := fun h => by
  have := congrArg BitVec.toNat h
  rw [aReg1_toNat, rReg_toNat] at this
  omega

/-- A condition on the operand and A[a] as it is by then, and as it is at the start. -/
theorem agreesFrom_aReg {cond : Word → Bool} (f : Word → Word → Bool) (hown : ¬UsesOwn [aReg a] m)
    (hf : ∀ v, f v (s.reg (aReg a)) = cond v) : AgreesFrom m s (fun v s1 => f v (s1.reg (aReg a))) cond := by
  intro v s1 h
  change f v (s1.reg (aReg a)) = cond v
  rw [h.reg_own hown (by simp) (aReg_ne_rReg a 1), hf]

/-- The same of a condition on the operand, A[a] and A[a+1]. -/
theorem agreesFrom_pair {cond : Word → Bool} (f : Word → Word → Word → Bool) (hown : ¬UsesOwn [aReg a, aReg1 a] m)
    (hf : ∀ v, f v (s.reg (aReg a)) (s.reg (aReg1 a)) = cond v) :
    AgreesFrom m s (fun v s1 => f v (s1.reg (aReg a)) (s1.reg (aReg1 a))) cond := by
  intro v s1 h
  change f v (s1.reg (aReg a)) (s1.reg (aReg1 a)) = cond v
  rw [h.reg_own hown (by simp) (aReg_ne_rReg a 1), h.reg_own hown (by simp) (aReg1_ne_rReg a 1), hf]

theorem alphaGt_eq_decide (v w : Word) : alphaGt v w = decide (v.toNat > w.toNat) := rfl

/-- SE to SNW are `search` over the operands that j designates, each on the condition of its own rule (R213 to R218). -/
theorem exec_plainSearch {c : Instr × List RegAddr × (Word → Bool)} (hc : c ∈ plainSearches j a m s)
    (hown : ¬UsesOwn c.2.1 m) :
    ∃ f, exec c.1 s = search c.2.1 m (operand j m) f s ∧ AgreesFrom m s f c.2.2 := by
  revert c
  simp only [plainSearches, List.forall_mem_cons, List.not_mem_nil, false_implies, implies_true, and_true]
  and_intros
  all_goals intro hown
  · exact ⟨_, rfl, agreesFrom_aReg (fun v w => v == w) hown fun _ => rfl⟩
  · exact ⟨_, rfl, agreesFrom_aReg (fun v w => v != w) hown fun v => by rw [decide_not]; rfl⟩
  · exact ⟨_, rfl, agreesFrom_aReg ordLe hown fun v => ordLe_eq_decide v _⟩
  · exact ⟨_, rfl, agreesFrom_aReg ordGt hown fun v => ordGt_eq_decide v _⟩
  · exact ⟨_, rfl, agreesFrom_pair (fun v lo hi => ordWithin lo hi v) hown fun v => ordWithin_eq_decide _ _ v⟩
  · exact ⟨_, rfl, agreesFrom_pair (fun v lo hi => !ordWithin lo hi v) hown fun v => by
      rw [ordWithin_eq_decide, decide_not]⟩

/-- MSE to MASG are `search` over whole words, each on the condition of its own rule under the mask (R219 to R226). -/
theorem exec_maskedSearch {c : Instr × List RegAddr × (Word → Bool)} (hc : c ∈ maskedSearches a m s)
    (hown : ¬UsesOwn c.2.1 m) :
    ∃ f, exec c.1 s = search c.2.1 m (wholeOperand m) f s ∧ AgreesFrom m s f c.2.2 := by
  revert c
  simp only [maskedSearches, List.forall_mem_cons, List.not_mem_nil, false_implies, implies_true, and_true]
  and_intros
  all_goals intro hown
  · exact ⟨_, rfl, agreesFrom_aReg (fun v w => (v &&& s.mask) == (w &&& s.mask)) hown fun _ => rfl⟩
  · exact ⟨_, rfl, agreesFrom_aReg (fun v w => (v &&& s.mask) != (w &&& s.mask)) hown fun v => by
      rw [decide_not]; rfl⟩
  · exact ⟨_, rfl, agreesFrom_aReg (fun v w => ordLe (v &&& s.mask) (w &&& s.mask)) hown fun _ => ordLe_eq_decide _ _⟩
  · exact ⟨_, rfl, agreesFrom_aReg (fun v w => ordGt (v &&& s.mask) (w &&& s.mask)) hown fun _ => ordGt_eq_decide _ _⟩
  · exact ⟨_, rfl, agreesFrom_pair (fun v lo hi => ordWithin (lo &&& s.mask) (hi &&& s.mask) (v &&& s.mask)) hown
      fun _ => ordWithin_eq_decide _ _ _⟩
  · exact ⟨_, rfl, agreesFrom_pair (fun v lo hi => !ordWithin (lo &&& s.mask) (hi &&& s.mask) (v &&& s.mask)) hown
      fun _ => by rw [ordWithin_eq_decide, decide_not]; rfl⟩
  · exact ⟨_, rfl, agreesFrom_aReg (fun v w => alphaLe (v &&& s.mask) (w &&& s.mask)) hown fun _ => rfl⟩
  · exact ⟨_, rfl, agreesFrom_aReg (fun v w => alphaGt (v &&& s.mask) (w &&& s.mask)) hown fun _ => rfl⟩

/-! ### One operand -/

theorem operand_ok_direct (hi : m.i = false) (h : operand j m s = .ok v t) : t = stepIndex m s := by
  rcases operand_direct j s hi with ⟨w, e⟩ | e | e <;> rw [e] at h <;> cases h
  rfl

theorem wholeOperand_ok_direct (hi : m.i = false) (h : wholeOperand m s = .ok v t) : t = stepIndex m s := by
  rcases wholeOperand_direct s hi with ⟨w, e⟩ | e <;> rw [e] at h <;> cases h
  rfl

theorem operand_raised_direct {g : Fault} (hi : m.i = false) (h : operand j m s = .raised g) :
    g = .interrupt (.storageFault (indexSum m s) .operandRead) (stepIndex m s) := by
  rcases operand_direct j s hi with ⟨w, e⟩ | e | e <;> rw [e] at h <;> cases h
  rfl

theorem operand_refused_direct {r : Refusal} (hi : m.i = false) (h : operand j m s = .refused r) :
    r = .partialWordOfRegister (stepIndex m s) := by
  rcases operand_direct j s hi with ⟨w, e⟩ | e | e <;> rw [e] at h <;> cases h
  rfl

theorem wholeOperand_raised_direct {g : Fault} (hi : m.i = false) (h : wholeOperand m s = .raised g) :
    g = .interrupt (.storageFault (indexSum m s) .operandRead) (stepIndex m s) := by
  rcases wholeOperand_direct s hi with ⟨w, e⟩ | e <;> rw [e] at h <;> cases h
  rfl

theorem wholeOperand_ne_refused {r : Refusal} (hi : m.i = false) : wholeOperand m s ≠ .refused r := by
  rcases wholeOperand_direct s hi with ⟨w, e⟩ | e <;> rw [e] <;> simp

/-! ### Repetitions -/

theorem Unmatched.toNat_repeatCount {next : State → Res Word} {cond : Word → Bool} (h : Unmatched next cond n s t)
    (hn : n ≤ s.repeatCount.toNat) : t.repeatCount.toNat = s.repeatCount.toNat - n := by
  induction h with
  | zero s => rfl
  | @succ n s s1 t v read no rest ih =>
    have hleft := toNat_sub_one_of_ne_zero (c := s.repeatCount) fun h => by simp [h] at hn
    rw [State.repeatCount_setRepeatCount] at ih
    omega

section Search

variable {own : List RegAddr} {next : State → Res Word} {c : Word → State → Bool} {cond : Word → Bool}

/-- A repetition keeps what `SearchFrame` says: the operand's formation and the count are all it changes. -/
theorem Unmatched.searchFrame (hnext : ∀ s v t, next s = .ok v t → t = stepIndex m s)
    (h : Unmatched next cond n s t) : SearchFrame m s t := by
  induction h with
  | zero s => exact .refl m s
  | succ read no rest ih =>
    cases hnext _ _ _ read
    exact (stepIndex_searchFrame m _).trans ((setRepeatCount_searchFrame m _ _).trans ih)

/-- The state in which the next operand is read, its formation done: it goes with the stop of the search (R269). -/
theorem stepIndex_after_unmatched (hnext : ∀ s v t, next s = .ok v t → t = stepIndex m s)
    (hn : n < s.repeatCount.toNat) (h : Unmatched next cond n s s1) :
    (stepIndex m s1).repeatCount.toNat = s.repeatCount.toNat - n ∧ SearchFrame m s (stepIndex m s1) :=
  ⟨by rw [stepIndex_repeatCount, h.toNat_repeatCount hn.le],
    (h.searchFrame hnext).trans (stepIndex_searchFrame m s1)⟩

theorem search_zero (hi : m.i = false) (hown : ¬UsesOwn own m) (hzero : s.repeatCount = 0) :
    search own m next c s = .next s.advance := by
  rw [search_of_not next c s hi hown, hzero]
  rfl

/-- One repetition of a search, and the search again from the state after it. -/
theorem search_succ (hi : m.i = false) (hown : ¬UsesOwn own m) (hcount : s.repeatCount ≠ 0) :
    search own m next c s = (next s).andThen fun v s1 =>
      if c v s1 then .next (s1.setRepeatCount (s.repeatCount - 1)).skip
      else search own m next c (s1.setRepeatCount (s.repeatCount - 1)) := by
  rw [search_of_not next c s hi hown, ← toNat_sub_one_of_ne_zero hcount, searchLoop]
  simp only [search_of_not _ _ _ hi hown, State.repeatCount_setRepeatCount, BitVec.ofNat_toNat, BitVec.setWidth_eq]

theorem searchLoop_ne_refused (hnext : ∀ s r, next s ≠ .refused r) {r : Refusal} :
    searchLoop next c n s ≠ .refused r := by
  induction n generalizing s with
  | zero => rw [searchLoop_zero]; simp
  | succ n ih =>
    rw [ne_eq, searchLoop_succ_refused]
    rintro (h | ⟨v, s1, -, -, h⟩)
    · exact hnext s r h
    · exact ih h

/-- What R93 and R97 let run is refused only where an operand is. -/
theorem search_ne_refused (hi : m.i = false) (hown : ¬UsesOwn own m) (hnext : ∀ s r, next s ≠ .refused r)
    {r : Refusal} : search own m next c s ≠ .refused r := by
  rw [search_of_not next c s hi hown]
  exact searchLoop_ne_refused hnext

variable (hi : m.i = false) (hown : ¬UsesOwn own m) (hnext : ∀ s v t, next s = .ok v t → t = stepIndex m s)
include hi hown hnext

/-- The search goes on from where operands that do not meet the condition have brought it. -/
theorem search_of_unmatched (hc : AgreesFrom m s c cond) (h : Unmatched next cond n s t)
    (hn : n ≤ s.repeatCount.toNat) : search own m next c s = search own m next c t := by
  induction h with
  | zero s => rfl
  | @succ n s s1 t v read no rest ih =>
    have hcount : s.repeatCount ≠ 0 := fun h => by simp [h] at hn
    have hleft := toNat_sub_one_of_ne_zero hcount
    have hframe : SearchFrame m s s1 := hnext _ _ _ read ▸ stepIndex_searchFrame m s
    have hno : c v s1 = false := (hc v s1 hframe).trans no
    rw [search_succ hi hown hcount, read, Res.andThen_ok, if_neg (by simp [hno])]
    exact ih (hc.of_frame (hframe.trans (setRepeatCount_searchFrame m s1 _)))
      (by rw [State.repeatCount_setRepeatCount]; omega)

/-- Not found (R212): as many operands as the count do not meet the condition. -/
theorem search_not_found (hc : AgreesFrom m s c cond) (h : Unmatched next cond s.repeatCount.toNat s t) :
    search own m next c s = .next t.advance ∧ t.repeatCount = 0 ∧ SearchFrame m s t := by
  have hzero : t.repeatCount = 0 := BitVec.eq_of_toNat_eq (by simpa using h.toNat_repeatCount le_rfl)
  exact ⟨(search_of_unmatched hi hown hnext hc h le_rfl).trans (search_zero hi hown hzero), hzero,
    h.searchFrame hnext⟩

/-- What is left of a search after `n` operands that do not meet the condition, `n` less than the count. -/
theorem search_after_unmatched (hc : AgreesFrom m s c cond) (hn : n < s.repeatCount.toNat)
    (h : Unmatched next cond n s s1) : search own m next c s = (next s1).andThen fun v s2 =>
      if c v s2 then .next (s2.setRepeatCount (s1.repeatCount - 1)).skip
      else search own m next c (s2.setRepeatCount (s1.repeatCount - 1)) := by
  have hleft := h.toNat_repeatCount hn.le
  have hcount : s1.repeatCount ≠ 0 := fun h0 => by simp [h0] at hleft; omega
  rw [search_of_unmatched hi hown hnext hc h hn.le, search_succ hi hown hcount]

/-- Found (R212): the next operand meets the condition. -/
theorem search_found (hc : AgreesFrom m s c cond) (hn : n < s.repeatCount.toNat) (h : Unmatched next cond n s s1)
    (hread : next s1 = .ok v s2) (hyes : cond v = true) :
    ∃ t, search own m next c s = .next t.skip ∧ t.repeatCount.toNat = s.repeatCount.toNat - n - 1 ∧
      SearchFrame m s t ∧ ∀ r : RegAddr, r ≠ rReg 1 → t.reg r = s2.reg r := by
  have hframe : SearchFrame m s s2 :=
    (h.searchFrame hnext).trans (hnext _ _ _ hread ▸ stepIndex_searchFrame m s1)
  have hleft := h.toNat_repeatCount hn.le
  have hcount := toNat_sub_one_of_ne_zero (c := s1.repeatCount) fun h0 => by simp [h0] at hleft; omega
  refine ⟨s2.setRepeatCount (s1.repeatCount - 1), ?_, ?_, hframe.trans (setRepeatCount_searchFrame m s2 _),
    fun r hr => s2.reg_setRepeatCount_ne r _ hr⟩
  · rw [search_after_unmatched hi hown hnext hc hn h, hread, Res.andThen_ok, if_pos ((hc v s2 hframe).trans hyes)]
  · rw [State.repeatCount_setRepeatCount]; omega

end Search

/-! ### The statements -/

/-- Settles O41: every repetition is a case of `search_succ`, and the operand answers as `operand_direct` says. -/
theorem plainSearchesFindTheFirst : Obligations.PlainSearchesFindTheFirst := by
  intro j a m s hi c hc hown
  obtain ⟨f, hexec, hf⟩ := exec_plainSearch hc hown
  have hnext : ∀ s v t, operand j m s = .ok v t → t = stepIndex m s := fun _ _ _ => operand_ok_direct hi
  rw [hexec]
  refine ⟨fun t h => search_not_found hi hown hnext hf h,
    fun n s1 s2 v hn h hread hyes => search_found hi hown hnext hf hn h hread hyes, fun n s1 hn h => ?_⟩
  obtain ⟨hcount, hframe⟩ := stepIndex_after_unmatched hnext hn h
  refine ⟨hcount, hframe, fun g hg => ⟨operand_raised_direct hi hg, ?_⟩, fun r hr =>
    ⟨operand_refused_direct hi hr, ?_⟩⟩
  · rw [search_after_unmatched hi hown hnext hf hn h, hg, Res.andThen_raised]
  · rw [search_after_unmatched hi hown hnext hf hn h, hr, Res.andThen_refused]

/-- Settles O42: a masked search is that of O41 over whole words, which no reading refuses. -/
theorem maskedSearchesFindTheFirst : Obligations.MaskedSearchesFindTheFirst := by
  intro a m s hi c hc hown
  obtain ⟨f, hexec, hf⟩ := exec_maskedSearch hc hown
  have hnext : ∀ s v t, wholeOperand m s = .ok v t → t = stepIndex m s := fun _ _ _ => wholeOperand_ok_direct hi
  rw [hexec]
  refine ⟨fun t h => search_not_found hi hown hnext hf h,
    fun n s1 s2 v hn h hread hyes => search_found hi hown hnext hf hn h hread hyes, fun n s1 hn h => ?_⟩
  obtain ⟨hcount, hframe⟩ := stepIndex_after_unmatched hnext hn h
  refine ⟨hcount, hframe, fun g hg => ⟨wholeOperand_raised_direct hi hg, ?_⟩, fun r =>
    search_ne_refused hi hown fun _ _ => wholeOperand_ne_refused hi⟩
  rw [search_after_unmatched hi hown hnext hf hn h, hg, Res.andThen_raised]

end Sys2Proof.Machine
end

section
/-! The step and EX (60_exceptions.md R279, 49_f72.md R247). EX obeys one equation (`exec_ex`), because one link more
than the chain bound makes no difference: read the word at U and execute it as `exec` does, P still the address of the
EX. -/

namespace Sys2Proof.Machine

variable {m : Xhiu} {s s1 t : State} {u : Addr} {w : Word} {i : Instr} {n k : Nat}

/-! ### The step -/

theorem step_of_hasWord (h : s.hasWord s.p = true) : step s = execWordWith exec (s.mem.read s.p.toNat) s := by
  rw [step, fetch_eq_ok.2 ⟨h, rfl, rfl⟩, Res.andThen_ok]

theorem step_of_decode (h : s.hasWord s.p = true) (hi : decode (s.mem.read s.p.toNat) = some i) :
    step s = exec i s := by
  rw [step_of_hasWord h, execWordWith_of_decode s hi]

theorem step_of_not (h : s.hasWord s.p = false) : step s = .fault (.interrupt (.storageFault s.p .fetch) s) := by
  rw [step, fetch_eq_raised.2 ⟨h, rfl⟩, Res.andThen_raised]
  rfl

/-- Settles O6: the fetch finds the word at P or faults, and the word of a well-formed instruction decodes to it by
O1. -/
theorem stepRunsDecodedInstruction : Obligations.StepRunsDecodedInstruction := by
  intro s
  refine ⟨fun i hp hi => ?_, fun i hp hw hd hi => ?_, fun hp => ?_⟩
  · exact step_of_decode (decide_eq_true hp) hi
  · exact step_of_decode (decide_eq_true hp) (hi ▸ decodeOfEncode i hw hd)
  · exact step_of_not (decide_eq_false hp.not_gt)

/-! ### The word placed for the next step -/

theorem placeWord_read (hs : s.mem.wf) (w : Word) : (placeWord s w).mem.read (placeWord s w).p.toNat = w :=
  Memory.read_write_same hs _ w

/-- Where P lies outside the storage it is taken in (log 21). -/
theorem placeWord_hasWord (s : State) (w : Word) : (placeWord s w).hasWord (placeWord s w).p = true :=
  decide_eq_true ((Nat.lt_succ_self _).trans_le (le_max_right _ _))

/-- Settles O17: the placed word is at P, at an address that exists. -/
theorem placedWordIsExecuted : Obligations.PlacedWordIsExecuted := by
  intro s _ w i hs hi
  have hread := placeWord_read hs (BitVec.ofNat 36 w)
  exact ⟨step_of_decode (placeWord_hasWord s _) (by rw [← hi, ← hread]; rfl), rfl, rfl⟩

/-! ### The word that EX executes -/

/-- The word at U of an EX, and the state that the forming of U leaves (R247). -/
def exWord (m : Xhiu) (s : State) : Res Word := (effAddr m s).bind fun u s1 => memRead .exWord u s1

theorem exWord_eq_ok : exWord m s = .ok w t ↔
    ∃ u, effAddr m s = .ok u t ∧ t.hasWord u = true ∧ w = t.mem.read u.toNat := by
  rw [exWord, Res.bind_eq_ok]
  constructor
  · rintro ⟨u, s1, hu, hr⟩
    obtain ⟨hw, rfl, rfl⟩ := memRead_eq_ok.1 hr
    exact ⟨u, hu, hw, rfl⟩
  · rintro ⟨u, hu, hw, rfl⟩
    exact ⟨u, t, hu, memRead_of_hasWord hw⟩

theorem exLoop_succ (n : Nat) (m : Xhiu) (s : State) : exLoop (n + 1) m s =
    (exWord m s).andThen (execWordWith (execWith fun _ m' s' => exLoop n m' s')) := rfl

/-- Links beyond those that a chain needs change nothing. -/
theorem exLoop_mono (h : exLoop n m s ≠ .fault .endlessExecution) (hk : n ≤ k) : exLoop k m s = exLoop n m s := by
  have hend : links exLink n (m, s) = none :=
    Option.not_isSome_iff_eq_none.1 fun hl => h (exLoop_endless_of_links hl)
  exact exLoop_stable hend hk

/-- The equation of R247: the instruction that EX runs is executed by `exec`, another EX included. -/
theorem exec_ex (a : BitVec 4) (m : Xhiu) (s : State) :
    exec (.ex a m) s = (exWord m s).andThen (execWordWith exec) := by
  have hrun : execWith (fun _ m' s' => exLoop Config.chainBound m' s') = exec :=
    funext₂ fun i s => (exec_eq_execWith i s).symm
  calc exec (.ex a m) s
      = exLoop (Config.chainBound + 1) m s := (exLoop_of_bound_le (Nat.le_succ _) m s).symm
    _ = (exWord m s).andThen (execWordWith exec) := by rw [exLoop_succ, hrun]

theorem exec_ex_of_hasWord (a : BitVec 4) (hu : effAddr m s = .ok u s1) (hw : u.toNat < s.cfg.memWords) :
    exec (.ex a m) s = execWordWith exec (s.mem.read u.toNat) s1 := by
  have hmod := effAddr_ok hu
  have hword : s1.hasWord u = true := (hmod.hasWord u).trans (decide_eq_true hw)
  rw [exec_ex, exWord_eq_ok.2 ⟨u, hu, hword, rfl⟩, Res.andThen_ok, hmod.mem]

theorem exec_ex_of_not (a : BitVec 4) (hu : effAddr m s = .ok u s1) (hw : s.cfg.memWords ≤ u.toNat) :
    exec (.ex a m) s = .fault (.interrupt (.storageFault u .exWord) s1) := by
  have hword : s1.hasWord u = false := ((effAddr_ok hu).hasWord u).trans (decide_eq_false hw.not_gt)
  rw [exec_ex, exWord, hu, Res.bind_ok, memRead_of_not hword, Res.andThen_raised]
  rfl

/-- The bound is exact: a chain that ends after any number of links ends within it. -/
theorem exec_ex_endless_iff (a : BitVec 4) (m : Xhiu) (s : State) :
    exec (.ex a m) s = .fault .endlessExecution ↔ ∀ n, exLoop n m s = .fault .endlessExecution := by
  refine ⟨fun h n => ?_, fun h => h Config.chainBound⟩
  by_contra hn
  apply hn
  calc exLoop n m s
      = exLoop (max n Config.chainBound) m s := (exLoop_mono hn (le_max_left _ _)).symm
    _ = exLoop Config.chainBound m s := exLoop_of_bound_le (le_max_right _ _) m s
    _ = .fault .endlessExecution := h

/-- Settles O56: the equation of EX where the word at U exists and where it does not, and the exact chain bound. -/
theorem exRunsTheWordAtU : Obligations.ExRunsTheWordAtU := by
  refine ⟨fun a m s s1 u hu => ⟨effAddr_ok hu, fun i hw hi => ?_, exec_ex_of_not a hu⟩, exec_ex_endless_iff⟩
  rw [exec_ex_of_hasWord a hu hw, execWordWith_of_decode s1 hi]

/-- Settles O57: the EX is the LA from the state with U formed (O56), and the LA completes as a load does. -/
theorem exOfALoadCompletes : Obligations.ExOfALoadCompletes := by
  intro a j b m m' s s1 s2 u v hu hw hi ho hown
  obtain ⟨hchain, -⟩ := exRunsTheWordAtU
  obtain ⟨hmod, hrun, -⟩ := hchain a m s s1 u hu
  rw [hrun _ hw hi, ← hmod.p]
  exact registerLoad_completes ho hown (aReg b) fun v _ => v

/-- Settles O7: an invalid code is raised where it is decoded, by the step or by EX. -/
theorem invalidCodeInterrupts : Obligations.InvalidCodeInterrupts := by
  refine ⟨fun s hp hi => ?_, fun a m s s1 u hu hw hi => ⟨?_, (effAddr_ok hu).p, effAddr_ok hu⟩, fun _ _ _ _ => rfl⟩
  · exact (step_of_hasWord (decide_eq_true hp)).trans (execWordWith_of_invalid s hi)
  · exact (exec_ex_of_hasWord a hu hw).trans (execWordWith_of_invalid s1 hi)

/-! ### ER -/

/-- Settles O58: all that follows the forming of U is the interrupt. -/
theorem erAlwaysRaises : Obligations.ErAlwaysRaises := by
  refine fun a m s => ⟨fun u s1 hu => ⟨?_, effAddr_ok hu⟩, execEr_ne_next a m s⟩
  change execEr a m s = _
  rw [execEr, hu, Res.andThen_ok]
  rfl

end Sys2Proof.Machine
end

section
/-! Where an instruction stops (00_scope.md R10, 60_exceptions.md R269). An interrupt or a refusal leaves a state, and
one case split over the instructions says which: the state before with only modifiers changed, for an instruction that
does not repeat (`execWith_stops`). Every instruction that stops has kept P and the parameters (`exec_stops`). The
second half follows the run of R279 to its outcome. -/

namespace Sys2Proof.Machine

variable {α β : Type} {P Q : State → Prop} {s s1 t : State} {u : Addr}

/-! ### The state that goes with a stop -/

/-- The interrupt goes with a state of which `P` holds, and a storage fault with an address that does not exist. -/
def Fault.LeavesIn (P : State → Prop) : Fault → Prop
  | .interrupt e t => P t ∧ ∀ u k, e = .storageFault u k → t.hasWord u = false
  | .endlessIndirection => True
  | .endlessExecution => True

/-- The refusal is one of the spec's, which leaves a state to the host, and `P` holds of it (R279). -/
def Refusal.LeavesIn (P : State → Prop) (r : Refusal) : Prop := ∃ t, r.state = some t ∧ P t

theorem Fault.LeavesIn.mono {f : Fault} (h : f.LeavesIn P) (hPQ : ∀ t, P t → Q t) : f.LeavesIn Q := by
  cases f with
  | interrupt e t => exact h.imp_left (hPQ t)
  | endlessIndirection => trivial
  | endlessExecution => trivial

theorem Refusal.LeavesIn.mono {r : Refusal} (h : r.LeavesIn P) (hPQ : ∀ t, P t → Q t) : r.LeavesIn Q := by
  obtain ⟨t, ht, hP⟩ := h
  exact ⟨t, ht, hPQ t hP⟩

theorem storageFault_leavesIn (k : AccessKind) (hs : P s) (hw : s.hasWord u = false) :
    (storageFault k u s).LeavesIn P :=
  ⟨hs, fun u' k' h => by cases h; exact hw⟩

/-- The stops of an operation leave states of which `P` holds. -/
structure Res.StopsIn (P : State → Prop) (r : Res α) : Prop where
  fault : ∀ f, r = .raised f → f.LeavesIn P
  refusal : ∀ f, r = .refused f → f.LeavesIn P

/-- The stops of an instruction leave states of which `P` holds. -/
structure AnswerStopsIn (P : State → Prop) (r : Answer) : Prop where
  fault : ∀ f, r = .fault f → f.LeavesIn P
  refusal : ∀ f, r = .refused f → f.LeavesIn P

theorem Res.StopsIn.mono {r : Res α} (h : r.StopsIn P) (hPQ : ∀ t, P t → Q t) : r.StopsIn Q :=
  ⟨fun f hf => (h.fault f hf).mono hPQ, fun f hf => (h.refusal f hf).mono hPQ⟩

theorem AnswerStopsIn.mono {r : Answer} (h : AnswerStopsIn P r) (hPQ : ∀ t, P t → Q t) : AnswerStopsIn Q r :=
  ⟨fun f hf => (h.fault f hf).mono hPQ, fun f hf => (h.refusal f hf).mono hPQ⟩

theorem answerStopsIn_next (P : State → Prop) (t : State) : AnswerStopsIn P (.next t) := ⟨nofun, nofun⟩

theorem answerStopsIn_fault {f : Fault} (h : f.LeavesIn P) : AnswerStopsIn P (.fault f) :=
  ⟨fun _ hf => by cases hf; exact h, nofun⟩

theorem answerStopsIn_refused {r : Refusal} (h : r.LeavesIn P) : AnswerStopsIn P (.refused r) :=
  ⟨nofun, fun _ hr => by cases hr; exact h⟩

theorem Res.stopsIn_ok (P : State → Prop) (v : α) (t : State) : (Res.ok v t).StopsIn P := ⟨nofun, nofun⟩

theorem Res.stopsIn_refused {r : Refusal} (h : r.LeavesIn P) : (Res.refused r : Res α).StopsIn P :=
  ⟨nofun, fun _ hr => by cases hr; exact h⟩

/-! Operations put together stop where their parts do. -/

theorem Res.StopsIn.bind {r : Res α} {k : α → State → Res β} (h : r.StopsIn P)
    (hk : ∀ v t, r = .ok v t → (k v t).StopsIn P) : (r.bind k).StopsIn P := by
  cases r with
  | ok v t => exact hk v t rfl
  | raised f => exact ⟨fun g hg => by cases hg; exact h.fault f rfl, nofun⟩
  | refused f => exact ⟨nofun, fun g hg => by cases hg; exact h.refusal f rfl⟩

theorem Res.StopsIn.andThen {r : Res α} {k : α → State → Answer} (h : r.StopsIn P)
    (hk : ∀ v t, r = .ok v t → AnswerStopsIn P (k v t)) : AnswerStopsIn P (r.andThen k) := by
  cases r with
  | ok v t => exact hk v t rfl
  | raised f => exact answerStopsIn_fault (h.fault f rfl)
  | refused f => exact answerStopsIn_refused (h.refusal f rfl)

theorem Res.StopsIn.toNext {r : Res α} (h : r.StopsIn P) (k : α → State → State) : AnswerStopsIn P (r.toNext k) :=
  h.andThen fun _ _ _ => answerStopsIn_next P _

/-! ### Accesses, which stop with nothing changed -/

section Accesses

variable {k : AccessKind} {v : Word} {d : DWord} {p : Part} (hs : P s)
include hs

theorem memRead_stops : (memRead k u s).StopsIn P where
  fault f h := by
    obtain ⟨hw, rfl⟩ := memRead_eq_raised.1 h
    exact storageFault_leavesIn k hs hw
  refusal f h := absurd h memRead_ne_refused

theorem memWrite_stops : (memWrite k u v s).StopsIn P where
  fault f h := by
    obtain ⟨hw, rfl⟩ := memWrite_eq_raised.1 h
    exact storageFault_leavesIn k hs hw
  refusal f h := absurd h memWrite_ne_refused

theorem opRead_stops : (opRead u s).StopsIn P where
  fault f h := by
    obtain ⟨-, hw, rfl⟩ := opRead_eq_raised.1 h
    exact storageFault_leavesIn _ hs hw
  refusal f h := absurd h opRead_ne_refused

theorem opWrite_stops : (opWrite u v s).StopsIn P where
  fault f h := by
    obtain ⟨-, hw, rfl⟩ := opWrite_eq_raised.1 h
    exact storageFault_leavesIn _ hs hw
  refusal f h := absurd h opWrite_ne_refused

theorem opRead2_stops : (opRead2 u s).StopsIn P where
  fault f h := by
    obtain ⟨-, ⟨hw, rfl⟩ | ⟨-, hw, rfl⟩⟩ := opRead2_eq_raised.1 h
    all_goals exact storageFault_leavesIn _ hs hw
  refusal f h := by
    obtain ⟨-, rfl⟩ := opRead2_eq_refused.1 h
    exact ⟨s, rfl, hs⟩

theorem opWrite2_stops : (opWrite2 u d s).StopsIn P where
  fault f h := by
    obtain ⟨-, ⟨hw, rfl⟩ | ⟨-, hw, rfl⟩⟩ := opWrite2_eq_raised.1 h
    all_goals exact storageFault_leavesIn _ hs hw
  refusal f h := by
    obtain ⟨-, rfl⟩ := opWrite2_eq_refused.1 h
    exact ⟨s, rfl, hs⟩

theorem partWrite_stops : (partWrite p u v s).StopsIn P where
  fault f h := by
    obtain ⟨-, hw, rfl⟩ := partWrite_eq_raised.1 h
    exact storageFault_leavesIn _ hs hw
  refusal f h := by
    obtain ⟨-, rfl⟩ := partWrite_eq_refused.1 h
    exact ⟨s, rfl, hs⟩

end Accesses

/-! ### Addresses and operands, which increment modifiers before they stop -/

variable {own : List RegAddr} {j a : BitVec 4} {m : Xhiu}

theorem effAddr_stops : (effAddr m s).StopsIn (OnlyModifiers s) where
  fault f h := by
    rcases effAddr_raised h with rfl | ⟨u, t, ht, -, hw, rfl⟩
    · trivial
    · exact storageFault_leavesIn _ ht ((ht.hasWord u).trans hw)
  refusal f h := by
    obtain ⟨t, ht, rfl⟩ := effAddr_refused h
    exact ⟨t, rfl, ht⟩

theorem operand_stops : (operand j m s).StopsIn (OnlyModifiers s) where
  fault f h := by
    rcases operand_raised h with rfl | ⟨k, u, t, -, ht, -, hw, rfl⟩
    · trivial
    · exact storageFault_leavesIn k ht ((ht.hasWord u).trans hw)
  refusal f h := by
    obtain ⟨t, ht, rfl | rfl | rfl⟩ := operand_refused h
    all_goals exact ⟨t, rfl, ht⟩

theorem checkOwn_stops : (checkOwn own m s).StopsIn (OnlyModifiers s) where
  fault f h := absurd h checkOwn_ne_raised
  refusal f h := by
    obtain ⟨-, rfl⟩ := checkOwn_eq_refused.1 h
    exact ⟨s, rfl, .refl s⟩

theorem ownAddr_stops : (ownAddr own m s).StopsIn (OnlyModifiers s) :=
  checkOwn_stops.bind fun _ t ht => by
    obtain ⟨-, rfl⟩ := checkOwn_eq_ok.1 ht
    exact effAddr_stops

theorem ownOperand_stops : (ownOperand own j m s).StopsIn (OnlyModifiers s) :=
  checkOwn_stops.bind fun _ t ht => by
    obtain ⟨-, rfl⟩ := checkOwn_eq_ok.1 ht
    exact operand_stops

theorem doubleOperand_stops : (doubleOperand a m s).StopsIn (OnlyModifiers s) :=
  ownAddr_stops.bind fun _ _ hu => opRead2_stops (ownAddr_ok hu)

theorem exWord_stops : (exWord m s).StopsIn (OnlyModifiers s) :=
  effAddr_stops.bind fun _ _ hu => memRead_stops (effAddr_ok hu)

/-! ### The families of instructions that do not repeat -/

theorem storeOperand_stops {v : State → Word} : (storeOperand own j m v s).StopsIn (OnlyModifiers s) := by
  unfold storeOperand
  split
  · exact ownAddr_stops.bind fun _ _ hu => partWrite_stops (ownAddr_ok hu)
  all_goals exact Res.stopsIn_refused ⟨s, rfl, .refl s⟩

theorem f05At_stops {p : Part} {w : Word} (hs : P s) : AnswerStopsIn P (f05At a p u w s) := by
  unfold f05At
  split
  · exact answerStopsIn_refused ⟨s, rfl, hs⟩
  · refine (opRead_stops hs).andThen fun v t ht => ?_
    obtain ⟨rfl, -⟩ := opRead_eq_ok.1 ht
    exact (opWrite_stops hs).toNext _

theorem f05Arith_stops {w : Word} : AnswerStopsIn (OnlyModifiers s) (f05Arith a j m w s) := by
  unfold f05Arith
  split
  · exact effAddr_stops.andThen fun _ _ hu => f05At_stops (effAddr_ok hu)
  all_goals exact answerStopsIn_refused ⟨s, rfl, .refl s⟩

/-- The divide fault comes after the operand is read and before a register is written (R264). -/
theorem divide_stops {i : Instr} {dividend : State → Bool × Nat} {k : Word → Word → State → State} :
    AnswerStopsIn (OnlyModifiers s) (divide i own j m dividend k s) := by
  refine ownOperand_stops.andThen fun v t ho => ?_
  split
  · exact answerStopsIn_fault ⟨ownOperand_ok ho, nofun⟩
  · exact answerStopsIn_next _ _

theorem flagged1110_stops {i : Instr} : AnswerStopsIn (OnlyModifiers s) (flagged1110 i s) := by
  unfold flagged1110
  split
  · exact answerStopsIn_fault ⟨.refl s, nofun⟩
  · exact answerStopsIn_refused ⟨s, rfl, .refl s⟩

theorem execDs_stops : AnswerStopsIn (OnlyModifiers s) (execDs a m s) :=
  (ownAddr_stops.bind fun _ _ hu => opWrite2_stops (ownAddr_ok hu)).toNext _

theorem addParts_stops {op : Word → Word → Word} : AnswerStopsIn (OnlyModifiers s) (addParts a m op s) :=
  (ownAddr_stops.bind fun _ _ hu => opRead_stops (ownAddr_ok hu)).toNext _

/-- The word is at an address that the read has found to exist, so the write does not fault. -/
theorem execSlj_stops : AnswerStopsIn (OnlyModifiers s) (execSlj a m s) := by
  refine (effAddr_stops.bind fun u s1 hu => ?_).toNext _
  refine (memRead_stops (effAddr_ok hu)).bind fun w s2 hr => ?_
  obtain ⟨-, -, rfl⟩ := memRead_eq_ok.1 hr
  exact (memWrite_stops (effAddr_ok hu)).bind fun _ _ _ => Res.stopsIn_ok _ _ _

theorem execEr_stops : AnswerStopsIn (OnlyModifiers s) (execEr a m s) :=
  effAddr_stops.andThen fun _ _ hu => answerStopsIn_fault ⟨effAddr_ok hu, nofun⟩

/-- An instruction that does not repeat stops with modifiers changed and nothing else. -/
theorem execWith_stops {onEx : BitVec 4 → Xhiu → State → Answer} {i : Instr} (hi : i.mnemonic ∉ repeaters) :
    AnswerStopsIn (OnlyModifiers s) (execWith onEx i s) := by
  unfold execWith
  cases i with
  | sa | sna | sma | sr | sz | snz | sp1 | sn1 | sfs | sfz | sas | sx => exact storeOperand_stops.toNext _
  | inc | dec | inc2 | dec2 | enz => exact f05Arith_stops
  | ldj | lij | lpd | spd | lbj | srs | lrs => exact answerStopsIn_refused ⟨s, rfl, .refl s⟩
  | la | lna | lma | lnma | aa | ana | ama | anma | au | anu | lr | ax | anx | lxm | lx | mi | msi | mf | or | xor
  | and | mlu | xli | tlem | tep | top | tz | tnz | te | tne | tle | tg | tw | tnw | tp | tn =>
    exact ownOperand_stops.toNext _
  | di | dsf | df => exact divide_stops
  | bm | bmt | btc | bc | bpd | pdb | edit | bi | bdi | ib | dib | bf | bdf | fb | dfb | qb | bq | qbh | bqh | qdb
  | dbq | ba | ban => exact flagged1110_stops
  | bt | se | sne | sle | sg | sw | snw | mse | msne | msle | msg | msw | msnw | masl | masg | ex =>
    exact absurd (by simp [Instr.mnemonic, repeaters]) hi
  | da | dan | dl | dln | dlm | dte => exact doubleOperand_stops.toNext _
  | jgd | djz | jps | jns => exact ownAddr_stops.toNext _
  | ds => exact execDs_stops
  | ah | anh | at_ | ant => exact addParts_stops
  | slj => exact execSlj_stops
  | er => exact execEr_stops

/-! ### The instructions that repeat, and EX -/

theorem searchLoop_stops {next : State → Res Word} {c : Word → State → Bool} {n : Nat}
    (hstops : ∀ s, (next s).StopsIn (OnlyModifiers s)) (hok : ∀ s v t, next s = .ok v t → OnlyModifiers s t) :
    AnswerStopsIn (InPlace s) (searchLoop next c n s) := by
  induction n generalizing s with
  | zero => exact answerStopsIn_next _ _
  | succ n ih =>
    refine ((hstops s).mono fun _ => OnlyModifiers.inPlace).andThen fun v s1 hv => ?_
    split
    · exact answerStopsIn_next _ _
    · have hs1 : InPlace s (s1.setRepeatCount (BitVec.ofNat 18 n)) := (hok s v s1 hv).inPlace.trans (.setReg ..)
      exact ih.mono fun _ => hs1.trans

theorem search_stops {next : State → Res Word} {c : Word → State → Bool}
    (hstops : ∀ s, (next s).StopsIn (OnlyModifiers s)) (hok : ∀ s v t, next s = .ok v t → OnlyModifiers s t) :
    AnswerStopsIn (InPlace s) (search own m next c s) := by
  unfold search
  split
  · exact answerStopsIn_refused ⟨s, rfl, (OnlyModifiers.refl s).inPlace⟩
  · refine (checkOwn_stops.mono fun _ => OnlyModifiers.inPlace).andThen fun _ t ht => ?_
    obtain ⟨-, rfl⟩ := checkOwn_eq_ok.1 ht
    exact searchLoop_stops hstops hok

theorem plainSearch_stops {c : Word → State → Bool} : AnswerStopsIn (InPlace s) (plainSearch own j m c s) :=
  search_stops (fun _ => operand_stops) fun _ _ _ => operand_ok

theorem wholeOperand_stops : (wholeOperand m s).StopsIn (OnlyModifiers s) :=
  effAddr_stops.bind fun _ _ hu => opRead_stops (effAddr_ok hu)

theorem maskedSearch_stops {c : Word → Word → State → Bool} :
    AnswerStopsIn (InPlace s) (maskedSearch own m c s) :=
  search_stops (fun _ => wholeOperand_stops) fun _ _ _ => wholeOperand_ok

theorem btMove_stops {p : Part} (hs : P s) : (btMove p a m s).StopsIn P := by
  unfold btMove
  split
  · exact Res.stopsIn_refused ⟨s, rfl, hs⟩
  · refine (opRead_stops hs).bind fun w t ht => ?_
    obtain ⟨rfl, -⟩ := opRead_eq_ok.1 ht
    exact partWrite_stops hs

/-- A repetition of BT up to the next leaves P and the parameters. -/
theorem btMove_next_inPlace {p : Part} {x : Unit} (h : btMove p a m s = .ok x s1) (c : BitVec 18) :
    InPlace s ((btIndex a m s1).setRepeatCount c) :=
  (btMove_inPlace h).trans ⟨.of_mem_eq (btIndex_mem a m s1) (btIndex_cfg a m s1), btIndex_p a m s1⟩

theorem btLoop_stops {p : Part} {n : Nat} : AnswerStopsIn (InPlace s) (btLoop p a m n s) := by
  induction n generalizing s with
  | zero => exact answerStopsIn_next _ _
  | succ n ih =>
    exact (btMove_stops (OnlyModifiers.refl s).inPlace).andThen fun _ s1 hmove =>
      ih.mono fun _ => (btMove_next_inPlace hmove _).trans

theorem execBt_stops : AnswerStopsIn (InPlace s) (execBt j a m s) := by
  have hrefl : InPlace s s := (OnlyModifiers.refl s).inPlace
  unfold execBt
  split
  · exact answerStopsIn_refused ⟨s, rfl, hrefl⟩
  · split
    · exact btLoop_stops
    all_goals exact answerStopsIn_refused ⟨s, rfl, hrefl⟩

/-- Every instruction stops with P in place, when every EX inside it does. -/
theorem execWith_stops_inPlace {onEx : BitVec 4 → Xhiu → State → Answer}
    (hex : ∀ a m, AnswerStopsIn (InPlace s) (onEx a m s)) (i : Instr) :
    AnswerStopsIn (InPlace s) (execWith onEx i s) := by
  by_cases hi : i.mnemonic ∈ repeaters
  · unfold execWith
    cases i with
    | bt => exact execBt_stops
    | se | sne | sle | sg | sw | snw => exact plainSearch_stops
    | mse | msne | msle | msg | msw | msnw | masl | masg => exact maskedSearch_stops
    | ex => exact hex _ _
    | _ => exact absurd hi (by simp [Instr.mnemonic, repeaters])
  · exact (execWith_stops hi).mono fun _ => OnlyModifiers.inPlace

theorem execWordWith_stops {run : Instr → State → Answer} (hrun : ∀ i, AnswerStopsIn (InPlace s) (run i s))
    (w : Word) : AnswerStopsIn (InPlace s) (execWordWith run w s) := by
  cases hd : decode w with
  | none =>
    rw [execWordWith_of_invalid s hd]
    exact answerStopsIn_fault ⟨(OnlyModifiers.refl s).inPlace, nofun⟩
  | some i =>
    rw [execWordWith_of_decode s hd]
    exact hrun i

theorem exLoop_stops {n : Nat} : AnswerStopsIn (InPlace s) (exLoop n m s) := by
  induction n generalizing m s with
  | zero => exact answerStopsIn_fault trivial
  | succ n ih =>
    rw [exLoop_succ]
    refine (exWord_stops.mono fun _ => OnlyModifiers.inPlace).andThen fun w s1 hw => ?_
    obtain ⟨u, hu, -, -⟩ := exWord_eq_ok.1 hw
    exact (execWordWith_stops (execWith_stops_inPlace fun _ _ => ih) w).mono fun _ => (effAddr_ok hu).inPlace.trans

theorem exec_stops (i : Instr) (s : State) : AnswerStopsIn (InPlace s) (exec i s) := by
  rw [exec_eq_execWith]
  exact execWith_stops_inPlace (fun _ _ => exLoop_stops) i

theorem step_stops (s : State) : AnswerStopsIn (InPlace s) (step s) :=
  (memRead_stops (OnlyModifiers.refl s).inPlace).andThen fun w s1 hw => by
    obtain ⟨-, -, rfl⟩ := fetch_eq_ok.1 hw
    exact execWordWith_stops (fun i => exec_stops i s1) w

/-! ### With a full storage -/

/-- Every address exists where `MEM_WORDS` is 2^18, so nothing that stops in place is a storage fault. -/
theorem AnswerStopsIn.ne_storageFault {r : Answer} (h : AnswerStopsIn (InPlace s) r) (hfull : s.cfg.memWords = 2 ^ 18)
    (u : Addr) (k : AccessKind) (t : State) : r ≠ .fault (.interrupt (.storageFault u k) t) := by
  intro hr
  obtain ⟨ht, hword⟩ := h.fault _ hr
  have hmissing : ¬u.toNat < t.cfg.memWords := of_decide_eq_false (hword u k rfl)
  rw [ht.cfg, hfull] at hmissing
  exact hmissing u.isLt

/-- Settles O16: a storage fault names an address that does not exist, and with 2^18 words every address does. -/
theorem fullStorageNeverFaults : Obligations.FullStorageNeverFaults := by
  intro s hfull u k t
  exact ⟨(step_stops s).ne_storageFault hfull u k t, fun i => (exec_stops i s).ne_storageFault hfull u k t⟩

/-! ### Runs (R279, R292) -/

theorem runFor_of_end {n : Nat} (h : s.p = s.cfg.endAddr) : runFor n s = .atEnd s := by
  cases n <;> exact if_pos h

theorem runFor_zero_of_ne (h : s.p ≠ s.cfg.endAddr) : runFor 0 s = .running s := if_neg h

theorem runFor_of_next {n : Nat} (h : s.p ≠ s.cfg.endAddr) (hs : step s = .next t) :
    runFor (n + 1) s = runFor n t := by rw [runFor, if_neg h, hs]

theorem runFor_of_fault {n : Nat} {f : Fault} (h : s.p ≠ s.cfg.endAddr) (hs : step s = .fault f) :
    runFor (n + 1) s = .raised f := by rw [runFor, if_neg h, hs]

theorem runFor_of_refused {n : Nat} {r : Refusal} (h : s.p ≠ s.cfg.endAddr) (hs : step s = .refused r) :
    runFor (n + 1) s = .refused r := by rw [runFor, if_neg h, hs]

/-- An outcome of a run is final, and a run that is not over goes on from its state. -/
theorem runFor_add (n k : Nat) (s : State) :
    ((∀ t, runFor n s ≠ .running t) → runFor (n + k) s = runFor n s) ∧
      (∀ t, runFor n s = .running t → runFor (n + k) s = runFor k t) := by
  induction n generalizing s with
  | zero =>
    by_cases hend : s.p = s.cfg.endAddr
    · simp [runFor_of_end hend]
    · rw [runFor_zero_of_ne hend, Nat.zero_add]
      exact ⟨fun h => absurd rfl (h s), fun t ht => by cases ht; rfl⟩
  | succ n ih =>
    rw [Nat.succ_add]
    by_cases hend : s.p = s.cfg.endAddr
    · simp [runFor_of_end hend]
    · cases hs : step s with
      | next t => rw [runFor_of_next hend hs, runFor_of_next hend hs]; exact ih t
      | fault f => simp [runFor_of_fault hend hs]
      | refused r => simp [runFor_of_refused hend hs]

theorem Reaches.head (hs : Machine.step s = .next s1) (h : Reaches s1 t) : Reaches s t := by
  induction h with
  | refl => exact .step .refl hs
  | step _ hlast ih => exact .step ih hlast

/-- How a run from `s` that has come to the given outcome has come there: by steps that each answered a next state. -/
def EndsAfter (s : State) : RunEnd → Prop
  | .atEnd t => Reaches s t ∧ t.p = s.cfg.endAddr
  | .raised f => ∃ t, Reaches s t ∧ t.p ≠ s.cfg.endAddr ∧ step t = .fault f
  | .refused r => ∃ t, Reaches s t ∧ t.p ≠ s.cfg.endAddr ∧ step t = .refused r
  | .running t => Reaches s t ∧ t.p ≠ s.cfg.endAddr

theorem EndsAfter.head {r : RunEnd} (hs : step s = .next s1) (h : EndsAfter s1 r) : EndsAfter s r := by
  have hcfg := (step_keeps hs).cfg
  cases r with
  | atEnd t | running t => exact ⟨h.1.head hs, hcfg ▸ h.2⟩
  | raised f | refused f =>
    obtain ⟨t, ht, hne, hstop⟩ := h
    exact ⟨t, ht.head hs, hcfg ▸ hne, hstop⟩

theorem runFor_endsAfter (n : Nat) (s : State) : EndsAfter s (runFor n s) := by
  induction n generalizing s with
  | zero =>
    by_cases hend : s.p = s.cfg.endAddr
    · rw [runFor_of_end hend]; exact ⟨.refl, hend⟩
    · rw [runFor_zero_of_ne hend]; exact ⟨.refl, hend⟩
  | succ n ih =>
    by_cases hend : s.p = s.cfg.endAddr
    · rw [runFor_of_end hend]; exact ⟨.refl, hend⟩
    · cases hs : step s with
      | next t => rw [runFor_of_next hend hs]; exact (ih t).head hs
      | fault f => rw [runFor_of_fault hend hs]; exact ⟨s, .refl, hend, hs⟩
      | refused r => rw [runFor_of_refused hend hs]; exact ⟨s, .refl, hend, hs⟩

/-- Settles O14: P and the parameters are kept by whatever stops in place, a refusal by mnemonic leaves no state at all,
and the run is followed by induction on the steps allowed. -/
theorem stopsLeaveP : Obligations.StopsLeaveP := by
  refine ⟨fun i s t e h => ?_, fun i s t r h hr => ?_, fun i s n h => ?_, fun n s => ⟨runFor_of_end, fun hne =>
    ⟨runFor_zero_of_ne hne, fun _ => runFor_of_next hne, fun _ => runFor_of_fault hne, fun _ => runFor_of_refused hne⟩⟩,
    runFor_add, fun n s => ?_⟩
  · obtain ⟨ht, -⟩ := (exec_stops i s).fault _ h
    exact ⟨ht.p, ht.cfg⟩
  · obtain ⟨t', hr', ht⟩ := (exec_stops i s).refusal r h
    cases hr.symm.trans hr'
    exact ⟨ht.p, ht.cfg⟩
  · obtain ⟨t, ht, -⟩ := (exec_stops i s).refusal _ h
    cases ht
  · have hends := runFor_endsAfter n s
    refine ⟨?_, ?_, ?_, ?_⟩
    all_goals
      intro _ hr
      rwa [hr] at hends

end Sys2Proof.Machine
end

section
/-! Precision of interrupts (60_exceptions.md R267, R269). An interrupted search or block transfer is followed by
induction on the count, by the recursion equations `search_succ` and `exec_bt_succ`; an interrupted EX by induction on
the links of its chain. -/

namespace Sys2Proof.Machine

variable {j a : BitVec 4} {m : Xhiu} {s t : State} {e : Event} {n : Nat}

/-- An instruction that does not repeat is interrupted with modifiers changed and nothing else. -/
theorem exec_interrupted {i : Instr} (hi : i.mnemonic ∉ repeaters) (h : exec i s = .fault (.interrupt e t)) :
    OnlyModifiers s t := by
  rw [exec_eq_execWith] at h
  obtain ⟨ht, -⟩ := (execWith_stops hi).fault _ h
  exact ht

/-! ### Searches -/

section Search

variable {own : List RegAddr} {next : State → Res Word} {c : Word → State → Bool} {cond : Word → Bool}
  (hi : m.i = false) (hown : ¬UsesOwn own m) (hok : ∀ s v t, next s = .ok v t → t = stepIndex m s)
  (hraised : ∀ s e t, next s = .raised (.interrupt e t) → t = stepIndex m s)
include hi hown hok hraised

/-- A search that is interrupted has met no match, and has formed the address of its next operand. -/
theorem search_interrupted (hc : AgreesFrom m s c cond) (h : search own m next c s = .fault (.interrupt e t)) :
    ∃ n s1, n < s.repeatCount.toNat ∧ Unmatched next cond n s s1 ∧ t = stepIndex m s1 := by
  generalize hn : s.repeatCount.toNat = k at *
  induction k generalizing s with
  | zero =>
    rw [search_zero hi hown (BitVec.eq_of_toNat_eq hn)] at h
    cases h
  | succ k ih =>
    have hcount : s.repeatCount ≠ 0 := fun h0 => by simp [h0] at hn
    have hleft := toNat_sub_one_of_ne_zero hcount
    rw [search_succ hi hown hcount] at h
    rcases Res.andThen_eq_fault.1 h with hstop | ⟨v, s1, hread, hrest⟩
    · exact ⟨0, s, k.succ_pos, .zero s, hraised s e t hstop⟩
    · have hframe : SearchFrame m s s1 := hok s v s1 hread ▸ stepIndex_searchFrame m s
      split at hrest
      · cases hrest
      next hno =>
      have hno' : cond v = false := (hc v s1 hframe).symm.trans (Bool.not_eq_true _ ▸ hno)
      obtain ⟨n, s2, hlt, hunmatched, ht⟩ :=
        ih (hc.of_frame (hframe.trans (setRepeatCount_searchFrame m s1 _))) hrest
          (by rw [State.repeatCount_setRepeatCount]; omega)
      exact ⟨n + 1, s2, Nat.succ_lt_succ hlt, .succ hread hno' hunmatched, ht⟩

/-- The same with the count and the frame at the interrupt. -/
theorem search_interrupted_frame (hc : AgreesFrom m s c cond) (h : search own m next c s = .fault (.interrupt e t)) :
    ∃ n s1, n < s.repeatCount.toNat ∧ Unmatched next cond n s s1 ∧ t = stepIndex m s1 ∧
      t.repeatCount.toNat = s.repeatCount.toNat - n ∧ SearchFrame m s t := by
  obtain ⟨n, s1, hn, hunmatched, rfl⟩ := search_interrupted hi hown hok hraised hc h
  exact ⟨n, s1, hn, hunmatched, rfl, stepIndex_after_unmatched hok hn hunmatched⟩

end Search

/-- A search that R93 or R97 refuses is not interrupted. -/
theorem allowed_of_search_interrupted {c : Instr × List RegAddr × (Word → Bool)}
    (hc : c ∈ plainSearches j a m s ++ maskedSearches a m s) (h : exec c.1 s = .fault (.interrupt e t)) :
    m.i = false ∧ ¬UsesOwn c.2.1 m := by
  obtain ⟨next, cond, hsearch⟩ := exec_search hc s
  rw [hsearch] at h
  obtain ⟨hi, hown, -⟩ := search_fault.1 h
  exact ⟨hi, hown⟩

theorem operand_interrupted_direct (hi : m.i = false) (h : operand j m s = .raised (.interrupt e t)) :
    t = stepIndex m s := by
  cases operand_raised_direct hi h
  rfl

theorem wholeOperand_interrupted_direct (hi : m.i = false) (h : wholeOperand m s = .raised (.interrupt e t)) :
    t = stepIndex m s := by
  cases wholeOperand_raised_direct hi h
  rfl

/-! ### Block transfer -/

theorem Transfers.toNat_repeatCount {p : Part} (h : Transfers p a m n s t) (hn : n ≤ s.repeatCount.toNat) :
    t.repeatCount.toNat = s.repeatCount.toNat - n := by
  induction h with
  | zero s => rfl
  | @succ n s s1 t move rest ih =>
    have hleft := toNat_sub_one_of_ne_zero (c := s.repeatCount) fun h => by simp [h] at hn
    rw [State.repeatCount_setRepeatCount] at ih
    omega

/-- A block transfer is interrupted at the start of a repetition, because a move that faults has changed nothing. -/
theorem exec_bt_interrupted {p : Part} (hi : m.i = false) (hp : designate s.cfg.qwMode j = .part p)
    (h : exec (.bt j a m) s = .fault (.interrupt e t)) :
    ∃ n, n < s.repeatCount.toNat ∧ Transfers p a m n s t := by
  generalize hn : s.repeatCount.toNat = k at *
  induction k generalizing s with
  | zero =>
    rw [exec_bt_zero a hi hp (BitVec.eq_of_toNat_eq hn)] at h
    cases h
  | succ k ih =>
    have hcount : s.repeatCount ≠ 0 := fun h0 => by simp [h0] at hn
    have hleft := toNat_sub_one_of_ne_zero hcount
    rw [exec_bt_succ a hi hp hcount] at h
    rcases Res.andThen_eq_fault.1 h with hstop | ⟨_, s1, hmove, hrest⟩
    · obtain ⟨kind, u, hfault⟩ := btMove_raised hstop
      cases hfault
      exact ⟨0, k.succ_pos, .zero _⟩
    · obtain ⟨n, hlt, htransfers⟩ := ih (by rw [(btMove_next_inPlace hmove _).cfg, hp]) hrest
        (by rw [State.repeatCount_setRepeatCount]; omega)
      exact ⟨n + 1, Nat.succ_lt_succ hlt, .succ hmove htransfers⟩

/-- Only a BT that R93 and R95 do not refuse faults. -/
theorem exec_bt_fault {f : Fault} (h : exec (.bt j a m) s = .fault f) :
    m.i = false ∧ ∃ p, designate s.cfg.qwMode j = .part p := by
  change execBt j a m s = _ at h
  unfold execBt at h
  split at h
  · cases h
  next hi =>
  split at h
  · next p hp => exact ⟨Bool.not_eq_true _ ▸ hi, p, hp⟩
  · cases h
  · cases h

/-! ### EX -/

theorem mnemonic_eq_ex {i : Instr} : i.mnemonic = "EX" ↔ ∃ a m, i = .ex a m := by
  cases i with
  | ex a m => exact ⟨fun _ => ⟨a, m, rfl⟩, fun _ => rfl⟩
  | _ => simp [Instr.mnemonic]

/-- A BT or a search of main storage that is interrupted in `t`, from a state that differs from `s` in modifiers
alone. -/
def RepeaterInterrupted (s : State) (e : Event) (t : State) : Prop :=
  ∃ (i : Instr) (u : Addr) (s1 : State), decode (s.mem.read u.toNat) = some i ∧ i.mnemonic ∈ repeaters ∧
    i.mnemonic ≠ "EX" ∧ OnlyModifiers s s1 ∧ exec i s1 = .fault (.interrupt e t)

theorem RepeaterInterrupted.of_onlyModifiers {s1 : State} (hs : OnlyModifiers s s1)
    (h : RepeaterInterrupted s1 e t) : RepeaterInterrupted s e t := by
  obtain ⟨i, u, s2, hi, hrep, hex, hs2, hexec⟩ := h
  exact ⟨i, u, s2, hs.mem ▸ hi, hrep, hex, hs.trans hs2, hexec⟩

theorem exLoop_interrupted (h : exLoop n m s = .fault (.interrupt e t)) :
    OnlyModifiers s t ∨ RepeaterInterrupted s e t := by
  induction n generalizing m s with
  | zero => cases h
  | succ n ih =>
    rw [exLoop_succ] at h
    rcases Res.andThen_eq_fault.1 h with hstop | ⟨w, s1, hw, hrun⟩
    · obtain ⟨ht, -⟩ := exWord_stops.fault _ hstop
      exact .inl ht
    obtain ⟨u, hu, -, rfl⟩ := exWord_eq_ok.1 hw
    have hs1 := effAddr_ok hu
    cases hi : decode (s1.mem.read u.toNat) with
    | none =>
      rw [execWordWith_of_invalid s1 hi] at hrun
      cases hrun
      exact .inl hs1
    | some i =>
      rw [execWordWith_of_decode s1 hi] at hrun
      by_cases hex : i.mnemonic = "EX"
      · obtain ⟨a, m', rfl⟩ := mnemonic_eq_ex.1 hex
        exact (ih hrun).imp hs1.trans (.of_onlyModifiers hs1)
      · rw [execWith_of_not_ex s1 fun a m' hi => hex (mnemonic_eq_ex.2 ⟨a, m', hi⟩)] at hrun
        by_cases hrep : i.mnemonic ∈ repeaters
        · exact .inr ⟨i, u, s1, hs1.mem ▸ hi, hrep, hex, hs1, hrun⟩
        · exact .inl (hs1.trans (exec_interrupted hrep hrun))

/-- Settles O15: the instructions that do not repeat by the case split of `execWith_stops`, the searches and BT by
induction on the count, EX by induction on its chain. -/
theorem interruptsArePrecise : Obligations.InterruptsArePrecise := by
  refine ⟨fun i s t e h hi => exec_interrupted hi h, fun j a m s t e => ?_⟩
  refine ⟨fun c hc h => ?_, fun c hc h => ?_, fun h => ?_, exLoop_interrupted⟩
  case refine_1 =>
    obtain ⟨hi, hown⟩ := allowed_of_search_interrupted (List.mem_append_left _ hc) h
    obtain ⟨f, hexec, hf⟩ := exec_plainSearch hc hown
    exact search_interrupted_frame hi hown (fun _ _ _ => operand_ok_direct hi)
      (fun _ _ _ => operand_interrupted_direct hi) hf (hexec ▸ h)
  case refine_2 =>
    obtain ⟨hi, hown⟩ := allowed_of_search_interrupted (j := j) (List.mem_append_right _ hc) h
    obtain ⟨f, hexec, hf⟩ := exec_maskedSearch hc hown
    exact search_interrupted_frame hi hown (fun _ _ _ => wholeOperand_ok_direct hi)
      (fun _ _ _ => wholeOperand_interrupted_direct hi) hf (hexec ▸ h)
  case refine_3 =>
    obtain ⟨hi, p, hp⟩ := exec_bt_fault h
    obtain ⟨n, hn, htransfers⟩ := exec_bt_interrupted hi hp h
    exact ⟨p, n, hp, hn, htransfers, htransfers.toNat_repeatCount hn.le⟩

end Sys2Proof.Machine
end

section
/-! JGD, the double-word instructions (48_f70_f71.md R230 to R239) and SLJ, JPS, JNS and the sums of f = 72 (49_f72.md
R240 to R246). With U formed each is at most one access at U and one update of registers, storage and P. -/

namespace Sys2Proof.Machine

variable {j a : BitVec 4} {m : Xhiu} {s s1 t t' : State} {u : Addr} {d : DWord}

/-! ### Frames put together -/

theorem ChangesOnly.trans {rs rs' : List RegAddr} {ws ws' : List Nat} (h : ChangesOnly rs ws s t)
    (h' : ChangesOnly rs' ws' t t') : ChangesOnly (rs ++ rs') (ws ++ ws') s t' where
  reg r hr := by
    obtain ⟨hr, hr'⟩ := not_or.1 (mt List.mem_append.2 hr)
    exact (h'.reg r hr').trans (h.reg r hr)
  word b hb := by
    obtain ⟨hb, hb'⟩ := not_or.1 (mt List.mem_append.2 hb)
    exact (h'.word b hb').trans (h.word b hb)
  cfg := h'.cfg.trans h.cfg

theorem ChangesOnly.advance {rs : List RegAddr} {ws : List Nat} (h : ChangesOnly rs ws s t) :
    ChangesOnly rs ws s t.advance :=
  h.congr t.advance_reg t.advance_mem t.advance_cfg

theorem ChangesOnly.jump {rs : List RegAddr} {ws : List Nat} (h : ChangesOnly rs ws s t) (u : Addr) :
    ChangesOnly rs ws s (t.jump u) :=
  h.congr (fun r => t.jump_reg r u) (t.jump_mem u) (t.jump_cfg u)

theorem ChangesOnly.jumpIf {rs : List RegAddr} {ws : List Nat} (h : ChangesOnly rs ws s t) (c : Bool) (u : Addr) :
    ChangesOnly rs ws s (t.jumpIf c u) :=
  h.congr (fun r => t.jumpIf_reg r u c) (t.jumpIf_mem u c) (t.jumpIf_cfg u c)

/-! ### Instructions with U formed -/

theorem ownAddr_toNext {own : List RegAddr} (hu : effAddr m s = .ok u s1) (hown : ¬UsesOwn own m)
    (k : Addr → State → State) : (ownAddr own m s).toNext k = .next (k u s1) := by
  rw [ownAddr_of_not hown, hu, Res.toNext_ok]

theorem doubleOperand_of_effAddr (hu : effAddr m s = .ok u s1) (hown : ¬UsesOwn [aReg a, aReg1 a] m) :
    doubleOperand a m s = opRead2 u s1 := by
  rw [doubleOperand, ownAddr_of_not hown, hu, Res.bind_ok]

theorem execDs_of_effAddr (hu : effAddr m s = .ok u s1) (hown : ¬UsesOwn [aReg a, aReg1 a] m) :
    exec (.ds a m) s = (opWrite2 u (s1.pair a) s1).toNext fun _ s2 => s2.advance := by
  change execDs a m s = _
  rw [execDs, ownAddr_of_not hown, hu, Res.bind_ok]

theorem addParts_of_effAddr (op : Word → Word → Word) (hu : effAddr m s = .ok u s1) (hown : ¬UsesOwn [aReg a] m) :
    addParts a m op s = (opRead u s1).toNext fun v s2 => (s2.setReg (aReg a) (op (s2.reg (aReg a)) v)).advance := by
  rw [addParts, ownAddr_of_not hown, hu, Res.bind_ok]

/-! ### Double words in a pair -/

/-- `A[a]`, `A[a+1]` get the double word `e` made of the pair and of the operand `d` (R239). -/
theorem doubleLoad_completes (hu : effAddr m s = .ok u s1) (hd : opRead2 u s1 = .ok d s1)
    (hown : ¬UsesOwn [aReg a, aReg1 a] m) (op : DWord → DWord → DWord) {e : DWord} (he : op (s1.pair a) d = e) :
    ∃ t, doubleLoad a m op s = .next t ∧ t.reg (aReg a) = e.extractLsb' 36 36 ∧
      t.reg (aReg1 a) = e.extractLsb' 0 36 ∧ ChangesOnly [aReg a, aReg1 a] [] s1 t ∧ t.p = s.p + 1 := by
  subst he
  refine ⟨(s1.setPair a (op (s1.pair a) d)).advance, ?_, s1.reg_setPair_high a _, s1.reg_setPair_low a _,
    (s1.setPair_changesOnly a _).advance, ?_⟩
  · rw [doubleLoad, doubleOperand_of_effAddr hu hown, hd, Res.toNext_ok]
  · rw [State.advance_p, State.setPair_p, (effAddr_ok hu).p]

/-- Settles O48: the five are `doubleLoad`, and the complement and the magnitude of R13 are those of the statement. -/
theorem doubleLoadsAndAdds : Obligations.DoubleLoadsAndAdds := by
  intro a m s s1 u d hu hd hown
  refine ⟨effAddr_ok hu, ?_⟩
  intro aa
  simp only [List.forall_mem_cons, List.not_mem_nil, false_implies, implies_true, and_true]
  and_intros
  · exact doubleLoad_completes hu hd hown (fun aa d => onesAdd aa d) rfl
  · exact doubleLoad_completes hu hd hown (fun aa d => onesAdd aa (onesNeg d)) (by rw [onesNeg_eq_not]; rfl)
  · exact doubleLoad_completes hu hd hown (fun _ d => d) rfl
  · exact doubleLoad_completes hu hd hown (fun _ d => onesNeg d) (onesNeg_eq_not d)
  · exact doubleLoad_completes hu hd hown (fun _ d => onesMag d) (by rw [onesMag, onesNeg_eq_not])

/-- The six that read a double word read it before anything else, and go on with its value. -/
theorem exec_doubleRead {i : Instr} (hi : i ∈ [Instr.da a m, .dan a m, .dl a m, .dln a m, .dlm a m, .dte a m])
    (s : State) : ∃ k, exec i s = (doubleOperand a m s).toNext k := by
  revert i
  simp only [List.forall_mem_cons, List.not_mem_nil, false_implies, implies_true, and_true]
  and_intros
  all_goals exact ⟨_, rfl⟩

/-- Whether a double-word write stops does not depend on the double word. -/
theorem opWrite2_raised_congr (d' : DWord) {f : Fault} (h : opWrite2 u d s = .raised f) :
    opWrite2 u d' s = .raised f :=
  opWrite2_eq_raised.2 (opWrite2_eq_raised.1 h)

theorem opWrite2_refused_congr (d' : DWord) {r : Refusal} (h : opWrite2 u d s = .refused r) :
    opWrite2 u d' s = .refused r :=
  opWrite2_eq_refused.2 (opWrite2_eq_refused.1 h)

theorem execDjz_of_effAddr (hu : effAddr m s = .ok u s1) (hown : ¬UsesOwn [aReg a, aReg1 a] m) :
    exec (.djz a m) s = .next (s1.jumpIf (onesIsZero (s1.pair a)) u) :=
  ownAddr_toNext hu hown _

/-- Settles O49: each of the six begins with the read, DS is the write, and DJZ makes no access at U. -/
theorem doubleOperandStops : Obligations.DoubleOperandStops := by
  intro a m s s1 u hu hown
  refine ⟨fun i hi => ?_, fun d => ⟨fun f hf => ?_, fun r hr => ?_⟩, _, execDjz_of_effAddr hu hown⟩
  · obtain ⟨k, hk⟩ := exec_doubleRead hi s
    rw [hk, doubleOperand_of_effAddr hu hown]
    exact ⟨fun f hf => by rw [hf, Res.toNext_raised], fun r hr => by rw [hr, Res.toNext_refused]⟩
  · rw [execDs_of_effAddr hu hown, opWrite2_raised_congr _ hf, Res.toNext_raised]
  · rw [execDs_of_effAddr hu hown, opWrite2_refused_congr _ hr, Res.toNext_refused]

/-! ### DS -/

/-- The address after U is another one, at the top of storage too. -/
theorem addr_succ_ne (u : Addr) : u.toNat ≠ (u + 1).toNat := by bv_omega

/-- Two words of storage after a double-word write. -/
theorem setWord_setWord_stored (hs : s.mem.wf) (u : Addr) (w w' : Word) :
    let t := (s.setWord u w).setWord (u + 1) w'
    t.mem.read u.toNat = w ∧ t.mem.read (u + 1).toNat = w' ∧ ChangesOnly [] [u.toNat, (u + 1).toNat] s t := by
  refine ⟨?_, Memory.read_write_same (Memory.write_wf hs _ _) _ _,
    (s.setWord_changesOnly u w).trans (State.setWord_changesOnly _ (u + 1) w')⟩
  exact (Memory.read_write_ne _ _ (addr_succ_ne u)).trans (Memory.read_write_same hs _ _)

/-- Two registers after a double-word write. -/
theorem setReg_setReg_stored {r r' : RegAddr} (hne : r ≠ r') (s : State) (w w' : Word) :
    let t := (s.setReg r w).setReg r' w'
    t.reg r = w ∧ t.reg r' = w' ∧ ChangesOnly [r, r'] [] s t :=
  ⟨(State.reg_setReg_ne _ _ _ _ hne).trans (s.reg_setReg_same r w), State.reg_setReg_same _ _ _,
    (s.setReg_changesOnly r w).trans (State.setReg_changesOnly _ r' w')⟩

/-- The registers of a double word are different ones (R66). -/
theorem regAddr_succ_ne (u : Addr) : (u.setWidth 7 : RegAddr) ≠ (u + 1).setWidth 7 := by
  bv_omega

/-- Settles O50: the double-word write of the pair, as O47 gives it, in each of its cases. -/
theorem doubleStoreWritesTwoWords : Obligations.DoubleStoreWritesTwoWords := by
  intro a m s s1 u hs hu hown
  have hmod := effAddr_ok hu
  refine ⟨hmod, ?_⟩
  intro w w'
  obtain ⟨hregs, -, hstorage⟩ := doubleOperandAccesses u (s1.pair a) s1
  have hhigh : (s1.pair a).extractLsb' 36 36 = w := upperWord_ofWords w w'
  have hlow : (s1.pair a).extractLsb' 0 36 = w' := lowerWord_ofWords w w'
  rw [hhigh, hlow, hmod.cfg] at hstorage
  rw [hhigh, hlow] at hregs
  rw [execDs_of_effAddr hu hown]
  refine ⟨fun habove hfirst hsecond => ?_, fun hbelow => ?_, fun habove hfirst => ?_, fun habove hfirst hsecond => ?_⟩
  case refine_1 =>
    obtain ⟨hwrite, -⟩ := hstorage habove
    obtain ⟨-, hok⟩ := hwrite hfirst hsecond
    obtain ⟨hread, hread', hframe⟩ := setWord_setWord_stored (hmod.mem ▸ hs) u w w'
    rw [hok, Res.toNext_ok]
    exact ⟨_, rfl, hread, hread', hframe.advance, congrArg (· + 1) hmod.p⟩
  case refine_2 =>
    obtain ⟨-, hok⟩ := hregs hbelow
    obtain ⟨hreg, hreg', hframe⟩ := setReg_setReg_stored (regAddr_succ_ne u) s1 w w'
    rw [hok, Res.toNext_ok]
    exact ⟨_, rfl, hreg, hreg', hframe.advance, congrArg (· + 1) hmod.p⟩
  case refine_3 =>
    obtain ⟨-, hfault, -⟩ := hstorage habove
    obtain ⟨-, hraised⟩ := hfault hfirst
    rw [hraised, Res.toNext_raised]
  case refine_4 =>
    obtain ⟨-, -, hfault⟩ := hstorage habove
    obtain ⟨-, hraised⟩ := hfault hfirst hsecond
    rw [hraised, Res.toNext_raised]

/-! ### DJZ and DTE -/

theorem ofWords_eq_iff {w w' : Word} : ofWords w w' = d ↔ w = upperWord d ∧ w' = lowerWord d := by
  constructor
  · rintro rfl
    exact ⟨(upperWord_ofWords w w').symm, (lowerWord_ofWords w w').symm⟩
  · rintro ⟨rfl, rfl⟩
    exact upperWord_append_lowerWord d

/-- A pair is a zero when all its 72 bits are equal (R13, R237): a zero of one sign above one of the other is none. -/
theorem onesIsZero_ofWords_iff (w w' : Word) : onesIsZero (ofWords w w') = true ↔
    (w = 0 ∧ w' = 0) ∨ (w = BitVec.allOnes 36 ∧ w' = BitVec.allOnes 36) := by
  have hzero : ofWords w w' = 0#72 ↔ w = 0 ∧ w' = 0 := ofWords_eq_iff
  have hones : ofWords w w' = BitVec.allOnes 72 ↔ w = BitVec.allOnes 36 ∧ w' = BitVec.allOnes 36 := ofWords_eq_iff
  rw [onesIsZero, Bool.or_eq_true, beq_iff_eq, beq_iff_eq, hzero, hones]

/-- Settles O51: DJZ jumps on a zero of 72 bits, and DTE skips where the double word read is the pair. -/
theorem doubleTestAndJump : Obligations.DoubleTestAndJump := by
  intro a m s s1 u hu hown
  have hmod := effAddr_ok hu
  refine ⟨hmod, ?_⟩
  intro w w'
  refine ⟨⟨_, execDjz_of_effAddr hu hown, (ChangesOnly.refl s1).jumpIf _ u, ?_⟩, fun d hd =>
    ⟨s1.skipIf (d == s1.pair a), ?_, (ChangesOnly.refl s1).skipIf _, ?_⟩⟩
  · have hzero : onesIsZero (s1.pair a) = true ↔ _ := onesIsZero_ofWords_iff w w'
    simp only [State.jumpIf_p, hmod.p, hzero]
  · change execDte a m s = _
    rw [execDte, doubleOperand_of_effAddr hu hown, hd, Res.toNext_ok]
  · simp only [State.skipIf_p, hmod.p, beq_iff_eq]
    rfl

/-! ### JGD -/

theorem isPositive_iff (v : Word) : isPositive v = true ↔ 0 < v.toInt := by
  have hzero : v = 0#36 ↔ v.toInt = 0 := BitVec.toInt_inj.symm
  have hsign : v.msb = false ↔ 0 ≤ v.toInt := by rw [BitVec.msb_eq_toInt, decide_eq_false_iff_not, not_lt]
  rw [isPositive, Bool.and_eq_true, Bool.not_eq_true', bne_iff_ne, ne_eq, hsign, hzero]
  omega

/-- Settles O52: the register of R230 is named by the low seven bits of j and a. -/
theorem jgdTestsThenDecrements : Obligations.JgdTestsThenDecrements := by
  intro j a m s s1 u hu r hown
  have hmod := effAddr_ok hu
  have hr : r = jgdReg j a := by rw [jgdReg_eq]; exact BitVec.eq_of_toNat_eq (by simp [r])
  clear_value r
  subst hr
  refine ⟨hmod, _, ownAddr_toNext hu hown _, ?_, ((s1.setReg_changesOnly _ _).jumpIf _ u), ?_⟩
  · rw [State.jumpIf_reg, State.reg_setReg_same]
  · simp only [State.jumpIf_p, State.setReg_p, hmod.p, isPositive_iff]

/-! ### SLJ -/

theorem execSlj_of_effAddr (a : BitVec 4) (hu : effAddr m s = .ok u s1) : exec (.slj a m) s =
    (memRead .sljWord u s1).andThen fun w s2 => (memWrite .sljWord u (ofHalves (highHalf w) (s2.p + 1)) s2).toNext
      fun _ s3 => s3.jump (u + 1) := by
  change execSlj a m s = _
  rw [execSlj, hu, Res.bind_ok, Res.toNext_bind]
  simp only [Res.toNext_bind]
  rfl

/-- Settles O53: the word at U is rewritten where it exists, in storage whatever the address. -/
theorem sljStoresTheReturnAddress : Obligations.SljStoresTheReturnAddress := by
  intro a m s s1 u hs hu
  have hmod := effAddr_ok hu
  refine ⟨hmod, fun hword => ?_, fun hword => ?_⟩
  · have hw : s1.hasWord u = true := (hmod.hasWord u).trans (decide_eq_true hword)
    rw [execSlj_of_effAddr a hu, memRead_of_hasWord hw, Res.andThen_ok, memWrite_of_hasWord hw, Res.toNext_ok]
    refine ⟨_, rfl, ?_, (s1.setWord_changesOnly u _).jump (u + 1), rfl⟩
    rw [State.jump_mem, State.setWord_mem, Memory.read_write_same (hmod.mem ▸ hs), hmod.mem, hmod.p]
    rfl
  · have hw : s1.hasWord u = false := (hmod.hasWord u).trans (decide_eq_false hword.not_gt)
    rw [execSlj_of_effAddr a hu, memRead_of_not hw, Res.andThen_raised]
    rfl

/-! ### JPS and JNS -/

/-- A rotation by one place to the left, bit by bit (R241). -/
theorem getLsbD_rotateLeft_one (w : Word) {k : Nat} (hk : k < 36) :
    (w.rotateLeft 1).getLsbD k = w.getLsbD (if k = 0 then 35 else k - 1) := by
  rw [BitVec.getLsbD_rotateLeft]
  by_cases h0 : k = 0
  · simp [h0]
  · have h1 : ¬k < 1 := by omega
    simp [h0, h1, hk]

theorem jumpAndShift_completes (hu : effAddr m s = .ok u s1) (hown : ¬UsesOwn [aReg a] m) (c : Word → Bool) {b : Bool}
    (hc : c (s1.reg (aReg a)) = true ↔ (s1.reg (aReg a)).getLsbD 35 = b) :
    ∃ t, jumpAndShift a m c s = .next t ∧
      (∀ k < 36, (t.reg (aReg a)).getLsbD k = (s1.reg (aReg a)).getLsbD (if k = 0 then 35 else k - 1)) ∧
      ChangesOnly [aReg a] [] s1 t ∧ t.p = if (s1.reg (aReg a)).getLsbD 35 = b then u else s.p + 1 := by
  refine ⟨_, ownAddr_toNext hu hown _, fun k hk => ?_, (s1.setReg_changesOnly _ _).jumpIf _ u, ?_⟩
  · rw [State.jumpIf_reg, State.reg_setReg_same, getLsbD_rotateLeft_one _ hk]
  · simp only [State.jumpIf_p, State.setReg_p, (effAddr_ok hu).p, hc]

/-- Settles O54: the sign is bit 35, before the rotation. -/
theorem jumpsAndShifts : Obligations.JumpsAndShifts := by
  intro a m s s1 u hu hown
  refine ⟨effAddr_ok hu, ?_⟩
  intro w
  simp only [List.forall_mem_cons, List.not_mem_nil, false_implies, implies_true, and_true]
  constructor
  · exact jumpAndShift_completes hu hown (fun v => !v.msb) (by rw [msb_eq_getLsbD_35, Bool.not_eq_true'])
  · exact jumpAndShift_completes hu hown (fun v => v.msb) (by rw [msb_eq_getLsbD_35])

/-! ### AH, ANH, AT and ANT -/

/-- The word `e` made of `A[a]` and of the operand goes to `A[a]`, or the operand faults (R243 to R246). -/
theorem addParts_at (hu : effAddr m s = .ok u s1) (hown : ¬UsesOwn [aReg a] m) (op : Word → Word → Word) {e : Word}
    (he : op (s1.reg (aReg a)) (wordAt u s1) = e) :
    (u.toNat < 0o200 ∨ u.toNat < s.cfg.memWords →
      ∃ t, addParts a m op s = .next t ∧ t.reg (aReg a) = e ∧ ChangesOnly [aReg a] [] s1 t ∧ t.p = s.p + 1) ∧
    (0o200 ≤ u.toNat → s.cfg.memWords ≤ u.toNat →
      addParts a m op s = .fault (.interrupt (.storageFault u .operandRead) s1)) := by
  subst he
  have hmod := effAddr_ok hu
  rw [addParts_of_effAddr op hu hown, ← hmod.cfg]
  refine ⟨fun hword => ?_, fun hlow hword => ?_⟩
  · have hread : opRead u s1 = .ok (wordAt u s1) s1 := (storable_of_inRange (p := .w) (.inl rfl) hword).opRead_ok
    rw [hread, Res.toNext_ok]
    exact ⟨_, rfl, s1.reg_setReg_same _ _, (s1.setReg_changesOnly _ _).advance, congrArg (· + 1) hmod.p⟩
  · rw [opRead_eq_raised.2 ⟨decide_eq_false hlow.not_gt, decide_eq_false hword.not_gt, rfl⟩, Res.toNext_raised]
    rfl

/-- Settles O55: the four are `addParts`, and a subtraction is the addition of the complement (R13). -/
theorem halvesAndThirdsAddIndependently : Obligations.HalvesAndThirdsAddIndependently := by
  intro a m s s1 u hu hown
  refine ⟨effAddr_ok hu, ?_⟩
  intro w v half third
  simp only [List.forall_mem_cons, List.not_mem_nil, false_implies, implies_true, and_true]
  refine ⟨?_, ?_, ?_, ?_⟩
  · exact addParts_at hu hown addHalves rfl
  · exact addParts_at hu hown subHalves (by simp only [subHalves, onesSub, onesNeg_eq_not]; rfl)
  · exact addParts_at hu hown addThirds rfl
  · exact addParts_at hu hown subThirds (by simp only [subThirds, onesSub, onesNeg_eq_not]; rfl)

end Sys2Proof.Machine
end

section
/-! The divide fault (60_exceptions.md R264): what `quotRem` has no result for, on the dividend of each division. -/

namespace Sys2Proof.Machine

variable {j : BitVec 4} {m : Xhiu} {s s1 : State} {v : Word}

/-- No quotient: the divisor is a zero, or the magnitude of the quotient takes more than 35 bits. -/
theorem quotRem_eq_none_iff (b : Bool) (n : Nat) (v : Word) :
    quotRem b n v = none ↔ onesVal v = 0 ∨ 2 ^ 35 ≤ n / (onesVal v).natAbs := by
  simp only [quotRem, onesIsZero_iff_onesVal_eq_zero, onesMag_toNat, ite_eq_left_iff, reduceCtorEq, imp_false, not_not]

theorem divide_without_quotient {own : List RegAddr} (ho : operand j m s = .ok v s1) (hown : ¬UsesOwn own m) (i : Instr)
    (dividend : State → Bool × Nat) (k : Word → Word → State → State)
    (hnone : onesVal v = 0 ∨ 2 ^ 35 ≤ (dividend s1).2 / (onesVal v).natAbs) :
    divide i own j m dividend k s = .fault (.interrupt (.divideFault (encode i)) s1) :=
  divide_fault.2 ⟨hown, .inr ⟨v, s1, ho, (quotRem_eq_none_iff _ _ v).2 hnone, rfl⟩⟩

/-- Settles O38: the dividends are the magnitudes of the pair, of `A[a]` times 2^35, and of the pair halved. -/
theorem divideFaults : Obligations.DivideFaults := by
  intro j a m s s1 v ho hown
  refine ⟨operand_ok ho, ?_⟩
  intro w d
  rw [← onesMag_toNat w, ← onesMag_toNat d]
  exact ⟨fun h => divide_without_quotient ho hown (.di j a m) _ _ h,
    fun h => divide_without_quotient ho hown (.dsf j a m) _ _ h,
    fun h => divide_without_quotient ho hown (.df j a m) _ _ h⟩

end Sys2Proof.Machine
end
